-- ==== Sys2Proof/Word.lean ====
section
/-! DEFINITION. The word of CORE and its bit sequences: the two types every other file speaks in. -/

namespace Sys2Proof

/-- A 32-bit register or command word; bit 0 is the least significant (rules R10, R13). -/
abbrev Word := BitVec 32

/-- A bit sequence of rule R8: index 0 is the first bit. -/
abbrev Bits := List Bool

/-- A byte offset into the CORE window (rule R40). -/
abbrev Offset := BitVec 16

end Sys2Proof
end

