-- ==== Sys2Proof/Config.lean ====
section
/-! DEFINITION. The implementation parameters of rule R6: the given values, the OPEN parameters (constants with no
body: nothing can be proved of their value) and the draws of the unspecified buffer bits (rule R39). -/

namespace Sys2Proof.Config

/-- `IBUF_BITS` (rule R6, decision D4). -/
abbrev ibufBits : Nat := 4096

/-- `OBUF_BITS` (rule R6, decision D4). -/
abbrev obufBits : Nat := 4096

/-- `N_CRC` (rule R6, decision D16). -/
abbrev nCrc : Nat := 4

/-- `P_GOLAY2087`, OPEN: entry (row, column) of an 8×12 bit matrix (rule R88). -/
opaque pGolay2087 : Nat → Nat → Bool

/-- `P_QR1676`, OPEN: entry (row, column) of a 7×9 bit matrix (rule R89). -/
opaque pQr1676 : Nat → Nat → Bool

/-- `G_RS1294`, OPEN: entry (row, column) of a 9×12 matrix of bytes (rule R90). -/
opaque gRs1294 : Nat → Nat → BitVec 8

/-- `IL_VBPTC3211`, OPEN: a permutation of 0..31 (rule R107). -/
opaque ilVbptc3211 : Equiv.Perm (Fin 32)

/-- The unspecified content of IBUF after a reset (rule R39): the draw of a bit, by the number of resets before it and
the bit's index. A free value: it has no body. -/
opaque ibufDraw : Nat → Nat → Bool

/-- The unspecified content of OBUF after a reset (rule R39), drawn like `ibufDraw`. -/
opaque obufDraw : Nat → Nat → Bool

end Sys2Proof.Config
end

