-- ==== Sys2Proof/Syntax.lean ====
section
/-! DEFINITION. The 17 commands of CORE command set 1 (rule R59) and their operands: code ids (R60), variant ids (R61),
preset ids (R62) and CRC unit numbers (R58). -/

namespace Sys2Proof

/-- The eight block codes, in code-id order (rule R60). -/
inductive Code where
  | ham743 | ham1393 | ham15113 | ham16114 | ham17123 | golay2087 | qr1676 | rs1294
deriving DecidableEq, Repr

/-- The four product-code variants, in variant-id order (rule R61). -/
inductive Variant where
  | bptc19696 | vbptc12873 | vbptc3211 | vbptc6828
deriving DecidableEq, Repr

/-- The five CRC presets, in preset-id order (rule R62). -/
inductive Preset where
  | crc7 | crc8 | crc9 | crc16 | crc32
deriving DecidableEq, Repr

/-- A CRC unit number `u < N_CRC` (rules R23, R58). -/
abbrev UnitId := Fin Config.nCrc

/-- The commands, in the order of the opcode map (rule R59). -/
inductive Instr where
  | bmcSyn (c : Code)
  | bmcChk (c : Code)
  | bmcCor (c : Code)
  | bmcGen (c : Code)
  | pcDia (v : Variant)
  | pcDid (v : Variant) (repair special : Bool)
  | pcRep (v : Variant)
  | pcEnc (v : Variant)
  | trDec
  | trEnc
  | crcCfg (p : Preset) (u : UnitId)
  | crcInit (u : UnitId)
  | crcUpd (u : UnitId)
  | crcDig (u : UnitId)
  | crcRev (u : UnitId)
  | crcCalc (p : Preset)
  | crcVer (p : Preset)
deriving DecidableEq, Repr

end Sys2Proof
end

