-- ==== Sys2Proof/WellFormed.lean ====
section
/-! DEFINITION. Which commands are legal. The operand types admit no reserved code, variant, preset or unit, so the one
check left is PC.DID's SPECIAL flag (rule R63). -/

namespace Sys2Proof

/-- The variants with a special field, S > 0 (rules R61, R63). -/
def Variant.hasSpecial : Variant → Bool
  | .bptc19696 => false
  | .vbptc12873 => true
  | .vbptc3211 => false
  | .vbptc6828 => true

/-- A command some word encodes: "SPECIAL = 1 is legal only for variants with S > 0" (rule R63). -/
def Instr.wellFormed : Instr → Bool
  | .bmcSyn _ => true
  | .bmcChk _ => true
  | .bmcCor _ => true
  | .bmcGen _ => true
  | .pcDia _ => true
  | .pcDid v _ special => !special || v.hasSpecial
  | .pcRep _ => true
  | .pcEnc _ => true
  | .trDec => true
  | .trEnc => true
  | .crcCfg _ _ => true
  | .crcInit _ => true
  | .crcUpd _ => true
  | .crcDig _ => true
  | .crcRev _ => true
  | .crcCalc _ => true
  | .crcVer _ => true

end Sys2Proof
end

