-- ==== Sys2Proof/Decode.lean ====
section
/-! DEFINITION. Decoding a command word (rule R65), rejecting by name, and the encoder written from the same tables
(rules R58 to R64). -/

namespace Sys2Proof

/-- Why a word is illegal (rules R64 to R66). Every one of them is the error BAD_COMMAND. -/
inductive Reject where
  /-- OPC is none of the 17 listed values (rule R66). -/
  | reservedOpcode
  /-- Bits 15:2 are not all 0 (rule R64). -/
  | reservedBits
  /-- SEL is no code, variant or preset id, or is nonzero where the command uses none (rules R60 to R62, R64). -/
  | badSel
  /-- UNIT is no CRC unit, or is nonzero where the command uses none (rules R58, R64). -/
  | badUnit
  /-- FLAGS is nonzero where the command uses none (rule R63). -/
  | badFlags
  /-- SPECIAL = 1 with a variant that has no special field (rule R63). -/
  | specialWithoutField
deriving DecidableEq, Repr

/-! ### The fields of a command word (rule R58) -/

def opcOf (w : Word) : BitVec 8 := w.extractLsb' 24 8
def selOf (w : Word) : BitVec 4 := w.extractLsb' 20 4
def unitOf (w : Word) : BitVec 4 := w.extractLsb' 16 4
def reservedOf (w : Word) : BitVec 14 := w.extractLsb' 2 14
def flagsOf (w : Word) : BitVec 2 := w.extractLsb' 0 2

/-! ### Operand ids (rules R60 to R62) -/

/-- The code with id SEL (rule R60). -/
def codeOfSel (sel : BitVec 4) : Option Code :=
  match sel.toNat with
  | 0 => some .ham743
  | 1 => some .ham1393
  | 2 => some .ham15113
  | 3 => some .ham16114
  | 4 => some .ham17123
  | 5 => some .golay2087
  | 6 => some .qr1676
  | 7 => some .rs1294
  | _ => none

/-- The variant with id SEL (rule R61). -/
def variantOfSel (sel : BitVec 4) : Option Variant :=
  match sel.toNat with
  | 0 => some .bptc19696
  | 1 => some .vbptc12873
  | 2 => some .vbptc3211
  | 3 => some .vbptc6828
  | _ => none

/-- The preset with id SEL (rule R62). -/
def presetOfSel (sel : BitVec 4) : Option Preset :=
  match sel.toNat with
  | 0 => some .crc7
  | 1 => some .crc8
  | 2 => some .crc9
  | 3 => some .crc16
  | 4 => some .crc32
  | _ => none

/-- The CRC unit with number UNIT, where there is one (rule R58). -/
def unitOfField (unit : BitVec 4) : Option UnitId :=
  if h : unit.toNat < Config.nCrc then some ⟨unit.toNat, h⟩ else none

/-! ### The operand forms of rule R65 -/

/-- 0x10..0x13: a code id, UNIT = 0, FLAGS = 0. -/
def decodeCodeForm (w : Word) (k : Code → Instr) : Except Reject Instr :=
  if unitOf w ≠ 0 then .error .badUnit
  else if flagsOf w ≠ 0 then .error .badFlags
  else
    match codeOfSel (selOf w) with
    | some c => .ok (k c)
    | none => .error .badSel

/-- 0x20, 0x22, 0x23: a variant id, UNIT = 0, FLAGS = 0. -/
def decodeVariantForm (w : Word) (k : Variant → Instr) : Except Reject Instr :=
  if unitOf w ≠ 0 then .error .badUnit
  else if flagsOf w ≠ 0 then .error .badFlags
  else
    match variantOfSel (selOf w) with
    | some v => .ok (k v)
    | none => .error .badSel

/-- 0x21: a variant id, UNIT = 0, FLAGS bit 0 REPAIR and bit 1 SPECIAL (rule R63). -/
def decodePcDid (w : Word) : Except Reject Instr :=
  if unitOf w ≠ 0 then .error .badUnit
  else
    match variantOfSel (selOf w) with
    | some v =>
      if (flagsOf w).getLsbD 1 && !v.hasSpecial then .error .specialWithoutField
      else .ok (.pcDid v ((flagsOf w).getLsbD 0) ((flagsOf w).getLsbD 1))
    | none => .error .badSel

/-- 0x30, 0x31: SEL = 0, UNIT = 0, FLAGS = 0. -/
def decodePlainForm (w : Word) (i : Instr) : Except Reject Instr :=
  if selOf w ≠ 0 then .error .badSel
  else if unitOf w ≠ 0 then .error .badUnit
  else if flagsOf w ≠ 0 then .error .badFlags
  else .ok i

/-- 0x40: a preset id, a CRC unit, FLAGS = 0. -/
def decodeCrcCfg (w : Word) : Except Reject Instr :=
  if flagsOf w ≠ 0 then .error .badFlags
  else
    match presetOfSel (selOf w) with
    | none => .error .badSel
    | some p =>
      match unitOfField (unitOf w) with
      | none => .error .badUnit
      | some u => .ok (.crcCfg p u)

/-- 0x41..0x44: SEL = 0, a CRC unit, FLAGS = 0. -/
def decodeUnitForm (w : Word) (k : UnitId → Instr) : Except Reject Instr :=
  if selOf w ≠ 0 then .error .badSel
  else if flagsOf w ≠ 0 then .error .badFlags
  else
    match unitOfField (unitOf w) with
    | none => .error .badUnit
    | some u => .ok (k u)

/-- 0x48, 0x49: a preset id, UNIT = 0, FLAGS = 0. -/
def decodePresetForm (w : Word) (k : Preset → Instr) : Except Reject Instr :=
  if unitOf w ≠ 0 then .error .badUnit
  else if flagsOf w ≠ 0 then .error .badFlags
  else
    match presetOfSel (selOf w) with
    | some p => .ok (k p)
    | none => .error .badSel

/-- The operand form of an opcode, by the opcode map of rule R59. -/
def decodeOpcode (w : Word) : Except Reject Instr :=
  match (opcOf w).toNat with
  | 0x10 => decodeCodeForm w .bmcSyn
  | 0x11 => decodeCodeForm w .bmcChk
  | 0x12 => decodeCodeForm w .bmcCor
  | 0x13 => decodeCodeForm w .bmcGen
  | 0x20 => decodeVariantForm w .pcDia
  | 0x21 => decodePcDid w
  | 0x22 => decodeVariantForm w .pcRep
  | 0x23 => decodeVariantForm w .pcEnc
  | 0x30 => decodePlainForm w .trDec
  | 0x31 => decodePlainForm w .trEnc
  | 0x40 => decodeCrcCfg w
  | 0x41 => decodeUnitForm w .crcInit
  | 0x42 => decodeUnitForm w .crcUpd
  | 0x43 => decodeUnitForm w .crcDig
  | 0x44 => decodeUnitForm w .crcRev
  | 0x48 => decodePresetForm w .crcCalc
  | 0x49 => decodePresetForm w .crcVer
  | _ => .error .reservedOpcode

/-- The 17 listed OPC values (rules R59, R65). -/
def opcodes : List Nat :=
  [0x10, 0x11, 0x12, 0x13, 0x20, 0x21, 0x22, 0x23, 0x30, 0x31, 0x40, 0x41, 0x42, 0x43, 0x44, 0x48, 0x49]

/-- Decode (rule R65): reads only the word, no state. -/
def decode (w : Word) : Except Reject Instr :=
  if (opcOf w).toNat ∉ opcodes then .error .reservedOpcode
  else if reservedOf w ≠ 0 then .error .reservedBits
  else decodeOpcode w

/-! ### The encoder -/

/-- A code's id (rule R60). -/
def selOfCode : Code → BitVec 4
  | .ham743 => 0
  | .ham1393 => 1
  | .ham15113 => 2
  | .ham16114 => 3
  | .ham17123 => 4
  | .golay2087 => 5
  | .qr1676 => 6
  | .rs1294 => 7

/-- A variant's id (rule R61). -/
def selOfVariant : Variant → BitVec 4
  | .bptc19696 => 0
  | .vbptc12873 => 1
  | .vbptc3211 => 2
  | .vbptc6828 => 3

/-- A preset's id (rule R62). -/
def selOfPreset : Preset → BitVec 4
  | .crc7 => 0
  | .crc8 => 1
  | .crc9 => 2
  | .crc16 => 3
  | .crc32 => 4

/-- The UNIT field of a CRC unit (rule R58). -/
def fieldOfUnit (u : UnitId) : BitVec 4 := BitVec.ofNat 4 u.val

/-- The FLAGS field of PC.DID: SPECIAL·2 + REPAIR (rule R111). -/
def flagsOfDid (repair special : Bool) : BitVec 2 := BitVec.ofBool special ++ BitVec.ofBool repair

/-- A command word from its fields; bits 15:2 are 0 (rule R58). -/
def packWord (opc : BitVec 8) (sel unit : BitVec 4) (flags : BitVec 2) : Word :=
  opc ++ sel ++ unit ++ (0#14) ++ flags

/-- The word of a command (rule R59). -/
def encode : Instr → Word
  | .bmcSyn c => packWord 0x10 (selOfCode c) 0 0
  | .bmcChk c => packWord 0x11 (selOfCode c) 0 0
  | .bmcCor c => packWord 0x12 (selOfCode c) 0 0
  | .bmcGen c => packWord 0x13 (selOfCode c) 0 0
  | .pcDia v => packWord 0x20 (selOfVariant v) 0 0
  | .pcDid v repair special => packWord 0x21 (selOfVariant v) 0 (flagsOfDid repair special)
  | .pcRep v => packWord 0x22 (selOfVariant v) 0 0
  | .pcEnc v => packWord 0x23 (selOfVariant v) 0 0
  | .trDec => packWord 0x30 0 0 0
  | .trEnc => packWord 0x31 0 0 0
  | .crcCfg p u => packWord 0x40 (selOfPreset p) (fieldOfUnit u) 0
  | .crcInit u => packWord 0x41 0 (fieldOfUnit u) 0
  | .crcUpd u => packWord 0x42 0 (fieldOfUnit u) 0
  | .crcDig u => packWord 0x43 0 (fieldOfUnit u) 0
  | .crcRev u => packWord 0x44 0 (fieldOfUnit u) 0
  | .crcCalc p => packWord 0x48 (selOfPreset p) 0 0
  | .crcVer p => packWord 0x49 (selOfPreset p) 0 0

/-- The command word whose bits, numbered as the opcode table numbers them, are `w`, of which only the low `nbits`
count (a CORE command is exactly one 32-bit word, rule R57). -/
def tableWord (nbits w : Nat) : Word := BitVec.ofNat 32 (w % 2 ^ nbits)

/-- What the decoder reads from that word. -/
def decodeTableWord (nbits w : Nat) : Option Instr :=
  match decode (tableWord nbits w) with
  | .ok i => some i
  | .error _ => none

end Sys2Proof
end

