-- ==== Sys2Proof/Machine/Bits.lean ====
section
/-! DEFINITION. Bit sequences (rules R8 to R10): their integers, parities, and the two list operations every table
permutation is made of. -/

namespace Sys2Proof.Machine

/-- `int(s)`: the first bit is the most significant (rule R8). -/
def intOf (s : Bits) : Nat := s.foldl (fun v b => 2 * v + b.toNat) 0

/-- `bits_W(v)`: the W-bit sequence whose integer is `v mod 2^W` (rule R8). -/
def bitsOf (W v : Nat) : Bits := (List.range W).map fun i => v.testBit (W - 1 - i)

/-- `zext_32` of a bit sequence of at most 32 bits (rule R10). -/
def wordOf (s : Bits) : Word := BitVec.ofNat 32 (intOf s)

/-- `mask_W = 2^W − 1` (rule R10). -/
def maskW (W : Nat) : Word := BitVec.ofNat 32 (2 ^ W - 1)

/-- `rev_W(v)`: bit `i` is bit `W − 1 − i` of `v` (rule R10). -/
def revW (W : Nat) (v : Word) : Word := wordOf (bitsOf W v.toNat).reverse

/-- The sum of a bit sequence mod 2. -/
def parity (s : Bits) : Bool := s.foldl xor false

/-- The all-zero test of a bit sequence. -/
def allZero (s : Bits) : Bool := s.all fun b => !b

/-- The elements of `xs` at the indices `idx`, in the order of `idx`. -/
def gather {α : Type} [Inhabited α] (xs : List α) (idx : List Nat) : List α :=
  idx.map fun i => xs.getD i default

/-- `xs` with the value `vals[j]` written at index `idx[j]`, for every `j`. -/
def scatter {α : Type} (xs : List α) (idx : List Nat) (vals : List α) : List α :=
  (idx.zip vals).foldl (fun acc p => acc.set p.1 p.2) xs

end Sys2Proof.Machine
end

