-- ==== Sys2Proof/Machine/State.lean ====
section
/-! DEFINITION. The state of CORE (rule R13) as plain data, what the outside world does to it (rules R40, R167), the
reasons a step can stop, and the state after reset (rule R39). -/

namespace Sys2Proof.Machine

/-- The contents of one bit buffer: (bit index, bit) pairs, indices strictly rising (`Memory.wf`). A bit that is not
listed has not been written since reset; what it reads as is a free value (log entry 3). -/
abbrev Memory := List (Nat × Bool)

/-- The five registers of one CRC unit (rule R23). -/
structure CrcUnit where
  /-- CFG_u (rule R24): WIDTH 5:0, REFIN 8, REFOUT 9, MODE 10, LIFE 31. -/
  cfg : Word
  /-- POLY_u (rule R25). -/
  poly : Word
  /-- INIT_u (rule R25). -/
  init : Word
  /-- XOROUT_u (rule R25). -/
  xorout : Word
  /-- ACC_u (rule R26). -/
  acc : Word
deriving DecidableEq, Repr

/-- One thing the outside world does to CORE (log entry 1): a host access of `size` bytes at a byte offset of the
window (rules R40, R41), or a reset by the platform (rule R167). The value of a write that is not a word access does
not matter, since it is not performed. -/
inductive HostEvent where
  | read (off : Offset) (size : Nat)
  | write (off : Offset) (size : Nat) (v : Word)
  | reset
deriving DecidableEq, Repr

/-- CORE's answer to the last host event (log entry 1). -/
inductive BusReply where
  /-- No access has been answered since reset. -/
  | idle
  /-- A write is complete (rule R49). -/
  | done
  /-- A read delivered this word. -/
  | data (v : Word)
deriving DecidableEq, Repr

/-- The state of CORE: the spec's registers and buffers (rule R13), then three fields of the model's own. -/
structure State where
  /-- STATUS (rule R15): OK bit 0, ERR bits 7:4, STICKY bit 15. -/
  status : Word
  /-- ILEN (rule R16). -/
  ilen : Word
  /-- OLEN (rule R17). -/
  olen : Word
  /-- RESULT (rule R18). -/
  result : Word
  /-- AUX0, the mask operand (rule R19). -/
  aux0 : Word
  /-- AUX1, the expected-value operand (rule R20). -/
  aux1 : Word
  /-- IBUF (rule R21). -/
  ibuf : Memory
  /-- OBUF (rule R22). -/
  obuf : Memory
  /-- The CRC units (rule R23). -/
  units : Vector CrcUnit Config.nCrc
  /-- The model's own: what the outside world does next, oldest first (log entry 1). -/
  pending : List HostEvent
  /-- The model's own: the answer to the last host event (log entry 1). -/
  reply : BusReply
  /-- The model's own: how many resets there were; it picks the draw of the unspecified bits (log entry 3). -/
  resets : Nat
deriving DecidableEq, Repr

/-- CORE raises no fault: it has no trap, and an error is reported in STATUS while the machine goes on (rules R157,
R163). No constructor, so no step can end in a fault. -/
inductive Fault
deriving DecidableEq, Repr

/-- Why a step has no next state. -/
inductive Refusal where
  /-- Raised by `exec` for a command that has no meaning yet; safe. No command of this model is left so. -/
  | notModelled (mnemonic : String)
  /-- Raised by a host access that is not 32 bits wide or not 4-byte aligned: the access "is not performed", CORE answers
  with a bus error, and "A model refuses such an access" (rules R41, R166); safe (log entry 2). -/
  | busError
deriving DecidableEq, Repr

/-- What a command or a step answers. -/
abbrev Outcome := Host.Outcome State Fault Refusal

/-- A CRC unit after reset: every register 0, so UNINITIALIZED with WIDTH 0 (rule R39). -/
def CrcUnit.reset : CrcUnit := { cfg := 0, poly := 0, init := 0, xorout := 0, acc := 0 }

/-- The state after reset (rules R39, R167): every register 0, no buffer bit written; nothing pending. -/
def State.reset : State :=
  { status := 0, ilen := 0, olen := 0, result := 0, aux0 := 0, aux1 := 0
    ibuf := [], obuf := []
    units := Vector.replicate Config.nCrc CrcUnit.reset
    pending := [], reply := .idle, resets := 0 }

end Sys2Proof.Machine
end

