-- ==== Sys2Proof/Machine/Flags.lean ====
section
/-! DEFINITION. The fields of STATUS (rule R15) and of CFG_u (rule R24), the error codes (rule R158), and what a command
leaves in STATUS (rules R157, R160). -/

namespace Sys2Proof.Machine

/-! ### STATUS (rule R15) -/

/-- STATUS.OK, bit 0. -/
def okOf (status : Word) : Bool := status.getLsbD 0

/-- STATUS.ERR, bits 7:4. -/
def errOf (status : Word) : BitVec 4 := status.extractLsb' 4 4

/-- STATUS.STICKY, bit 15. -/
def stickyOf (status : Word) : Bool := status.getLsbD 15

/-- The STATUS word with these fields; its reserved bits are 0. -/
def statusWord (ok : Bool) (err : BitVec 4) (sticky : Bool) : Word :=
  (0#16) ++ BitVec.ofBool sticky ++ (0#7) ++ err ++ (0#3) ++ BitVec.ofBool ok

/-- The error codes (rule R158). -/
inductive ErrorCode where
  | badCommand | length | uninit | config
deriving DecidableEq, Repr

/-- The number of an error code (rule R158). -/
def errorNumber : ErrorCode → BitVec 4
  | .badCommand => 1
  | .length => 2
  | .uninit => 3
  | .config => 4

/-- STATUS after a completion: "`OK = b` and `ERR = 0`, and STICKY is unchanged" (rule R157). -/
def completedStatus (b : Bool) (status : Word) : Word := statusWord b 0 (stickyOf status)

/-- STATUS after an error: OK 0, ERR the code, STICKY 1 (rule R160). -/
def errorStatus (e : ErrorCode) : Word := statusWord false (errorNumber e) true

/-! ### CFG_u (rule R24) -/

/-- CFG_u.WIDTH, bits 5:0. -/
def widthOf (cfg : Word) : Nat := (cfg.extractLsb' 0 6).toNat

/-- CFG_u.REFIN, bit 8. -/
def refinOf (cfg : Word) : Bool := cfg.getLsbD 8

/-- CFG_u.REFOUT, bit 9. -/
def refoutOf (cfg : Word) : Bool := cfg.getLsbD 9

/-- CFG_u.MODE, bit 10. -/
def modeOf (cfg : Word) : Bool := cfg.getLsbD 10

/-- CFG_u.LIFE, bit 31: true is ACCUMULATING. -/
def lifeOf (cfg : Word) : Bool := cfg.getLsbD 31

/-- The CFG word with these fields; its reserved bits are 0. -/
def cfgWord (width : Nat) (refin refout mode life : Bool) : Word :=
  BitVec.ofBool life ++ (0#20) ++ BitVec.ofBool mode ++ BitVec.ofBool refout ++ BitVec.ofBool refin ++ (0#2) ++
    BitVec.ofNat 6 width

/-- CFG with LIFE written and every other field kept. -/
def withLife (life : Bool) (cfg : Word) : Word :=
  cfgWord (widthOf cfg) (refinOf cfg) (refoutOf cfg) (modeOf cfg) life

/-- What a host write of `v` stores in CFG_u: "bits 10:8 and 5:0 of the written word" (rule R47), with LIFE 0 (R29). -/
def hostCfg (v : Word) : Word := withLife false v

end Sys2Proof.Machine
end

