-- ==== Sys2Proof/Machine/Ops.lean ====
section
/-! DEFINITION. The named operations over buffers and registers, how a command completes (rule R157) and the one
operation by which a command ends in an error (rule R160). -/

namespace Sys2Proof.Machine

/-! ### One bit buffer (rules R21, R22) -/

/-- The canonical form: bit indices strictly rising and below the buffer's size `cap`. -/
def Memory.wf (cap : Nat) (m : Memory) : Bool :=
  decide ((m.map Prod.fst).Pairwise (· < ·)) && m.all fun c => decide (c.1 < cap)

/-- The bits `bs` as entries from index `start` on. -/
def cellsFrom : Nat → Bits → Memory
  | _, [] => []
  | start, b :: bs => (start, b) :: cellsFrom (start + 1) bs

/-- Write the bits `bs` at indices `start ..`, and change no other bit. -/
def Memory.write (start : Nat) (bs : Bits) (m : Memory) : Memory :=
  m.filter (fun c => c.1 < start) ++ cellsFrom start bs ++ m.filter (fun c => start + bs.length ≤ c.1)

/-- The bit at an index if it has been written since reset. -/
def Memory.bit? (i : Nat) (m : Memory) : Option Bool := m.lookup i

/-- `IBUF[i]`; a bit not written since reset is a draw (rule R39). -/
def State.ibufBit (s : State) (i : Nat) : Bool := (Memory.bit? i s.ibuf).getD (Config.ibufDraw s.resets i)

/-- `OBUF[i]`; a bit not written since reset is a draw (rule R39). -/
def State.obufBit (s : State) (i : Nat) : Bool := (Memory.bit? i s.obuf).getD (Config.obufDraw s.resets i)

/-! ### Register updates -/

def State.setStatus (v : Word) (s : State) : State := { s with status := v }
def State.setIlen (v : Word) (s : State) : State := { s with ilen := v }
def State.setOlen (v : Word) (s : State) : State := { s with olen := v }
def State.setResult (v : Word) (s : State) : State := { s with result := v }
def State.setAux0 (v : Word) (s : State) : State := { s with aux0 := v }
def State.setAux1 (v : Word) (s : State) : State := { s with aux1 := v }
def State.setIbuf (m : Memory) (s : State) : State := { s with ibuf := m }
def State.setObuf (m : Memory) (s : State) : State := { s with obuf := m }
def State.setUnits (us : Vector CrcUnit Config.nCrc) (s : State) : State := { s with units := us }
def State.setPending (es : List HostEvent) (s : State) : State := { s with pending := es }
def State.setReply (r : BusReply) (s : State) : State := { s with reply := r }

/-- CRC unit `u` (rule R23). -/
def State.crcUnit (s : State) (u : UnitId) : CrcUnit := s.units.get u

/-- Write CRC unit `u`, and no other unit. -/
def State.setUnit (u : UnitId) (c : CrcUnit) (s : State) : State := s.setUnits (s.units.set u c)

/-- Bit output: `OBUF[0 .. len) <- bs` and `OLEN <- len`; `OBUF[OLEN .. OBUF_BITS)` is unchanged (rule R22). -/
def State.setOutput (bs : Bits) (s : State) : State :=
  (s.setObuf (Memory.write 0 bs s.obuf)).setOlen (BitVec.ofNat 32 bs.length)

/-! ### The two ways a command ends (rule R157) -/

/-- `return ok(b)`: the command's writes stand, and STATUS reports `b` (rules R11, R157). -/
def complete (b : Bool) (s : State) : Outcome := .next (s.setStatus (completedStatus b s.status))

/-- `raise Error(code)`: "STATUS.OK <- 0; STATUS.ERR <- code; STATUS.STICKY <- 1; OLEN <- 0; RESULT <- 0", and
nothing else is written (rule R160). There is no return from an error: CORE transfers no control (rule R163). -/
def raiseError (e : ErrorCode) (s : State) : Outcome :=
  .next (((s.setStatus (errorStatus e)).setOlen 0).setResult 0)

end Sys2Proof.Machine
end

