-- ==== Sys2Proof/Machine/Operands.lean ====
section
/-! DEFINITION. The operands a command reads from state (rule R67): the input bits, the mask, the expected value and the
configuration of a CRC unit. -/

namespace Sys2Proof.Machine

/-- ILEN as a number (rule R16). -/
def State.inputLength (s : State) : Nat := s.ilen.toNat

/-- The input bit sequence `IBUF[0 .. ILEN)` (rule R16). -/
def State.input (s : State) : Bits := (List.range s.inputLength).map s.ibufBit

/-- `ILEN > IBUF_BITS` (rule R16). -/
def State.inputTooLong (s : State) : Bool := decide (Config.ibufBits < s.inputLength)

/-- The mask operand AUX0 (rule R19). -/
def State.maskOperand (s : State) : Word := s.aux0

/-- The expected-value operand AUX1 (rule R20). -/
def State.expectedOperand (s : State) : Word := s.aux1

end Sys2Proof.Machine
end

