-- ==== Sys2Proof/Machine/BitMatrix.lean ====
section
/-! DEFINITION. The BitMatrixCode unit: code descriptors (rules R70, R71, R82 to R90), its functions (rules R73 to R77)
and the four BMC commands (rules R78 to R81). -/

namespace Sys2Proof.Machine

/-- A code descriptor `(n, k, d, G)` (rule R70). -/
structure CodeDesc where
  /-- The codeword length. -/
  n : Nat
  /-- The data dimension. -/
  k : Nat
  /-- The minimum distance; no rule reads it. -/
  d : Nat
  /-- The generator matrix: entry (row, column). -/
  G : Nat → Nat → Nat

/-! ### Derived matrices (rules R70, R71, R77) -/

/-- `m = n − k`. -/
def CodeDesc.m (D : CodeDesc) : Nat := D.n - D.k

/-- The effective generator: `G[i][j] mod 2` as a bit. -/
def CodeDesc.gHat (D : CodeDesc) (i j : Nat) : Bool := D.G i j % 2 == 1

/-- The parity part `P[i][j] = Ĝ[i][k + j]`. -/
def CodeDesc.P (D : CodeDesc) (i j : Nat) : Bool := D.gHat i (D.k + j)

/-- The parity-check matrix `H = [Pᵀ | I_m]` (rule R71). -/
def CodeDesc.H (D : CodeDesc) (j i : Nat) : Bool := if i < D.k then D.P i j else i - D.k == j

/-- Column `h_i` of H, an m-bit sequence (rule R71). -/
def CodeDesc.column (D : CodeDesc) (i : Nat) : Bits := (List.range D.m).map fun j => D.H j i

/-! ### Functions (rules R73 to R76) -/

/-- `syndrome(w)`: `s[j] = (Σ_{i<n} H[j][i]·w[i]) mod 2` (rule R73). -/
def syndrome (D : CodeDesc) (w : Bits) : Bits :=
  (List.range D.m).map fun j => parity ((List.range D.n).map fun i => D.H j i && w.getD i false)

/-- `check(w)`: the syndrome is all zero (rule R74). -/
def check (D : CodeDesc) (w : Bits) : Bool := allZero (syndrome D w)

/-- `w` with bit `i` flipped. -/
def flipBit (w : Bits) (i : Nat) : Bits := w.set i (!w.getD i false)

/-- What check_and_correct returns (rule R75): ok, the word, the flipped index. -/
structure Correction where
  ok : Bool
  word : Bits
  flip : Option Nat
deriving DecidableEq, Repr

/-- `check_and_correct(w)`: a zero syndrome flips nothing, else the lowest column equal to the syndrome is flipped, else
the word stays as it is (rule R75). -/
def checkAndCorrect (D : CodeDesc) (w : Bits) : Correction :=
  if check D w then ⟨true, w, none⟩
  else
    match (List.range D.n).find? fun i => D.column i == syndrome D w with
    | some i => ⟨true, flipBit w i, some i⟩
    | none => ⟨false, w, none⟩

/-- `generate(x)`: `c[j] = (Σ_{i<k} Ĝ[i][j]·x[i]) mod 2` (rule R76). -/
def generate (D : CodeDesc) (x : Bits) : Bits :=
  (List.range D.n).map fun j => parity ((List.range D.k).map fun i => D.gHat i j && x.getD i false)

/-! ### The descriptor ROM (rules R82 to R90) -/

/-- The systematic descriptor `G = [I_k | P]`. -/
def systematic (n k d : Nat) (P : Nat → Nat → Nat) : CodeDesc :=
  { n, k, d, G := fun i j => if j < k then (if i = j then 1 else 0) else P i (j - k) }

/-- A parity matrix written as its rows x0, x1, … -/
def rowsMatrix (rows : List (List Nat)) (i j : Nat) : Nat := (rows.getD i []).getD j 0

/-- P of HAM743 (rule R83). -/
def pHam743 : List (List Nat) := [[1, 0, 1], [1, 1, 1], [1, 1, 0], [0, 1, 1]]

/-- P of HAM1393 (rule R84). -/
def pHam1393 : List (List Nat) :=
  [[1, 1, 1, 1], [1, 1, 1, 0], [0, 1, 1, 1], [1, 0, 1, 0], [0, 1, 0, 1], [1, 0, 1, 1], [1, 1, 0, 0], [0, 1, 1, 0],
   [0, 0, 1, 1]]

/-- P of HAM15113 (rule R85). -/
def pHam15113 : List (List Nat) :=
  [[1, 0, 0, 1], [1, 1, 0, 1], [1, 1, 1, 1], [1, 1, 1, 0], [0, 1, 1, 1], [1, 0, 1, 0], [0, 1, 0, 1], [1, 0, 1, 1],
   [1, 1, 0, 0], [0, 1, 1, 0], [0, 0, 1, 1]]

/-- P of HAM16114 (rule R86). -/
def pHam16114 : List (List Nat) :=
  [[1, 0, 0, 1, 1], [1, 1, 0, 1, 0], [1, 1, 1, 1, 1], [1, 1, 1, 0, 0], [0, 1, 1, 1, 0], [1, 0, 1, 0, 1],
   [0, 1, 0, 1, 1], [1, 0, 1, 1, 0], [1, 1, 0, 0, 1], [0, 1, 1, 0, 1], [0, 0, 1, 1, 1]]

/-- P of HAM17123 (rule R87). -/
def pHam17123 : List (List Nat) :=
  [[1, 1, 0, 1, 1], [1, 1, 1, 1, 1], [1, 1, 1, 0, 1], [1, 1, 1, 0, 0], [0, 1, 1, 1, 0], [0, 0, 1, 1, 1],
   [1, 0, 0, 0, 1], [1, 1, 0, 1, 0], [0, 1, 1, 0, 1], [1, 0, 1, 0, 0], [0, 1, 0, 1, 0], [0, 0, 1, 0, 1]]

/-- The descriptor of each code (rule R82). -/
def codeDesc : Code → CodeDesc
  | .ham743 => systematic 7 4 3 (rowsMatrix pHam743)
  | .ham1393 => systematic 13 9 3 (rowsMatrix pHam1393)
  | .ham15113 => systematic 15 11 3 (rowsMatrix pHam15113)
  | .ham16114 => systematic 16 11 4 (rowsMatrix pHam16114)
  | .ham17123 => systematic 17 12 3 (rowsMatrix pHam17123)
  | .golay2087 => systematic 20 8 7 fun i j => (Config.pGolay2087 i j).toNat
  | .qr1676 => systematic 16 7 6 fun i j => (Config.pQr1676 i j).toNat
  | .rs1294 => { n := 12, k := 9, d := 4, G := fun i j => (Config.gRs1294 i j).toNat }

/-! ### Commands (rules R78 to R81) -/

/-- RESULT of BMC.COR: "flip if flip != none else 0xFFFFFFFF" (rule R80). -/
def flipResult : Option Nat → Word
  | some i => BitVec.ofNat 32 i
  | none => 0xFFFFFFFF#32

/-- BMC.SYN (rule R78). -/
def execBmcSyn (c : Code) (s : State) : Outcome :=
  if s.inputLength ≠ (codeDesc c).n then raiseError .length s
  else
    let syn := syndrome (codeDesc c) s.input
    complete (allZero syn) ((s.setOutput syn).setResult (wordOf syn))

/-- BMC.CHK (rule R79). -/
def execBmcChk (c : Code) (s : State) : Outcome :=
  if s.inputLength ≠ (codeDesc c).n then raiseError .length s
  else complete (check (codeDesc c) s.input) ((s.setOlen 0).setResult 0)

/-- BMC.COR (rule R80). -/
def execBmcCor (c : Code) (s : State) : Outcome :=
  if s.inputLength ≠ (codeDesc c).n then raiseError .length s
  else
    let r := checkAndCorrect (codeDesc c) s.input
    complete r.ok ((s.setOutput r.word).setResult (flipResult r.flip))

/-- BMC.GEN (rule R81). -/
def execBmcGen (c : Code) (s : State) : Outcome :=
  if s.inputLength ≠ (codeDesc c).k then raiseError .length s
  else complete true ((s.setOutput (generate (codeDesc c) s.input)).setResult 0)

end Sys2Proof.Machine
end

