-- ==== Sys2Proof/Machine/Crc.lean ====
section
/-! DEFINITION. The CRC register engines: the engine (rules R132 to R140), the presets (rules R141 to R148) and the seven
CRC commands (rules R149 to R155). -/

namespace Sys2Proof.Machine

/-! ### The engine (rules R133 to R140) -/

/-- The bit step `step_W,Q(A, b)` (rule R133). -/
def crcStep (W : Nat) (Q A : Word) (b : Bool) : Word :=
  let fb := A.getLsbD (W - 1) ^^ b
  let A' := (A <<< 1) &&& maskW W
  if fb then A' ^^^ Q else A'

/-- Input reflection: the bits of each byte reversed when REFIN = 1 (rule R134). -/
def reflectInput (refin : Bool) (x : Bits) : Bits :=
  if refin then gather x ((List.range x.length).map fun i => 8 * (i / 8) + (7 - i % 8)) else x

/-- The serial update of an already reflected sequence, one bit at a time (rule R135). -/
def updateSerial (W : Nat) (Q A : Word) (x : Bits) : Word := x.foldl (crcStep W Q) A

/-- The lookup table `T_W,Q[v]`: W zero-bit steps from `v` (rule R136). -/
def crcTable (W : Nat) (Q v : Word) : Word := updateSerial W Q v (List.replicate W false)

/-- `count` full W-bit chunks through the table, then the remaining bits serially (rule R137). -/
def tableChunks (W : Nat) (Q : Word) : Nat → Word → Bits → Word
  | 0, A, x => updateSerial W Q A x
  | count + 1, A, x => tableChunks W Q count (crcTable W Q (A ^^^ wordOf (x.take W))) (x.drop W)

/-- The table update of an already reflected sequence: `⌊len/W⌋` full chunks and a remainder (rule R137). -/
def updateTable (W : Nat) (Q A : Word) (x : Bits) : Word := tableChunks W Q (x.length / W) A x

/-- `digest(A)` (rule R139). -/
def digest (W : Nat) (refout : Bool) (xorout A : Word) : Word :=
  (if refout then revW W A else A) ^^^ (xorout &&& maskW W)

/-! ### Presets (rules R141 to R148) -/

/-- The fields of a named configuration (rule R141). -/
structure CrcParams where
  width : Nat
  poly : Word
  init : Word
  xorout : Word
  refin : Bool
  refout : Bool
deriving DecidableEq, Repr

/-- The preset ROM (rule R141). -/
def presetParams : Preset → CrcParams
  | .crc7 => ⟨7, 0x09#32, 0#32, 0#32, false, false⟩
  | .crc8 => ⟨8, 0x9B#32, 0#32, 0#32, false, false⟩
  | .crc9 => ⟨9, 0x059#32, 0#32, 0x1FF#32, false, false⟩
  | .crc16 => ⟨16, 0x1021#32, 0#32, 0xFFFF#32, false, false⟩
  | .crc32 => ⟨32, 0x04C11DB7#32, 0xFFFFFFFF#32, 0xFFFFFFFF#32, true, true⟩

/-- The input length rule of a preset (rules R141 to R146). -/
def presetLengthOk : Preset → Nat → Bool
  | .crc7, len => len % 7 == 0
  | .crc8, len => len % 8 == 0
  | .crc9, len => decide (7 ≤ len)
  | .crc16, len => len % 8 == 0
  | .crc32, len => len % 16 == 0

/-- Byte `2i` and byte `2i + 1` exchanged, for every i (rule R146). -/
def swapBytePairs (x : Bits) : Bits :=
  gather x ((List.range x.length).map fun i => 16 * (i / 16) + (i % 16 + 8) % 16)

/-- The digest of a sequence under a named configuration, before the wrapper. -/
def presetDigest (c : CrcParams) (x : Bits) : Word :=
  digest c.width c.refout c.xorout (updateSerial c.width c.poly c.init (reflectInput c.refin x))

/-- `calc_P(x, mask)` on a sequence of a legal length: the wrapper of each preset around its digest (rules R142 to R146). -/
def presetValue (p : Preset) (x : Bits) (mask : Word) : Word :=
  match p with
  | .crc7 => presetDigest (presetParams .crc7) x ^^^ (mask &&& 0x7F#32)
  | .crc8 => presetDigest (presetParams .crc8) x
  | .crc9 => presetDigest (presetParams .crc9) x ^^^ (mask &&& 0x1FF#32)
  | .crc16 => presetDigest (presetParams .crc16) x ^^^ (mask &&& 0xFFFF#32)
  | .crc32 => presetDigest (presetParams .crc32) (swapBytePairs x)

/-- `calculate_P(x, mask)`; none is the LENGTH error (rule R147). -/
def calculate (p : Preset) (x : Bits) (mask : Word) : Option Word :=
  if presetLengthOk p x.length then some (presetValue p x mask) else none

/-- `verify_P(x, mask, e)` for a computed value: equality of 32 bits (rule R148). -/
def verify (value expected : Word) : Bool := value == expected

/-- `crc8f(x)`: the CRC-8 engine over a sequence of any length, from 0, as 8 bits (rule R102). -/
def crc8Field (x : Bits) : Bits := bitsOf 8 (updateSerial 8 0x9B#32 0#32 x).toNat

/-! ### A unit's configuration as the engine uses it (rules R24, R25) -/

/-- W of a unit (rule R27). -/
def CrcUnit.width (c : CrcUnit) : Nat := widthOf c.cfg

/-- `Q = POLY & mask_W` (rules R25, R133). -/
def CrcUnit.q (c : CrcUnit) : Word := c.poly &&& maskW c.width

/-- The accumulator after the input x, by the engine mode of CFG (rules R135, R137, R151). -/
def CrcUnit.updated (c : CrcUnit) (x : Bits) : Word :=
  if modeOf c.cfg then updateTable c.width c.q c.acc (reflectInput (refinOf c.cfg) x)
  else updateSerial c.width c.q c.acc (reflectInput (refinOf c.cfg) x)

/-- The digest of a unit (rule R139). -/
def CrcUnit.digest (c : CrcUnit) : Word := Machine.digest c.width (refoutOf c.cfg) c.xorout c.acc

/-- A unit with a preset loaded: MODE and ACC kept, LIFE 0 (rule R149). -/
def CrcUnit.configured (p : CrcParams) (c : CrcUnit) : CrcUnit :=
  { cfg := cfgWord p.width p.refin p.refout (modeOf c.cfg) false
    poly := p.poly, init := p.init, xorout := p.xorout, acc := c.acc }

/-- A unit after CRC.INIT: `ACC <- INIT & mask_W`, LIFE 1 (rule R150). -/
def CrcUnit.initialised (c : CrcUnit) : CrcUnit :=
  { c with cfg := withLife true c.cfg, acc := c.init &&& maskW c.width }

/-- A unit with another accumulator. -/
def CrcUnit.withAcc (a : Word) (c : CrcUnit) : CrcUnit := { c with acc := a }

/-! ### Commands (rules R149 to R155) -/

/-- How every CRC command completes: `OLEN <- 0`, RESULT, OK (decision D48). -/
def crcComplete (b : Bool) (result : Word) (s : State) : Outcome :=
  complete b ((s.setOlen 0).setResult result)

/-- CRC.CFG (rule R149). -/
def execCrcCfg (p : Preset) (u : UnitId) (s : State) : Outcome :=
  crcComplete true 0 (s.setUnit u ((s.crcUnit u).configured (presetParams p)))

/-- CRC.INIT (rule R150). -/
def execCrcInit (u : UnitId) (s : State) : Outcome :=
  if 1 ≤ (s.crcUnit u).width ∧ (s.crcUnit u).width ≤ 32 then
    crcComplete true (s.crcUnit u).initialised.acc (s.setUnit u (s.crcUnit u).initialised)
  else raiseError .config s

/-- CRC.UPD (rule R151). -/
def execCrcUpd (u : UnitId) (s : State) : Outcome :=
  if lifeOf (s.crcUnit u).cfg = false then raiseError .uninit s
  else if s.inputTooLong then raiseError .length s
  else if refinOf (s.crcUnit u).cfg ∧ s.inputLength % 8 ≠ 0 then raiseError .length s
  else
    let a := (s.crcUnit u).updated s.input
    crcComplete true a (s.setUnit u ((s.crcUnit u).withAcc a))

/-- CRC.DIG (rule R152). -/
def execCrcDig (u : UnitId) (s : State) : Outcome :=
  if lifeOf (s.crcUnit u).cfg = false then raiseError .uninit s
  else crcComplete true (s.crcUnit u).digest s

/-- CRC.REV (rule R153). -/
def execCrcRev (u : UnitId) (s : State) : Outcome :=
  if lifeOf (s.crcUnit u).cfg = false then raiseError .uninit s
  else
    let a := revW (s.crcUnit u).width (s.crcUnit u).acc
    crcComplete true a (s.setUnit u ((s.crcUnit u).withAcc a))

/-- CRC.CALC (rule R154). -/
def execCrcCalc (p : Preset) (s : State) : Outcome :=
  if s.inputTooLong then raiseError .length s
  else
    match calculate p s.input s.maskOperand with
    | none => raiseError .length s
    | some v => crcComplete true v s

/-- CRC.VER (rule R155). -/
def execCrcVer (p : Preset) (s : State) : Outcome :=
  if s.inputTooLong then raiseError .length s
  else
    match calculate p s.input s.maskOperand with
    | none => raiseError .length s
    | some v => crcComplete (verify v s.expectedOperand) v s

end Sys2Proof.Machine
end

