-- ==== Sys2Proof/Machine/ProductCode.lean ====
section
/-! DEFINITION. The product-code interleaver: the variant record (rules R93, R94), the generic functions (rules R95 to
R103), the four variants (rules R104 to R109) and the four PC commands (rules R110 to R113). -/

namespace Sys2Proof.Machine

/-- The class of a logical index (rule R94). -/
inductive CellClass where
  | data | rowFec | colFec | colPar | special | reserved
deriving DecidableEq, Repr

/-- The column code: a BMC descriptor or even parity (rule R93). -/
inductive ColumnCode where
  | bmc (c : Code)
  | evenParity
deriving DecidableEq, Repr

/-- A variant record (rule R93). -/
structure VariantDesc where
  /-- The number of on-air bits. -/
  N : Nat
  /-- Rows of the table. -/
  R : Nat
  /-- Columns of the table. -/
  C : Nat
  /-- The number of data bits. -/
  D : Nat
  /-- The number of special-field bits. -/
  S : Nat
  /-- The interleaved position of a logical index. -/
  il : Nat → Nat
  /-- The table cell of a logical index, where it has one. -/
  cell : Nat → Option (Nat × Nat)
  /-- The logical index of a cell (rule R97). -/
  lof : Nat → Nat → Nat
  /-- The class of a logical index. -/
  cls : Nat → CellClass
  /-- The corrected rows, ascending. -/
  rows : List Nat
  rowCode : Code
  colCode : ColumnCode
  /-- `specialvalue_V(d)` (rule R103). -/
  specialValue : Bits → Bits

/-! ### Index lists of a variant -/

/-- `IL_V(0), …, IL_V(N − 1)`. -/
def VariantDesc.ilList (V : VariantDesc) : List Nat := (List.range V.N).map V.il

/-- `DATA_V`: the DATA cells in ascending order (rule R94). -/
def VariantDesc.dataCells (V : VariantDesc) : List Nat := (List.range V.N).filter fun L => V.cls L == .data

/-- `SPEC_V`: the SPECIAL cells in ascending order (rule R94). -/
def VariantDesc.specialCells (V : VariantDesc) : List Nat := (List.range V.N).filter fun L => V.cls L == .special

/-- The logical indices of row r, column 0 first (rule R98). -/
def VariantDesc.rowCells (V : VariantDesc) (r : Nat) : List Nat := (List.range V.C).map fun c => V.lof r c

/-- The logical indices of column c, row 0 first (rule R98). -/
def VariantDesc.colCells (V : VariantDesc) (c : Nat) : List Nat := (List.range V.R).map fun r => V.lof r c

/-! ### Generic functions (rules R95 to R103) -/

/-- `T[L] = y[IL_V(L)]` (rule R95). -/
def deinterleave (V : VariantDesc) (y : Bits) : Bits := gather y V.ilList

/-- `y[IL_V(L)] = T[L]` (rule R96). -/
def interleave (V : VariantDesc) (T : Bits) : Bits := scatter (List.replicate V.N false) V.ilList T

/-- What repair carries and returns (rule R99): ok, the bits, the count of flips. -/
structure Repair where
  ok : Bool
  bits : Bits
  flips : Nat
deriving DecidableEq, Repr

/-- One correction attempt: check_and_correct on the bits of a logical table at `idx`, written back (rules R98, R99). -/
def correctCells (D : CodeDesc) (idx : List Nat) (a : Repair) : Repair :=
  let r := checkAndCorrect D (gather a.bits idx)
  { ok := a.ok && r.ok, bits := scatter a.bits idx r.word, flips := a.flips + (if r.flip.isSome then 1 else 0) }

/-- One column of the column pass (rule R99): a correction attempt, or the even-parity check. -/
def columnAttempt (V : VariantDesc) (c : Nat) (a : Repair) : Repair :=
  match V.colCode with
  | .bmc code => correctCells (codeDesc code) (V.colCells c) a
  | .evenParity => { a with ok := a.ok && !parity (gather a.bits (V.colCells c)) }

/-- The row pass over the corrected rows (rule R99). -/
def rowPass (V : VariantDesc) (a : Repair) : Repair :=
  V.rows.foldl (fun a r => correctCells (codeDesc V.rowCode) (V.rowCells r) a) a

/-- The column pass over every column (rule R99). -/
def columnPass (V : VariantDesc) (a : Repair) : Repair :=
  (List.range V.C).foldl (fun a c => columnAttempt V c a) a

/-- `repair(V, y)`: on-air order in and out (rule R99). -/
def repair (V : VariantDesc) (y : Bits) : Repair :=
  let a := columnPass V (rowPass V { ok := true, bits := deinterleave V y, flips := 0 })
  { a with bits := interleave V a.bits }

/-- `data(V, T)` (rule R100). -/
def dataBits (V : VariantDesc) (T : Bits) : Bits := gather T V.dataCells

/-- `special(V, T)` (rule R100). -/
def specialBits (V : VariantDesc) (T : Bits) : Bits := gather T V.specialCells

/-- `cs5(x)`: the sum of the nine bytes mod 31 (rule R101). -/
def cs5 (x : Bits) : Nat := ((List.range 9).map fun j => intOf ((x.drop (8 * j)).take 8)).sum % 31

/-- The two fields encode works on, from an input of one of the three legal lengths (rule R103). -/
def encodeFields (V : VariantDesc) (x : Bits) : Option (Bits × Bits) :=
  if x.length = V.D then some (x, V.specialValue x)
  else if 0 < V.S ∧ x.length = V.D + V.S then some (x.take V.D, x.drop V.D)
  else if x.length = V.N then some (dataBits V x, specialBits V x)
  else none

/-- The table with data and special bits filled in, every other slot 0 (rule R103). -/
def filledTable (V : VariantDesc) (d sp : Bits) : Bits :=
  scatter (scatter (List.replicate V.N false) V.dataCells d) V.specialCells sp

/-- A generated codeword written over `idx` from its first k bits (rule R103). -/
def generateCells (D : CodeDesc) (idx : List Nat) (T : Bits) : Bits :=
  scatter T idx (generate D ((gather T idx).take D.k))

/-- The column FEC or parity bit of one column (rule R103). -/
def encodeColumn (V : VariantDesc) (c : Nat) (T : Bits) : Bits :=
  match V.colCode with
  | .bmc code => generateCells (codeDesc code) (V.colCells c) T
  | .evenParity => T.set (V.lof (V.R - 1) c) (parity ((gather T (V.colCells c)).take (V.R - 1)))

/-- Row FEC of every corrected row (rule R103). -/
def encodeRows (V : VariantDesc) (T : Bits) : Bits :=
  V.rows.foldl (fun T r => generateCells (codeDesc V.rowCode) (V.rowCells r) T) T

/-- Column FEC or parity of every column (rule R103). -/
def encodeColumns (V : VariantDesc) (T : Bits) : Bits :=
  (List.range V.C).foldl (fun T c => encodeColumn V c T) T

/-- `encode(V, x)`; none is the LENGTH error (rule R103). -/
def encodeProduct (V : VariantDesc) (x : Bits) : Option Bits :=
  (encodeFields V x).map fun f => interleave V (encodeColumns V (encodeRows V (filledTable V f.1 f.2)))

/-! ### The four variants (rules R104 to R108) -/

/-- BPTC19696 (rules R104, R105). L = 0 has no cell. -/
def bptc19696 : VariantDesc where
  N := 196
  R := 13
  C := 15
  D := 96
  S := 0
  il L := (181 * L) % 196
  cell L := if 1 ≤ L ∧ L ≤ 195 then some ((L - 1) / 15, (L - 1) % 15) else none
  lof r c := 1 + 15 * r + c
  cls L :=
    if L ≤ 3 then .reserved
    else if 135 < L then .colFec
    else if (L - 1) % 15 ≤ 10 then .data
    else .rowFec
  rows := List.range 9
  rowCode := .ham15113
  colCode := .bmc .ham1393
  specialValue _ := []

/-- VBPTC12873 (rule R106). -/
def vbptc12873 : VariantDesc where
  N := 128
  R := 8
  C := 16
  D := 72
  S := 5
  il L := 8 * (L % 16) + L / 16
  cell L := if L < 128 then some (L / 16, L % 16) else none
  lof r c := 16 * r + c
  cls L :=
    if 112 ≤ L then .colPar
    else if 11 ≤ L % 16 then .rowFec
    else if 2 ≤ L / 16 ∧ L % 16 = 10 then .special
    else .data
  rows := List.range 7
  rowCode := .ham16114
  colCode := .evenParity
  specialValue d := bitsOf 5 (cs5 d)

/-- VBPTC3211 over an interleave (rule R107). -/
def vbptc3211With (il : Nat → Nat) : VariantDesc where
  N := 32
  R := 2
  C := 16
  D := 11
  S := 0
  il := il
  cell L := if L < 32 then some (L / 16, L % 16) else none
  lof r c := 16 * r + c
  cls L := if 16 ≤ L then .colPar else if 11 ≤ L then .rowFec else .data
  rows := List.range 1
  rowCode := .ham16114
  colCode := .evenParity
  specialValue _ := []

/-- The OPEN interleave of VBPTC3211 as a map of indices (rule R107). -/
def ilVbptc3211 (L : Nat) : Nat := if h : L < 32 then (Config.ilVbptc3211 ⟨L, h⟩).val else L

/-- VBPTC6828 (rule R108). -/
def vbptc6828 : VariantDesc where
  N := 68
  R := 4
  C := 17
  D := 28
  S := 8
  il L := 4 * (L % 17) + L / 17
  cell L := if L < 68 then some (L / 17, L % 17) else none
  lof r c := 17 * r + c
  cls L :=
    if 51 ≤ L then .colPar
    else if 12 ≤ L % 17 then .rowFec
    else if 38 ≤ L then .special
    else .data
  rows := List.range 3
  rowCode := .ham17123
  colCode := .evenParity
  specialValue d := crc8Field d

/-- The record of each variant (rule R31). -/
def variantDesc : Variant → VariantDesc
  | .bptc19696 => bptc19696
  | .vbptc12873 => vbptc12873
  | .vbptc3211 => vbptc3211With ilVbptc3211
  | .vbptc6828 => vbptc6828

/-! ### Commands (rules R110 to R113) -/

/-- PC.DIA (rule R110). -/
def execPcDia (v : Variant) (s : State) : Outcome :=
  if s.inputLength ≠ (variantDesc v).N then raiseError .length s
  else complete true ((s.setOutput (deinterleave (variantDesc v) s.input)).setResult 0)

/-- PC.DID (rule R111). -/
def execPcDid (v : Variant) (wantRepair wantSpecial : Bool) (s : State) : Outcome :=
  let V := variantDesc v
  if s.inputLength ≠ V.N then raiseError .length s
  else
    let a := if wantRepair then repair V s.input else { ok := true, bits := s.input, flips := 0 }
    let T := deinterleave V a.bits
    let out := dataBits V T ++ (if wantSpecial then specialBits V T else [])
    complete a.ok ((s.setOutput out).setResult (BitVec.ofNat 32 a.flips))

/-- PC.REP (rule R112). -/
def execPcRep (v : Variant) (s : State) : Outcome :=
  if s.inputLength ≠ (variantDesc v).N then raiseError .length s
  else
    let a := repair (variantDesc v) s.input
    complete a.ok ((s.setOutput a.bits).setResult (BitVec.ofNat 32 a.flips))

/-- PC.ENC (rule R113). An input longer than any of the three forms is refused before it is read. -/
def execPcEnc (v : Variant) (s : State) : Outcome :=
  if s.inputTooLong then raiseError .length s
  else
    match encodeProduct (variantDesc v) s.input with
    | none => raiseError .length s
    | some y => complete true ((s.setOutput y).setResult 0)

end Sys2Proof.Machine
end

