-- ==== Sys2Proof/Machine/Trellis.lean ====
section
/-! DEFINITION. The Trellis34 unit: its four tables and stages (rules R116 to R126), decode and encode (rules R127, R128)
and the two TR commands (rules R129, R130). -/

namespace Sys2Proof.Machine

/-- The four signed dibit values +3, +1, −1, −3 (rule R116). -/
inductive Dibit where
  | p3 | p1 | m1 | m3
deriving DecidableEq, Repr, Inhabited

/-- The value of a dibit. -/
def Dibit.value : Dibit → Int
  | .p3 => 3
  | .p1 => 1
  | .m1 => -1
  | .m3 => -3

/-- `DIBIT`: a bit pair to its dibit (rule R116). -/
def dibitOf (a b : Bool) : Dibit :=
  match a, b with
  | false, true => .p3
  | false, false => .p1
  | true, false => .m1
  | true, true => .m3

/-- `DIBIT⁻¹` (rule R117). -/
def dibitBits : Dibit → Bits
  | .p3 => [false, true]
  | .p1 => [false, false]
  | .m1 => [true, false]
  | .m3 => [true, true]

/-- `δ[i] = DIBIT(b[2i], b[2i+1])` (rule R116). -/
def bitsToDibits : Bits → List Dibit
  | a :: b :: rest => dibitOf a b :: bitsToDibits rest
  | [_] => []
  | [] => []

/-- `(c[2i], c[2i+1]) = DIBIT⁻¹(δ[i])` (rule R117). -/
def dibitsToBits (ds : List Dibit) : Bits := ds.flatMap dibitBits

/-- `TIL`, the 98-entry dibit interleave table (rule R118). -/
def til : List Nat :=
  [0, 1, 8, 9, 16, 17, 24, 25, 32, 33, 40, 41, 48, 49, 56, 57, 64, 65, 72, 73, 80, 81, 88, 89, 96, 97] ++
  [2, 3, 10, 11, 18, 19, 26, 27, 34, 35, 42, 43, 50, 51, 58, 59, 66, 67, 74, 75, 82, 83, 90, 91] ++
  [4, 5, 12, 13, 20, 21, 28, 29, 36, 37, 44, 45, 52, 53, 60, 61, 68, 69, 76, 77, 84, 85, 92, 93] ++
  [6, 7, 14, 15, 22, 23, 30, 31, 38, 39, 46, 47, 54, 55, 62, 63, 70, 71, 78, 79, 86, 87, 94, 95]

/-- `δ'[TIL[i]] <- δ[i]` (rule R118). -/
def deinterleaveDibits (ds : List Dibit) : List Dibit := scatter (List.replicate 98 default) til ds

/-- `δ[i] <- δ'[TIL[i]]` (rule R119). -/
def interleaveDibits (ds : List Dibit) : List Dibit := gather ds til

/-- `CPT`, the dibit pair of each constellation point 0..15 (rule R120). -/
def cpt : List (Dibit × Dibit) :=
  [(.p1, .m1), (.m1, .m1), (.p3, .m3), (.m3, .m3), (.m3, .m1), (.p3, .m1), (.m1, .m3), (.p1, .m3)] ++
  [(.m3, .p3), (.p3, .p3), (.m1, .p1), (.p1, .p1), (.p1, .p3), (.m1, .p3), (.p3, .p1), (.m3, .p1)]

/-- `CPT⁻¹`: the point of a dibit pair (rule R121). -/
def pointOf (a b : Dibit) : Nat := cpt.idxOf (a, b)

/-- `dibits_to_points` (rule R121). -/
def dibitsToPoints : List Dibit → List Nat
  | a :: b :: rest => pointOf a b :: dibitsToPoints rest
  | [_] => []
  | [] => []

/-- The dibit pair of a point (rule R120). -/
def pointDibits (p : Nat) : List Dibit := [(cpt.getD p default).1, (cpt.getD p default).2]

/-- `points_to_dibits` (rule R121). -/
def pointsToDibits (ps : List Nat) : List Dibit := ps.flatMap pointDibits

/-- `TT`, the transition table: rows are states 0..7, columns tribits 0..7 (rule R122). -/
def transitionTable : List (List Nat) :=
  [[0, 8, 4, 12, 2, 10, 6, 14], [4, 12, 2, 10, 6, 14, 0, 8], [1, 9, 5, 13, 3, 11, 7, 15], [5, 13, 3, 11, 7, 15, 1, 9],
   [3, 11, 7, 15, 1, 9, 5, 13], [7, 15, 1, 9, 5, 13, 3, 11], [2, 10, 6, 14, 0, 8, 4, 12], [6, 14, 0, 8, 4, 12, 2, 10]]

/-- `TT[8·s + t]` (rule R122). -/
def transition (s t : Nat) : Nat := (transitionTable.getD s []).getD t 0

/-- The least tribit whose transition from state s is the point (rule R123). -/
def tribitOf (s point : Nat) : Option Nat := (List.range 8).find? fun t => transition s t == point

/-- The state machine of decode from state s: the tribits, or the index of the first point with no transition, counting
from j (rule R123). -/
def pointsToTribits (s j : Nat) : List Nat → Except Nat (List Nat)
  | [] => .ok []
  | p :: rest =>
    match tribitOf s p with
    | none => .error j
    | some t =>
      match pointsToTribits t (j + 1) rest with
      | .ok ts => .ok (t :: ts)
      | .error e => .error e

/-- The forward state machine from state s: "The table value is the point sent; the tribit is the next state" (R124). -/
def tribitsToPoints (s : Nat) : List Nat → List Nat
  | [] => []
  | t :: rest => transition s t :: tribitsToPoints t rest

/-- Three bits per tribit, the most significant first (rule R125). -/
def tribitsToBits (ts : List Nat) : Bits := ts.flatMap (bitsOf 3)

/-- The 48 tribits of 144 bits, and the zero 49th (rule R126). -/
def bitsToTribits (b : Bits) : List Nat :=
  ((List.range 48).map fun j => intOf ((b.drop (3 * j)).take 3)) ++ [0]

/-- `decode(b)`: 144 bits, or the index of a miss (rule R127). -/
def trellisDecode (b : Bits) : Except Nat Bits :=
  match pointsToTribits 0 0 (dibitsToPoints (deinterleaveDibits (bitsToDibits b))) with
  | .ok ts => .ok (tribitsToBits (ts.take 48))
  | .error j => .error j

/-- `encode(b)` (rule R128). -/
def trellisEncode (b : Bits) : Bits :=
  dibitsToBits (interleaveDibits (pointsToDibits (tribitsToPoints 0 (bitsToTribits b))))

/-! ### Commands (rules R129, R130) -/

/-- TR.DEC (rule R129). A miss is not an error: OK = 0, OBUF unchanged, RESULT the index. -/
def execTrDec (s : State) : Outcome :=
  if s.inputLength ≠ 196 then raiseError .length s
  else
    match trellisDecode s.input with
    | .error j => complete false ((s.setOlen 0).setResult (BitVec.ofNat 32 j))
    | .ok r => complete true ((s.setOutput r).setResult 0)

/-- TR.ENC (rule R130). -/
def execTrEnc (s : State) : Outcome :=
  if s.inputLength ≠ 144 then raiseError .length s
  else complete true ((s.setOutput (trellisEncode s.input)).setResult 0)

end Sys2Proof.Machine
end

