-- ==== Sys2Proof/Machine/Dispatch.lean ====
section
/-! DEFINITION. One arm per command of rule R59: the meaning of each. -/

namespace Sys2Proof.Machine

def exec (i : Instr) (s : State) : Host.Outcome State Fault Refusal :=
  match i with
  | .bmcSyn c => Sys2Proof.Machine.execBmcSyn c s
  | .bmcChk c => Sys2Proof.Machine.execBmcChk c s
  | .bmcCor c => Sys2Proof.Machine.execBmcCor c s
  | .bmcGen c => Sys2Proof.Machine.execBmcGen c s
  | .pcDia v => Sys2Proof.Machine.execPcDia v s
  | .pcDid v repair special => Sys2Proof.Machine.execPcDid v repair special s
  | .pcRep v => Sys2Proof.Machine.execPcRep v s
  | .pcEnc v => Sys2Proof.Machine.execPcEnc v s
  | .trDec => Sys2Proof.Machine.execTrDec s
  | .trEnc => Sys2Proof.Machine.execTrEnc s
  | .crcCfg p u => Sys2Proof.Machine.execCrcCfg p u s
  | .crcInit u => Sys2Proof.Machine.execCrcInit u s
  | .crcUpd u => Sys2Proof.Machine.execCrcUpd u s
  | .crcDig u => Sys2Proof.Machine.execCrcDig u s
  | .crcRev u => Sys2Proof.Machine.execCrcRev u s
  | .crcCalc p => Sys2Proof.Machine.execCrcCalc p s
  | .crcVer p => Sys2Proof.Machine.execCrcVer p s

end Sys2Proof.Machine
end

