-- ==== Sys2Proof/Machine/Bus.lean ====
section
/-! DEFINITION. The host bus window (rules R40 to R48), issuing a command by a write to CMD (rules R14, R65), and reset
(rule R167). -/

namespace Sys2Proof.Machine

/-- The registers of a CRC unit in the window (rule R47). -/
inductive UnitReg where
  | cfg | poly | init | xorout | acc
deriving DecidableEq, Repr

/-- What a 4-aligned offset of the window names (rules R42, R47). -/
inductive Target where
  | cmd | status | ilen | olen | result | aux0 | aux1
  | unitReg (u : UnitId) (r : UnitReg)
  /-- Word w of the IBUF window. -/
  | ibuf (w : Nat)
  /-- Word w of the OBUF window. -/
  | obuf (w : Nat)
  | reserved
deriving DecidableEq, Repr

/-- The register at an offset within a CRC unit's block (rule R47). -/
def unitTarget (u : UnitId) (off : Nat) : Target :=
  match off with
  | 0x00 => .unitReg u .cfg
  | 0x04 => .unitReg u .poly
  | 0x08 => .unitReg u .init
  | 0x0C => .unitReg u .xorout
  | 0x10 => .unitReg u .acc
  | _ => .reserved

/-- The register map (rule R42). -/
def targetOf (off : Offset) : Target :=
  let a := off.toNat
  if a = 0x000 then .cmd
  else if a = 0x004 then .status
  else if a = 0x008 then .ilen
  else if a = 0x00C then .olen
  else if a = 0x010 then .result
  else if a = 0x014 then .aux0
  else if a = 0x018 then .aux1
  else if 0x100 ≤ a then
    if h : (a - 0x100) / 0x20 < Config.nCrc then unitTarget ⟨(a - 0x100) / 0x20, h⟩ ((a - 0x100) % 0x20)
    else if 0x1000 ≤ a ∧ a < 0x1000 + Config.ibufBits / 8 then .ibuf ((a - 0x1000) / 4)
    else if 0x2000 ≤ a ∧ a < 0x2000 + Config.obufBits / 8 then .obuf ((a - 0x2000) / 4)
    else .reserved
  else .reserved

/-- A register of a CRC unit (rule R47). -/
def UnitReg.get : UnitReg → CrcUnit → Word
  | .cfg, c => c.cfg
  | .poly, c => c.poly
  | .init, c => c.init
  | .xorout, c => c.xorout
  | .acc, c => c.acc

/-- A unit after a host write (rules R24 to R26, R47, R48): the word is stored within the register's fields and LIFE
becomes 0, even if the stored value is unchanged; ACC is read-only. -/
def UnitReg.hostWrite (v : Word) : UnitReg → CrcUnit → CrcUnit
  | .cfg, c => { c with cfg := hostCfg v }
  | .poly, c => { c with cfg := withLife false c.cfg, poly := v }
  | .init, c => { c with cfg := withLife false c.cfg, init := v }
  | .xorout, c => { c with cfg := withLife false c.cfg, xorout := v }
  | .acc, c => c

/-- The word of a bit buffer: bit `31 − j` of word w is buffer bit `32w + j` (rules R44, R45). -/
def bufferWord (bit : Nat → Bool) (w : Nat) : Word := wordOf ((List.range 32).map fun j => bit (32 * w + j))

/-- A word read (rules R42 to R45, R47); it has no side effect (rule R48). -/
def readTarget (s : State) : Target → Word
  | .cmd => 0
  | .status => s.status
  | .ilen => s.ilen
  | .olen => s.olen
  | .result => s.result
  | .aux0 => s.aux0
  | .aux1 => s.aux1
  | .unitReg u r => r.get (s.crcUnit u)
  | .ibuf w => bufferWord s.ibufBit w
  | .obuf w => bufferWord s.obufBit w
  | .reserved => 0

/-- Issue the command word w: decode first; an illegal word ends with BAD_COMMAND (rules R14, R65, R66). -/
def issueCommand (w : Word) (s : State) : Outcome :=
  match decode w with
  | .ok i => exec i s
  | .error _ => raiseError .badCommand s

/-- A word write (rules R42 to R45, R47, R48): "Every other write is ignored". -/
def writeTarget (v : Word) (s : State) : Target → Outcome
  | .cmd => issueCommand v s
  | .status => .next s
  | .ilen => .next (s.setIlen v)
  | .olen => .next s
  | .result => .next s
  | .aux0 => .next (s.setAux0 v)
  | .aux1 => .next (s.setAux1 v)
  | .unitReg u r => .next (s.setUnit u (r.hostWrite v (s.crcUnit u)))
  | .ibuf w => .next (s.setIbuf (Memory.write (32 * w) (bitsOf 32 v.toNat) s.ibuf))
  | .obuf _ => .next s
  | .reserved => .next s

/-- An access CORE performs: 32 bits wide, at an offset that is a multiple of 4 (rule R41). -/
def performed (off : Offset) (size : Nat) : Bool := size == 4 && off.toNat % 4 == 0

/-- Reset by the platform (rule R167): the reset state with fresh draws; what the outside world does next stays. -/
def platformReset (s : State) : State :=
  { State.reset with pending := s.pending, resets := s.resets + 1 }

/-- One host event, already taken off `pending`; CORE answers it (rules R41, R48, R49, R166, R167). -/
def hostEvent (e : HostEvent) (s : State) : Outcome :=
  match e with
  | .read off size =>
    if performed off size then .next (s.setReply (.data (readTarget s (targetOf off)))) else .refused .busError
  | .write off size v =>
    if performed off size then writeTarget v (s.setReply .done) (targetOf off) else .refused .busError
  | .reset => .next (platformReset s)

/-- The oldest pending event; with none pending CORE "waits for host accesses" and nothing changes (rules R50, R168). -/
def takeEvent (s : State) : Outcome :=
  match s.pending with
  | [] => .next s
  | e :: rest => hostEvent e (s.setPending rest)

/-- The host's CMD write of a command word as the next event (rules R14, R42). -/
def placeCommand (w : Word) (s : State) : State := s.setPending (.write 0x000 4 w :: s.pending)

end Sys2Proof.Machine
end

