-- ==== Sys2Proof/Machine/Step.lean ====
section
/-! DEFINITION. One step of CORE: one host event. -/

namespace Sys2Proof.Machine

/-- One step: CORE takes the oldest pending host event and performs it whole (rules R49, R50). -/
def step (s : State) : Host.Outcome State Fault Refusal := takeEvent s

/-- `s` with the command word of `nbits` bits `w` as the host's next CMD write, so that the next step runs it. -/
def State.withFetchWord (s : State) (nbits w : Nat) : State := placeCommand (tableWord nbits w) s

end Sys2Proof.Machine
end

