-- ==== Sys2Proof/Safety.lean ====
section
/-! DEFINITION. The terms claims about CORE are stated in: the invariant of every reachable state, the STATUS words, what a
command leaves unchanged, and the sums and relations of the spec's rules written without the model's own loops. -/

namespace Sys2Proof.Machine

/-! ### The invariant -/

/-- A CRC unit of a reachable state: CFG's reserved bits are 0 (rule R24), and a unit that is ACCUMULATING has
`1 ≤ W ≤ 32` (rule R27) and an accumulator of W bits (rule R26). -/
structure UnitInv (c : CrcUnit) : Prop where
  cfg_reserved : c.cfg &&& 0x7FFFF8C0#32 = 0#32
  width_pos : lifeOf c.cfg = true → 1 ≤ widthOf c.cfg
  width_le : lifeOf c.cfg = true → widthOf c.cfg ≤ 32
  acc_lt : lifeOf c.cfg = true → c.acc.toNat < 2 ^ widthOf c.cfg

/-- What holds of every state CORE reaches. -/
structure Inv (s : State) : Prop where
  /-- The reserved bits of STATUS are 0 (rule R15). -/
  status_reserved : s.status &&& 0xFFFF7F0E#32 = 0#32
  /-- "5 .. 15 | reserved | never reported" (rule R158). -/
  err_legal : (errOf s.status).toNat ≤ 4
  /-- After an error OK is 0 and STICKY is 1 (rules R15, R160). -/
  err_flags : errOf s.status ≠ 0 → okOf s.status = false ∧ stickyOf s.status = true
  /-- After an error OLEN and RESULT are 0 (rules R17, R18, R160). -/
  err_results : errOf s.status ≠ 0 → s.olen = 0 ∧ s.result = 0
  /-- OLEN counts bits of OBUF (rule R17). -/
  olen_le : s.olen.toNat ≤ Config.obufBits
  ibuf_wf : Memory.wf Config.ibufBits s.ibuf = true
  obuf_wf : Memory.wf Config.obufBits s.obuf = true
  units_inv : ∀ u, UnitInv (s.crcUnit u)

/-- The host access is one CORE performs, or the event is a reset (rules R41, R167). -/
def HostEvent.clean : HostEvent → Bool
  | .read off size => performed off size
  | .write off size _ => performed off size
  | .reset => true

/-! ### STATUS after a command -/

/-- STATUS with OK = b, ERR = 0 and this STICKY bit (rules R15, R157). -/
def okWord (b sticky : Bool) : Word := BitVec.ofNat 32 (b.toNat + 0x8000 * sticky.toNat)

/-- STATUS after an error: OK 0, ERR the code in bits 7:4, STICKY 1 (rules R15, R160). -/
def errWord (code : Nat) : Word := BitVec.ofNat 32 (0x8000 + 16 * code)

/-- The state of rule R160: an error with this code writes STATUS, OLEN and RESULT and nothing else. -/
def errored (code : Nat) (s : State) : State := { s with status := errWord code, olen := 0, result := 0 }

/-- A completion with flag b: OK = b, ERR = 0, STICKY as before, the reserved bits 0 (rule R157). -/
def Completes (b : Bool) (s t : State) : Prop := t.status = okWord b (s.status.getLsbD 15)

/-! ### Frames -/

/-- Everything a command with bit output leaves alone: the operand registers, IBUF, every CRC unit, and OBUF from OLEN on
(rules R16, R19 to R22); the last three clauses are about the model's own fields. -/
structure KeepsAllButOutput (s t : State) : Prop where
  ilen : t.ilen = s.ilen
  aux0 : t.aux0 = s.aux0
  aux1 : t.aux1 = s.aux1
  ibuf : ∀ k, t.ibufBit k = s.ibufBit k
  obuf : ∀ k, t.olen.toNat ≤ k → t.obufBit k = s.obufBit k
  units : ∀ u, t.crcUnit u = s.crcUnit u
  pending : t.pending = s.pending
  reply : t.reply = s.reply
  resets : t.resets = s.resets

/-- Everything a command on CRC unit u leaves alone: all but that unit and the result registers; no buffer bit changes
(decision D48). -/
structure KeepsAllButUnit (u : UnitId) (s t : State) : Prop where
  ilen : t.ilen = s.ilen
  aux0 : t.aux0 = s.aux0
  aux1 : t.aux1 = s.aux1
  ibuf : ∀ k, t.ibufBit k = s.ibufBit k
  obuf : ∀ k, t.obufBit k = s.obufBit k
  units : ∀ v, v ≠ u → t.crcUnit v = s.crcUnit v
  pending : t.pending = s.pending
  reply : t.reply = s.reply
  resets : t.resets = s.resets

/-! ### Operand ids as numbers (rules R60 to R62) -/

/-- The code id (rule R60). -/
def codeId : Code → Nat
  | .ham743 => 0
  | .ham1393 => 1
  | .ham15113 => 2
  | .ham16114 => 3
  | .ham17123 => 4
  | .golay2087 => 5
  | .qr1676 => 6
  | .rs1294 => 7

/-- The variant id (rule R61). -/
def variantId : Variant → Nat
  | .bptc19696 => 0
  | .vbptc12873 => 1
  | .vbptc3211 => 2
  | .vbptc6828 => 3

/-- The preset id (rule R62). -/
def presetId : Preset → Nat
  | .crc7 => 0
  | .crc8 => 1
  | .crc9 => 2
  | .crc16 => 3
  | .crc32 => 4

/-- The number of a command word with these fields and bits 15:2 zero (rule R58). -/
def wordNumber (opc sel unit flags : Nat) : Nat := opc * 2 ^ 24 + sel * 2 ^ 20 + unit * 2 ^ 16 + flags

/-- The word with these fields decodes to the command (rules R58, R59). -/
def EncodedAs (i : Instr) (opc sel unit flags : Nat) : Prop :=
  decode (BitVec.ofNat 32 (wordNumber opc sel unit flags)) = .ok i

/-- The words rule R65 accepts, by the fields OPC, SEL, UNIT, bits 15:2 and FLAGS of the word's number. -/
def LegalWord (w : Nat) : Prop :=
  let opc := w / 2 ^ 24 % 2 ^ 8
  let sel := w / 2 ^ 20 % 2 ^ 4
  let unit := w / 2 ^ 16 % 2 ^ 4
  let rsv := w / 2 ^ 2 % 2 ^ 14
  let fl := w % 2 ^ 2
  rsv = 0 ∧
    ((0x10 ≤ opc ∧ opc ≤ 0x13 ∧ sel ≤ 7 ∧ unit = 0 ∧ fl = 0) ∨
     ((opc = 0x20 ∨ opc = 0x22 ∨ opc = 0x23) ∧ sel ≤ 3 ∧ unit = 0 ∧ fl = 0) ∨
     (opc = 0x21 ∧ sel ≤ 3 ∧ unit = 0 ∧ (fl < 2 ∨ sel = 1 ∨ sel = 3)) ∨
     ((opc = 0x30 ∨ opc = 0x31) ∧ sel = 0 ∧ unit = 0 ∧ fl = 0) ∨
     (opc = 0x40 ∧ sel ≤ 4 ∧ unit < 4 ∧ fl = 0) ∨
     (0x41 ≤ opc ∧ opc ≤ 0x44 ∧ sel = 0 ∧ unit < 4 ∧ fl = 0) ∨
     ((opc = 0x48 ∨ opc = 0x49) ∧ sel ≤ 4 ∧ unit = 0 ∧ fl = 0))

/-! ### Sums of rule R73 and rule R76 -/

/-- `(Σ_{i<n} H[j][i] · w[i]) mod 2` (rule R73). -/
def synSum (D : CodeDesc) (w : Nat → Bool) (j : Nat) : Nat :=
  (∑ i ∈ Finset.range D.n, (D.H j i).toNat * (w i).toNat) % 2

/-- `(Σ_{i<k} G[i][j] · x[i]) mod 2`; an entry counts by its value mod 2 (rules R76, R77). -/
def genSum (D : CodeDesc) (x : Nat → Bool) (j : Nat) : Nat :=
  (∑ i ∈ Finset.range D.k, D.G i j * (x i).toNat) % 2

/-- Column `h_i` of H equals the syndrome of w (rule R75). -/
def columnMatches (D : CodeDesc) (w : Nat → Bool) (i : Nat) : Prop :=
  ∀ j < D.m, (D.H j i).toNat = synSum D w j

/-- The effective generator is systematic, `Ĝ = [I_k | P]` (rule R72). -/
def CodeDesc.Systematic (D : CodeDesc) : Prop :=
  ∀ i < D.k, ∀ j < D.k, D.gHat i j = decide (i = j)

/-- The columns of H are nonzero and pairwise distinct (rule R91). -/
def CodeDesc.ColumnsDistinct (D : CodeDesc) : Prop :=
  (∀ i < D.n, ∃ j < D.m, D.H j i = true) ∧
    ∀ i < D.n, ∀ i' < D.n, (∀ j < D.m, D.H j i = D.H j i') → i = i'

/-! ### Product-code tables -/

/-- A sequence of logical bits is a codeword of one column of V, or has even parity (rules R93, R99). -/
def ColumnOk (V : VariantDesc) (T : Nat → Bool) (c : Nat) : Prop :=
  match V.colCode with
  | .bmc code => ∀ j < (codeDesc code).m, synSum (codeDesc code) (fun i => T (V.lof i c)) j = 0
  | .evenParity => (∑ i ∈ Finset.range V.R, (T (V.lof i c)).toNat) % 2 = 0

/-- A row of V is a codeword of the row code (rules R93, R99). -/
def RowOk (V : VariantDesc) (T : Nat → Bool) (r : Nat) : Prop :=
  ∀ j < (codeDesc V.rowCode).m, synSum (codeDesc V.rowCode) (fun c => T (V.lof r c)) j = 0

/-- The legal lengths of an encoder input (rules R103, R109). -/
def EncodeLength (V : VariantDesc) (len : Nat) : Prop := len = V.D ∨ (0 < V.S ∧ len = V.D + V.S) ∨ len = V.N

/-! ### The trellis (rules R116 to R124) -/

/-- The dibit at logical position p of an on-air bit sequence y: on-air dibit i lands at TIL[i] (rules R116, R118). -/
def logicalDibit (y : Nat → Bool) (p : Nat) : Dibit :=
  dibitOf (y (2 * til.idxOf p)) (y (2 * til.idxOf p + 1))

/-- The state before point j: 0, then the tribit before (rules R123, R124). -/
def trellisState (τ : Nat → Nat) (j : Nat) : Nat := if j = 0 then 0 else τ (j - 1)

/-- Tribit t explains point j of y in a state: the dibit pair of the point `TT[8·state + t]` stands there (rules R120 to
R124). -/
def Explains (y : Nat → Bool) (state t j : Nat) : Prop :=
  t < 8 ∧ cpt[transition state t]? = some (logicalDibit y (2 * j), logicalDibit y (2 * j + 1))

/-- The tribits τ explain every point of y below j. -/
def ExplainsUpTo (y : Nat → Bool) (τ : Nat → Nat) (j : Nat) : Prop :=
  ∀ i < j, Explains y (trellisState τ i) (τ i) i

/-! ### CRC (rules R133 to R146) -/

/-- The fed sequence x' of rule R134: bit `8j + t` is bit `8j + 7 − t` of x when REFIN = 1. -/
def fedBit (refin : Bool) (x : Nat → Bool) (i : Nat) : Bool :=
  if refin then x (8 * (i / 8) + 7 - i % 8) else x i

/-- The accumulator after the first len bits of a fed sequence, one bit step each (rules R133, R135). -/
def accAfter (W : Nat) (Q A : Word) (x : Nat → Bool) : Nat → Word
  | 0 => A
  | len + 1 => crcStep W Q (accAfter W Q A x len) (x len)

/-- The input lengths a preset admits (rules R142 to R146). -/
def CalcLength : Preset → Nat → Prop
  | .crc7, len => len % 7 = 0
  | .crc8, len => len % 8 = 0
  | .crc9, len => 7 ≤ len
  | .crc16, len => len % 8 = 0
  | .crc32, len => len % 16 = 0

/-- The byte-swapped sequence of rule R146: bit t of byte 2i is bit t of byte 2i + 1 of x, and the other way round. -/
def swappedBit (x : Nat → Bool) (i : Nat) : Bool := if i / 8 % 2 = 0 then x (i + 8) else x (i - 8)

/-- `calc_P(x, mask)` over the first len bits of x, one bit step each (rules R142 to R146). -/
def calcValue (p : Preset) (x : Nat → Bool) (len : Nat) (mask : Word) : Word :=
  match p with
  | .crc7 => accAfter 7 0x09#32 0#32 x len ^^^ (mask &&& 0x7F#32)
  | .crc8 => accAfter 8 0x9B#32 0#32 x len
  | .crc9 => accAfter 9 0x059#32 0#32 x len ^^^ 0x1FF#32 ^^^ (mask &&& 0x1FF#32)
  | .crc16 => accAfter 16 0x1021#32 0#32 x len ^^^ 0xFFFF#32 ^^^ (mask &&& 0xFFFF#32)
  | .crc32 =>
    (accAfter 32 0x04C11DB7#32 0xFFFFFFFF#32 (fedBit true (swappedBit x)) len).reverse ^^^ 0xFFFFFFFF#32

/-! ### Host accesses (rules R40 to R48) -/

/-- A host read of the word at offset a delivers v and changes nothing else (rule R48). -/
def ReadsAs (s : State) (a : Nat) (v : Word) : Prop :=
  ∀ rest, step { s with pending := .read (BitVec.ofNat 16 a) 4 :: rest } =
    .next { s with pending := rest, reply := .data v }

/-- A host write of v to the word at offset a leaves the state t (rule R48). -/
def WriteLeaves (s : State) (a : Nat) (v : Word) (t : State) : Prop :=
  ∀ rest, step { s with pending := .write (BitVec.ofNat 16 a) 4 v :: rest } =
    .next { t with pending := rest, reply := .done }

/-- The offsets rule R42 and rule R47 reserve. -/
def ReservedOffset (a : Nat) : Prop :=
  (0x01C ≤ a ∧ a ≤ 0x0FF) ∨ (0x100 ≤ a ∧ a ≤ 0x17F ∧ 0x14 ≤ a % 0x20) ∨ (0x180 ≤ a ∧ a ≤ 0xFFF) ∨
    (0x1200 ≤ a ∧ a ≤ 0x1FFF) ∨ (0x2200 ≤ a ∧ a ≤ 0xFFFF)

end Sys2Proof.Machine
end

