-- ==== Sys2Proof/Certificates/Slice0/Obligations.lean ====
section
/-! DEFINITION. The statements about CORE that the provers settle. Each docstring names the rule of the spec. -/

open Sys2Proof Sys2Proof.Machine

/-! ### Decoding and issuing commands -/

/-- Rules R58 to R65: a word decodes to a command exactly when the command is legal and the word is its encoding. -/
def Obligations.DecodeInvertsEncodeBothWays : Prop :=
  ∀ (w : Word) (i : Instr), decode w = .ok i ↔ i.wellFormed = true ∧ encode i = w

/-- The example words of rule R68, and one word of every other form. -/
def Obligations.ExampleWordsDecodeAsWritten : Prop :=
  decode 0x12300000#32 = .ok (.bmcCor .ham16114) ∧ decode 0x23300000#32 = .ok (.pcEnc .vbptc6828) ∧
    decode 0x21000001#32 = .ok (.pcDid .bptc19696 true false) ∧ decode 0x30000000#32 = .ok .trDec ∧
    decode 0x31000000#32 = .ok .trEnc ∧ decode 0x40310000#32 = .ok (.crcCfg .crc16 1) ∧
    decode 0x42020000#32 = .ok (.crcUpd 2) ∧ decode 0x49400000#32 = .ok (.crcVer .crc32)

/-- Rules R65 and R66, by the model's queue of host events (log entry 1): a CMD write of a word that meets R65's conditions
executes its command; of any other word it ends with BAD_COMMAND (code 1) and has only the effects of R160. -/
def Obligations.CommandWriteRunsLegalWordsOnly : Prop :=
  ∀ (w : Word) (s : State) (rest : List HostEvent),
    let before := { s with pending := .write 0x000 4 w :: rest }
    let taken := { s with pending := rest, reply := .done }
    (LegalWord w.toNat → ∃ i, decode w = .ok i ∧ encode i = w ∧ step before = exec i taken) ∧
    (¬ LegalWord w.toNat → step before = .next (errored 1 taken))

/-- A step whose next event is a CMD write runs the decoded command on the state with the write taken off and answered;
an undecodable word ends with BAD_COMMAND; `withFetchWord` places such a write (rules R14, R49, R65; log entry 1). -/
def Obligations.StepRunsTheDecodedCommand : Prop :=
  (∀ (s : State) (rest : List HostEvent) (w : Word) (i : Instr), s.pending = .write 0x000 4 w :: rest →
      decode w = .ok i → step s = exec i { s with pending := rest, reply := .done }) ∧
    (∀ (s : State) (rest : List HostEvent) (w : Word) (r : Reject), s.pending = .write 0x000 4 w :: rest →
      decode w = .error r → step s = .next (errored 1 { s with pending := rest, reply := .done })) ∧
    (∀ (s : State) (n : Nat) (i : Instr), decodeTableWord 32 n = some i →
      step (s.withFetchWord 32 n) = exec i { s with reply := .done })

/-- Rule R168, by the model's own queue of host events (log entry 1): with nothing pending CORE waits, unchanged. -/
def Obligations.CoreWaitsWhenNothingIsPending : Prop :=
  ∀ s : State, s.pending = [] → step s = .next s

/-! ### Reset, the invariant and the outcomes of a command -/

/-- Rules R39 and R167: what a reset leaves, after any state and at the start; an unspecified buffer bit is a draw. The
queue it arrives in and the counter that picks the draws are the model's (log entries 1 and 3). -/
def Obligations.ResetLeavesTheSpecifiedValues : Prop :=
  let Fresh (t : State) : Prop :=
    t.status = 0 ∧ t.ilen = 0 ∧ t.olen = 0 ∧ t.result = 0 ∧ t.aux0 = 0 ∧ t.aux1 = 0 ∧
      (∀ u, (t.crcUnit u).cfg = 0 ∧ (t.crcUnit u).poly = 0 ∧ (t.crcUnit u).init = 0 ∧ (t.crcUnit u).xorout = 0 ∧
        (t.crcUnit u).acc = 0) ∧
      (∀ k, t.ibufBit k = Config.ibufDraw t.resets k) ∧ (∀ k, t.obufBit k = Config.obufDraw t.resets k)
  Fresh State.reset ∧
    ∀ (s : State) (rest : List HostEvent), s.pending = .reset :: rest → ∃ t, step s = .next t ∧ Fresh t

/-- The invariant holds right after reset. -/
def Obligations.InvariantHoldsAtReset : Prop := Inv State.reset

/-- Every step keeps the invariant: legal STATUS, CFG reserved bits, accumulator widths (rules R15, R24, R26, R27, R158),
canonical buffers. -/
def Obligations.EveryStepKeepsTheInvariant : Prop :=
  ∀ s t : State, Inv s → step s = .next t → Inv t

/-- Rules R157 and R160: a decoded command completes, or ends with LENGTH, UNINIT or CONFIG (codes 2 to 4) and exactly
R160's effects. -/
def Obligations.EveryCommandCompletesOrReportsOneError : Prop :=
  ∀ (i : Instr) (s : State),
    (∃ (b : Bool) (t : State), exec i s = .next t ∧ Completes b s t) ∨
      ∃ code, 2 ≤ code ∧ code ≤ 4 ∧ exec i s = .next (errored code s)

/-- Rule R167: "Reset is the only event that clears STATUS.STICKY", and reset clears it. -/
def Obligations.OnlyResetClearsSticky : Prop :=
  ∀ (s t : State) (e : HostEvent) (rest : List HostEvent), s.pending = e :: rest → step s = .next t →
    stickyOf s.status = true → (stickyOf t.status = false ↔ e = .reset)

/-! ### The host window. A host access is the next event of the queue `pending`, the model's own form (log entry 1). -/

/-- Rule R41: an access that is not 32 bits wide or not 4-byte aligned is refused. -/
def Obligations.MisalignedOrNarrowAccessIsRefused : Prop :=
  ∀ (s : State) (rest : List HostEvent) (off : Offset) (size : Nat) (v : Word), size ≠ 4 ∨ off.toNat % 4 ≠ 0 →
    (s.pending = .read off size :: rest → step s = .refused .busError) ∧
    (s.pending = .write off size v :: rest → step s = .refused .busError)

/-- A step has a next state exactly when its next event, if any, is a reset or a word access (rules R41, R43, R167). -/
def Obligations.StepAnswersExactlyCleanEvents : Prop :=
  ∀ s : State, (∃ t, step s = .next t) ↔ ∀ e ∈ s.pending.head?, e.clean = true

/-- Rules R42, R43 and R47: what a read of each register and of each reserved offset delivers; rule R48: nothing else
changes. -/
def Obligations.RegisterReadsFollowTheMap : Prop :=
  ∀ s : State,
    ReadsAs s 0x000 0 ∧ ReadsAs s 0x004 s.status ∧ ReadsAs s 0x008 s.ilen ∧ ReadsAs s 0x00C s.olen ∧
      ReadsAs s 0x010 s.result ∧ ReadsAs s 0x014 s.aux0 ∧ ReadsAs s 0x018 s.aux1 ∧
      (∀ u : UnitId, ReadsAs s (0x100 + 0x20 * u.val) (s.crcUnit u).cfg ∧
        ReadsAs s (0x100 + 0x20 * u.val + 0x04) (s.crcUnit u).poly ∧
        ReadsAs s (0x100 + 0x20 * u.val + 0x08) (s.crcUnit u).init ∧
        ReadsAs s (0x100 + 0x20 * u.val + 0x0C) (s.crcUnit u).xorout ∧
        ReadsAs s (0x100 + 0x20 * u.val + 0x10) (s.crcUnit u).acc) ∧
      (∀ a, a % 4 = 0 → ReservedOffset a → ReadsAs s a 0)

/-- Rules R42, R43 and R48: a write to ILEN, AUX0 or AUX1 stores the word; a write to a read-only register or a reserved
offset changes nothing. -/
def Obligations.RegisterWritesFollowTheMap : Prop :=
  ∀ (s : State) (v : Word),
    WriteLeaves s 0x008 v { s with ilen := v } ∧ WriteLeaves s 0x014 v { s with aux0 := v } ∧
      WriteLeaves s 0x018 v { s with aux1 := v } ∧ WriteLeaves s 0x004 v s ∧ WriteLeaves s 0x00C v s ∧
      WriteLeaves s 0x010 v s ∧ (∀ u : UnitId, WriteLeaves s (0x100 + 0x20 * u.val + 0x10) v s) ∧
      (∀ w < 128, WriteLeaves s (0x2000 + 4 * w) v s) ∧
      (∀ a, a % 4 = 0 → ReservedOffset a → WriteLeaves s a v s)

/-- Rule R44: an IBUF word write sets its 32 bits, first bit at bit 31, and no other bit; a read gives them back. -/
def Obligations.IbufWindowHoldsWordsMsbFirst : Prop :=
  ∀ (s : State) (v : Word), ∀ w < 128,
    (∃ m, WriteLeaves s (0x1000 + 4 * w) v (s.setIbuf m) ∧
      (∀ j < 32, (s.setIbuf m).ibufBit (32 * w + j) = v.getLsbD (31 - j)) ∧
      (∀ k, k < 32 * w ∨ 32 * w + 32 ≤ k → (s.setIbuf m).ibufBit k = s.ibufBit k)) ∧
    (∃ x, ReadsAs s (0x1000 + 4 * w) x ∧ ∀ j < 32, x.getLsbD (31 - j) = s.ibufBit (32 * w + j))

/-- Rule R45: an OBUF word read delivers its 32 bits, first bit at bit 31; a write is ignored. -/
def Obligations.ObufWindowIsReadOnlyMsbFirst : Prop :=
  ∀ (s : State) (v : Word), ∀ w < 128, WriteLeaves s (0x2000 + 4 * w) v s ∧
    ∃ x, ReadsAs s (0x2000 + 4 * w) x ∧ ∀ j < 32, x.getLsbD (31 - j) = s.obufBit (32 * w + j)

/-- Rule R29 for host writes, with the fields of rule R47: the register is stored, LIFE becomes 0 even if the value is
unchanged, ACC_u and every other unit and register stay. -/
def Obligations.ConfigurationWriteUninitialisesTheUnit : Prop :=
  ∀ (s : State) (u : UnitId) (v : Word),
    let c := s.crcUnit u
    WriteLeaves s (0x100 + 0x20 * u.val) v (s.setUnit u { c with cfg := v &&& 0x73F#32 }) ∧
      WriteLeaves s (0x100 + 0x20 * u.val + 0x04) v (s.setUnit u { c with cfg := c.cfg &&& 0x73F#32, poly := v }) ∧
      WriteLeaves s (0x100 + 0x20 * u.val + 0x08) v (s.setUnit u { c with cfg := c.cfg &&& 0x73F#32, init := v }) ∧
      WriteLeaves s (0x100 + 0x20 * u.val + 0x0C) v (s.setUnit u { c with cfg := c.cfg &&& 0x73F#32, xorout := v })

/-! ### BMC -/

/-- Rules R78 and R73: BMC.SYN. -/
def Obligations.BmcSynWritesTheSyndrome : Prop :=
  ∀ (c : Code) (s : State),
    let D := codeDesc c
    EncodedAs (.bmcSyn c) 0x10 (codeId c) 0 0 ∧
    (s.inputLength ≠ D.n → exec (.bmcSyn c) s = .next (errored 2 s)) ∧
    (s.inputLength = D.n → ∃ t, exec (.bmcSyn c) s = .next t ∧
      Completes (decide (∀ j < D.m, synSum D s.ibufBit j = 0)) s t ∧
      t.olen.toNat = D.m ∧ (∀ j < D.m, (t.obufBit j).toNat = synSum D s.ibufBit j) ∧
      t.result.toNat = ∑ j ∈ Finset.range D.m, synSum D s.ibufBit j * 2 ^ (D.m - 1 - j) ∧
      KeepsAllButOutput s t)

/-- Rules R79 and R74: BMC.CHK. -/
def Obligations.BmcChkReportsTheZeroSyndrome : Prop :=
  ∀ (c : Code) (s : State),
    let D := codeDesc c
    EncodedAs (.bmcChk c) 0x11 (codeId c) 0 0 ∧
    (s.inputLength ≠ D.n → exec (.bmcChk c) s = .next (errored 2 s)) ∧
    (s.inputLength = D.n → ∃ t, exec (.bmcChk c) s = .next t ∧
      Completes (decide (∀ j < D.m, synSum D s.ibufBit j = 0)) s t ∧
      t.olen = 0 ∧ t.result = 0 ∧ KeepsAllButOutput s t)

/-- Rules R80 and R75: BMC.COR, by the three cases of check_and_correct. -/
def Obligations.BmcCorFlipsTheLowestMatchingColumn : Prop :=
  ∀ (c : Code) (s : State),
    let D := codeDesc c
    EncodedAs (.bmcCor c) 0x12 (codeId c) 0 0 ∧
    (s.inputLength ≠ D.n → exec (.bmcCor c) s = .next (errored 2 s)) ∧
    (s.inputLength = D.n → ∃ t, exec (.bmcCor c) s = .next t ∧ t.olen.toNat = D.n ∧ KeepsAllButOutput s t ∧
      ((∀ j < D.m, synSum D s.ibufBit j = 0) →
        Completes true s t ∧ t.result = 0xFFFFFFFF#32 ∧ ∀ k < D.n, t.obufBit k = s.ibufBit k) ∧
      (∀ i < D.n, (∃ j < D.m, synSum D s.ibufBit j ≠ 0) → columnMatches D s.ibufBit i →
        (∀ i' < i, ¬ columnMatches D s.ibufBit i') →
        Completes true s t ∧ t.result.toNat = i ∧
          ∀ k < D.n, t.obufBit k = if k = i then !s.ibufBit k else s.ibufBit k) ∧
      ((∃ j < D.m, synSum D s.ibufBit j ≠ 0) → (∀ i < D.n, ¬ columnMatches D s.ibufBit i) →
        Completes false s t ∧ t.result = 0xFFFFFFFF#32 ∧ ∀ k < D.n, t.obufBit k = s.ibufBit k))

/-- Rules R81 and R76: BMC.GEN. -/
def Obligations.BmcGenWritesTheCodeword : Prop :=
  ∀ (c : Code) (s : State),
    let D := codeDesc c
    EncodedAs (.bmcGen c) 0x13 (codeId c) 0 0 ∧
    (s.inputLength ≠ D.k → exec (.bmcGen c) s = .next (errored 2 s)) ∧
    (s.inputLength = D.k → ∃ t, exec (.bmcGen c) s = .next t ∧ Completes true s t ∧ t.olen.toNat = D.n ∧
      t.result = 0 ∧ (∀ j < D.n, (t.obufBit j).toNat = genSum D s.ibufBit j) ∧ KeepsAllButOutput s t)

/-- Rule R91, round trip: a generated word of a systematic descriptor checks, and starts with its data (rule R76). -/
def Obligations.GeneratedWordsOfSystematicCodesCheck : Prop :=
  ∀ (D : CodeDesc) (x : Bits), D.k < D.n → D.Systematic → x.length = D.k →
    check D (generate D x) = true ∧ (generate D x).take D.k = x

/-- Rule R91, single error: with nonzero distinct columns of H, one flipped bit of any codeword is put back. -/
def Obligations.SingleErrorIsCorrected : Prop :=
  ∀ (D : CodeDesc) (w : Bits) (i : Nat), D.ColumnsDistinct → w.length = D.n → check D w = true → i < D.n →
    checkAndCorrect D (flipBit w i) = ⟨true, w, some i⟩

/-- The five Hamming descriptors are systematic and have nonzero distinct columns (rules R72, R75, R91). -/
def Obligations.HammingColumnsAreDistinct : Prop :=
  ∀ c ∈ [Code.ham743, .ham1393, .ham15113, .ham16114, .ham17123],
    (codeDesc c).Systematic ∧ (codeDesc c).ColumnsDistinct

/-- Rules R86 and R91: HAM16114 detects every double error. -/
def Obligations.Ham16114DetectsEveryDoubleError : Prop :=
  ∀ (w : Bits) (i j : Nat), w.length = 16 → check (codeDesc .ham16114) w = true → i < 16 → j < 16 → i ≠ j →
    checkAndCorrect (codeDesc .ham16114) (flipBit (flipBit w i) j) = ⟨false, flipBit (flipBit w i) j, none⟩

/-! ### Product codes -/

/-- Rules R110 and R95: PC.DIA. -/
def Obligations.PcDiaDeinterleaves : Prop :=
  ∀ (v : Variant) (s : State),
    let V := variantDesc v
    EncodedAs (.pcDia v) 0x20 (variantId v) 0 0 ∧
    (s.inputLength ≠ V.N → exec (.pcDia v) s = .next (errored 2 s)) ∧
    (s.inputLength = V.N → ∃ t, exec (.pcDia v) s = .next t ∧ Completes true s t ∧ t.olen.toNat = V.N ∧
      t.result = 0 ∧ (∀ L < V.N, t.obufBit L = s.ibufBit (V.il L)) ∧ KeepsAllButOutput s t)

/-- Rules R111 and R100: PC.DID, without and with REPAIR, without and with SPECIAL. -/
def Obligations.PcDidExtractsDataAndSpecialBits : Prop :=
  ∀ (v : Variant) (wantRepair wantSpecial : Bool) (s : State),
    let V := variantDesc v
    let i := Instr.pcDid v wantRepair wantSpecial
    let a := repair V s.input
    i.wellFormed = true →
    EncodedAs i 0x21 (variantId v) 0 (2 * wantSpecial.toNat + wantRepair.toNat) ∧
    (s.inputLength ≠ V.N → exec i s = .next (errored 2 s)) ∧
    (s.inputLength = V.N → ∃ t, exec i s = .next t ∧
      t.olen.toNat = V.D + (if wantSpecial then V.S else 0) ∧ KeepsAllButOutput s t ∧
      (wantRepair = false → Completes true s t ∧ t.result = 0 ∧
        (∀ j < V.D, t.obufBit j = s.ibufBit (V.il (V.dataCells.getD j 0))) ∧
        (wantSpecial = true → ∀ j < V.S, t.obufBit (V.D + j) = s.ibufBit (V.il (V.specialCells.getD j 0)))) ∧
      (wantRepair = true → Completes a.ok s t ∧ t.result.toNat = a.flips ∧
        (∀ j < V.D, t.obufBit j = a.bits.getD (V.il (V.dataCells.getD j 0)) false) ∧
        (wantSpecial = true →
          ∀ j < V.S, t.obufBit (V.D + j) = a.bits.getD (V.il (V.specialCells.getD j 0)) false)))

/-- Rule R112: PC.REP writes repair's bits, flag and count, and the bounds it gives for RESULT. -/
def Obligations.PcRepWritesTheRepairedBlock : Prop :=
  ∀ (v : Variant) (s : State),
    let V := variantDesc v
    let a := repair V s.input
    EncodedAs (.pcRep v) 0x22 (variantId v) 0 0 ∧
    (s.inputLength ≠ V.N → exec (.pcRep v) s = .next (errored 2 s)) ∧
    (s.inputLength = V.N → ∃ t, exec (.pcRep v) s = .next t ∧ Completes a.ok s t ∧ t.olen.toNat = V.N ∧
      t.result.toNat = a.flips ∧ (∀ k < V.N, t.obufBit k = a.bits.getD k false) ∧ KeepsAllButOutput s t ∧
      t.result.toNat ≤ (match v with | .bptc19696 => 24 | .vbptc12873 => 7 | .vbptc3211 => 1 | .vbptc6828 => 3))

/-- Rule R99: repair corrects each row, then each column of the result (or checks its parity); bits in no corrected row
and no corrected column stay; ok is the conjunction and flips the count of the attempts that flipped a bit. -/
def Obligations.RepairIsARowPassThenAColumnPass : Prop :=
  ∀ (v : Variant) (y : Bits),
    let V := variantDesc v
    let T := deinterleave V y
    let out := repair V y
    let T' := deinterleave V out.bits
    let row (r : Nat) := checkAndCorrect (codeDesc V.rowCode) (gather T (V.rowCells r))
    y.length = V.N → out.bits.length = V.N ∧ ∃ M : Bits, M.length = V.N ∧
      (∀ r ∈ V.rows, gather M (V.rowCells r) = (row r).word) ∧
      (∀ L < V.N, (∀ r ∈ V.rows, L ∉ V.rowCells r) → M.getD L false = T.getD L false) ∧
      (match V.colCode with
        | .bmc code =>
          let col (c : Nat) := checkAndCorrect (codeDesc code) (gather M (V.colCells c))
          (∀ c < V.C, gather T' (V.colCells c) = (col c).word) ∧
            (∀ L < V.N, V.cell L = none → T'.getD L false = M.getD L false) ∧
            (out.ok = true ↔ (∀ r ∈ V.rows, (row r).ok = true) ∧ ∀ c < V.C, (col c).ok = true) ∧
            out.flips = (V.rows.filter fun r => (row r).flip.isSome).length +
              ((List.range V.C).filter fun c => (col c).flip.isSome).length
        | .evenParity =>
          T' = M ∧
            (out.ok = true ↔ (∀ r ∈ V.rows, (row r).ok = true) ∧ ∀ c < V.C, ColumnOk V (fun L => M.getD L false) c) ∧
            out.flips = (V.rows.filter fun r => (row r).flip.isSome).length)

/-- Rules R113 and R103: PC.ENC for each of its three input forms. The output, read in logical order, holds the data and
special bits in their cells, 0 in every RESERVED cell, a row codeword in every corrected row and a column codeword or even
parity in every column. -/
def Obligations.PcEncWritesTheProductCodeword : Prop :=
  ∀ (v : Variant) (s : State),
    let V := variantDesc v
    let len := s.inputLength
    EncodedAs (.pcEnc v) 0x23 (variantId v) 0 0 ∧
    (¬ EncodeLength V len → exec (.pcEnc v) s = .next (errored 2 s)) ∧
    (EncodeLength V len → ∃ t, exec (.pcEnc v) s = .next t ∧ Completes true s t ∧ t.olen.toNat = V.N ∧
      t.result = 0 ∧ KeepsAllButOutput s t ∧
      (∀ j < V.D, t.obufBit (V.il (V.dataCells.getD j 0)) =
        if len = V.N then s.ibufBit (V.dataCells.getD j 0) else s.ibufBit j) ∧
      (∀ j < V.S, t.obufBit (V.il (V.specialCells.getD j 0)) =
        if len = V.D then (V.specialValue s.input).getD j false
        else if len = V.N then s.ibufBit (V.specialCells.getD j 0)
        else s.ibufBit (V.D + j)) ∧
      (∀ L < V.N, V.cls L = .reserved → t.obufBit (V.il L) = false) ∧
      (∀ r ∈ V.rows, RowOk V (fun L => t.obufBit (V.il L)) r) ∧
      (∀ c < V.C, ColumnOk V (fun L => t.obufBit (V.il L)) c))

/-- Rules R101 and R102: the special fields encode computes: the byte sum mod 31, and the CRC-8 of the 28 data bits. -/
def Obligations.SpecialFieldsAreByteSumAndCrc8 : Prop :=
  (∀ x : Bits, x.length = 72 →
    ((variantDesc .vbptc12873).specialValue x).length = 5 ∧
      intOf ((variantDesc .vbptc12873).specialValue x) =
        (∑ j ∈ Finset.range 9, ∑ t ∈ Finset.range 8, (x.getD (8 * j + t) false).toNat * 2 ^ (7 - t)) % 31) ∧
  (∀ x : Bits, x.length = 28 →
    ((variantDesc .vbptc6828).specialValue x).length = 8 ∧
      intOf ((variantDesc .vbptc6828).specialValue x) =
        (accAfter 8 0x9B#32 0#32 (fun i => x.getD i false) 28).toNat)

/-- Rules R95 and R96: what deinterleave and interleave deliver, and that they are inverse, for every variant and every
value of the OPEN interleave. -/
def Obligations.InterleaveAndDeinterleaveAreInverse : Prop :=
  ∀ (v : Variant) (x : Bits), x.length = (variantDesc v).N →
    let V := variantDesc v
    (∀ L < V.N, (deinterleave V x).getD L false = x.getD (V.il L) false ∧
      (interleave V x).getD (V.il L) false = x.getD L false) ∧
    interleave V (deinterleave V x) = x ∧ deinterleave V (interleave V x) = x

/-- Rule R114, round trip: an encoded block repairs to itself with no flip and gives its data and special bits back. -/
def Obligations.ProductCodeRoundTrip : Prop :=
  ∀ (v : Variant) (d : Bits),
    let V := variantDesc v
    d.length = V.D → ∃ y, encodeProduct V d = some y ∧ repair V y = ⟨true, y, 0⟩ ∧
      dataBits V (deinterleave V y) = d ∧ specialBits V (deinterleave V y) = V.specialValue d

/-- Rule R114, single errors of BPTC19696: 195 positions are repaired; on-air position 0 stays flipped with ok. -/
def Obligations.BptcRepairsEverySingleErrorButR3 : Prop :=
  ∀ (d y : Bits) (k : Nat), d.length = 96 → encodeProduct bptc19696 d = some y → k < 196 →
    repair bptc19696 (flipBit y k) = if k = 0 then ⟨true, flipBit y k, 0⟩ else ⟨true, y, 1⟩

/-- Rule R114, single errors of the VBPTC variants: a flip outside the parity row is repaired; one in the parity row is
reported and stays. -/
def Obligations.VbptcRepairsSingleErrorsOutsideParityRow : Prop :=
  ∀ (v : Variant) (d y : Bits) (L : Nat),
    let V := variantDesc v
    v ≠ .bptc19696 → d.length = V.D → encodeProduct V d = some y → L < V.N →
    repair V (flipBit y (V.il L)) =
      if V.cls L = .colPar then ⟨false, flipBit y (V.il L), 0⟩ else ⟨true, y, 1⟩

/-! ### Trellis34 -/

/-- Rules R129 and R123: TR.DEC. Tribits that explain all 49 points give the output; else the first point no tribit
explains is reported and OBUF stays; one of the two is always so. -/
def Obligations.TrDecFollowsTheStateMachine : Prop :=
  ∀ s : State,
    EncodedAs .trDec 0x30 0 0 0 ∧
    (s.inputLength ≠ 196 → exec .trDec s = .next (errored 2 s)) ∧
    (s.inputLength = 196 →
      (∀ τ, ExplainsUpTo s.ibufBit τ 49 → ∃ t, exec .trDec s = .next t ∧ Completes true s t ∧ t.olen = 144 ∧
        t.result = 0 ∧ KeepsAllButOutput s t ∧
        ∀ j < 48, ∀ b < 3, t.obufBit (3 * j + b) = (τ j).testBit (2 - b)) ∧
      (∀ τ, ∀ j < 49, ExplainsUpTo s.ibufBit τ j → (∀ o, ¬ Explains s.ibufBit (trellisState τ j) o j) →
        ∃ t, exec .trDec s = .next t ∧ Completes false s t ∧ t.olen = 0 ∧ t.result.toNat = j ∧
          KeepsAllButOutput s t) ∧
      ((∃ τ, ExplainsUpTo s.ibufBit τ 49) ∨
        ∃ τ, ∃ j < 49, ExplainsUpTo s.ibufBit τ j ∧ ∀ o, ¬ Explains s.ibufBit (trellisState τ j) o j))

/-- Rule R130 with rules R124 and R126: TR.ENC. The output's 49 points are explained by the 48 tribits of the input and a
zero 49th. -/
def Obligations.TrEncWritesTheTribitsPoints : Prop :=
  ∀ s : State,
    let τ (j : Nat) : Nat :=
      if j < 48 then
        4 * (s.ibufBit (3 * j)).toNat + 2 * (s.ibufBit (3 * j + 1)).toNat + (s.ibufBit (3 * j + 2)).toNat
      else 0
    EncodedAs .trEnc 0x31 0 0 0 ∧
    (s.inputLength ≠ 144 → exec .trEnc s = .next (errored 2 s)) ∧
    (s.inputLength = 144 → ∃ t, exec .trEnc s = .next t ∧ Completes true s t ∧ t.olen = 196 ∧ t.result = 0 ∧
      KeepsAllButOutput s t ∧ ExplainsUpTo t.obufBit τ 49)

/-- Rule R131: decode inverts encode on every 144-bit sequence. -/
def Obligations.TrellisDecodeInvertsEncode : Prop :=
  ∀ x : Bits, x.length = 144 → trellisDecode (trellisEncode x) = .ok x

/-- Rule R131: an accepted 196-bit sequence is the encoding of what it decodes to exactly when its 49th tribit is 0. -/
def Obligations.TrellisReencodesExactlyZero49thTribit : Prop :=
  ∀ (y x : Bits) (ts : List Nat), y.length = 196 → trellisDecode y = .ok x →
    pointsToTribits 0 0 (dibitsToPoints (deinterleaveDibits (bitsToDibits y))) = .ok ts →
    (trellisEncode x = y ↔ ts[48]? = some 0)

/-! ### CRC -/

/-- Rule R133: the bit step on W-bit values. -/
def Obligations.CrcStepDividesMsbFirst : Prop :=
  ∀ (W : Nat) (Q A : Word) (b : Bool), 1 ≤ W → W ≤ 32 → Q.toNat < 2 ^ W → A.toNat < 2 ^ W →
    (crcStep W Q A b).toNat =
      if (A.toNat / 2 ^ (W - 1) + b.toNat) % 2 = 1 then (2 * A.toNat % 2 ^ W) ^^^ Q.toNat else 2 * A.toNat % 2 ^ W

/-- Rule R138: "For every W, Q, A and x, `update_table(A, x) = update_serial(A, x)`". -/
def Obligations.TableUpdateEqualsSerialUpdate : Prop :=
  ∀ (W : Nat) (Q A : Word) (x : Bits), 1 ≤ W → W ≤ 32 → Q.toNat < 2 ^ W → A.toNat < 2 ^ W →
    updateTable W Q A x = updateSerial W Q A x

/-- Rule R149: CRC.CFG loads the preset of rule R141, keeps MODE and ACC, and clears LIFE. -/
def Obligations.CrcCfgLoadsThePreset : Prop :=
  ∀ (p : Preset) (u : UnitId) (s : State),
    EncodedAs (.crcCfg p u) 0x40 (presetId p) u 0 ∧
    ∃ t, exec (.crcCfg p u) s = .next t ∧ Completes true s t ∧ t.olen = 0 ∧ t.result = 0 ∧ KeepsAllButUnit u s t ∧
      let c := t.crcUnit u
      let row : Nat × Nat × Nat × Nat × Bool :=
        match p with
        | .crc7 => (7, 0x09, 0, 0, false)
        | .crc8 => (8, 0x9B, 0, 0, false)
        | .crc9 => (9, 0x059, 0, 0x1FF, false)
        | .crc16 => (16, 0x1021, 0, 0xFFFF, false)
        | .crc32 => (32, 0x04C11DB7, 0xFFFFFFFF, 0xFFFFFFFF, true)
      widthOf c.cfg = row.1 ∧ c.poly.toNat = row.2.1 ∧ c.init.toNat = row.2.2.1 ∧ c.xorout.toNat = row.2.2.2.1 ∧
        refinOf c.cfg = row.2.2.2.2 ∧ refoutOf c.cfg = row.2.2.2.2 ∧ lifeOf c.cfg = false ∧
        modeOf c.cfg = modeOf (s.crcUnit u).cfg ∧ c.acc = (s.crcUnit u).acc ∧ c.cfg &&& 0x7FFFF8C0#32 = 0

/-- Rule R150: CRC.INIT, and CONFIG (code 4) when WIDTH is 0 or above 32. -/
def Obligations.CrcInitStartsAccumulating : Prop :=
  ∀ (u : UnitId) (s : State),
    let c := s.crcUnit u
    let W := widthOf c.cfg
    EncodedAs (.crcInit u) 0x41 0 u 0 ∧
    (W = 0 ∨ 32 < W → exec (.crcInit u) s = .next (errored 4 s)) ∧
    (1 ≤ W → W ≤ 32 → ∃ t, exec (.crcInit u) s = .next t ∧ Completes true s t ∧ t.olen = 0 ∧
      t.result = (t.crcUnit u).acc ∧ KeepsAllButUnit u s t ∧
      (t.crcUnit u).acc.toNat = c.init.toNat % 2 ^ W ∧ (t.crcUnit u).poly = c.poly ∧ (t.crcUnit u).init = c.init ∧
      (t.crcUnit u).xorout = c.xorout ∧ (t.crcUnit u).cfg = (c.cfg &&& 0x73F#32) ||| 0x80000000#32)

/-- Rule R151 (both engine modes, rules R134, R135, R138) and the priority of rule R159: CRC.UPD. -/
def Obligations.CrcUpdFeedsTheInputBits : Prop :=
  ∀ (u : UnitId) (s : State),
    let c := s.crcUnit u
    let W := widthOf c.cfg
    let len := s.inputLength
    let a := accAfter W (c.poly &&& maskW W) c.acc (fedBit (refinOf c.cfg) s.ibufBit) len
    EncodedAs (.crcUpd u) 0x42 0 u 0 ∧
    (lifeOf c.cfg = false → exec (.crcUpd u) s = .next (errored 3 s)) ∧
    (lifeOf c.cfg = true → Config.ibufBits < len ∨ (refinOf c.cfg = true ∧ len % 8 ≠ 0) →
      exec (.crcUpd u) s = .next (errored 2 s)) ∧
    (lifeOf c.cfg = true → UnitInv c → len ≤ Config.ibufBits → (refinOf c.cfg = true → len % 8 = 0) →
      ∃ t, exec (.crcUpd u) s = .next t ∧ Completes true s t ∧ t.olen = 0 ∧ t.result = a ∧ KeepsAllButUnit u s t ∧
        t.crcUnit u = { c with acc := a })

/-- Rules R152 and R139: CRC.DIG. -/
def Obligations.CrcDigReadsTheDigest : Prop :=
  ∀ (u : UnitId) (s : State),
    let c := s.crcUnit u
    let W := widthOf c.cfg
    EncodedAs (.crcDig u) 0x43 0 u 0 ∧
    (lifeOf c.cfg = false → exec (.crcDig u) s = .next (errored 3 s)) ∧
    (lifeOf c.cfg = true → UnitInv c → ∃ t, exec (.crcDig u) s = .next t ∧ Completes true s t ∧ t.olen = 0 ∧
      KeepsAllButUnit u s t ∧ t.crcUnit u = c ∧
      ∀ k < 32, t.result.getLsbD k =
        (decide (k < W) && ((if refoutOf c.cfg then c.acc.getLsbD (W - 1 - k) else c.acc.getLsbD k) ^^
          c.xorout.getLsbD k)))

/-- Rules R153 and R140: CRC.REV, and "A second REV restores ACC". -/
def Obligations.CrcRevReversesTheAccumulator : Prop :=
  ∀ (u : UnitId) (s : State),
    let c := s.crcUnit u
    let W := widthOf c.cfg
    EncodedAs (.crcRev u) 0x44 0 u 0 ∧
    (lifeOf c.cfg = false → exec (.crcRev u) s = .next (errored 3 s)) ∧
    (lifeOf c.cfg = true → UnitInv c → ∃ t, exec (.crcRev u) s = .next t ∧ Completes true s t ∧ t.olen = 0 ∧
      KeepsAllButUnit u s t ∧ t.result = (t.crcUnit u).acc ∧ t.crcUnit u = { c with acc := (t.crcUnit u).acc } ∧
      (∀ k < 32, (t.crcUnit u).acc.getLsbD k = (decide (k < W) && c.acc.getLsbD (W - 1 - k))) ∧
      ∃ t', exec (.crcRev u) t = .next t' ∧ t'.crcUnit u = c)

/-- Rule R154 with rules R142 to R147: CRC.CALC, and LENGTH by each preset's rule. -/
def Obligations.CrcCalcComputesThePresetChecksum : Prop :=
  ∀ (p : Preset) (s : State),
    let len := s.inputLength
    EncodedAs (.crcCalc p) 0x48 (presetId p) 0 0 ∧
    (Config.ibufBits < len ∨ ¬ CalcLength p len → exec (.crcCalc p) s = .next (errored 2 s)) ∧
    (len ≤ Config.ibufBits → CalcLength p len → ∃ t, exec (.crcCalc p) s = .next t ∧ Completes true s t ∧
      t.olen = 0 ∧ t.result = calcValue p s.ibufBit len s.aux0 ∧ KeepsAllButOutput s t)

/-- Rule R155 with rule R148: CRC.VER compares 32 bits with AUX1; a mismatch is no error. -/
def Obligations.CrcVerComparesWithTheExpectedValue : Prop :=
  ∀ (p : Preset) (s : State),
    let len := s.inputLength
    EncodedAs (.crcVer p) 0x49 (presetId p) 0 0 ∧
    (Config.ibufBits < len ∨ ¬ CalcLength p len → exec (.crcVer p) s = .next (errored 2 s)) ∧
    (len ≤ Config.ibufBits → CalcLength p len → ∃ t, exec (.crcVer p) s = .next t ∧
      Completes (decide (calcValue p s.ibufBit len s.aux0 = s.aux1)) s t ∧
      t.olen = 0 ∧ t.result = calcValue p s.ibufBit len s.aux0 ∧ KeepsAllButOutput s t)

/-- Rule R151: updates compose, provided REFIN = 0 or the first length is divisible by 8. -/
def Obligations.CrcUpdatesCompose : Prop :=
  ∀ (c : CrcUnit) (x z : Bits), UnitInv c → lifeOf c.cfg = true → refinOf c.cfg = false ∨ x.length % 8 = 0 →
    (c.withAcc (c.updated x)).updated z = c.updated (x ++ z)

/-- Rule R149: a unit loaded with any preset but CRC32 gives that preset's CRC.CALC result with mask 0, through CRC.CFG,
CRC.INIT, CRC.UPD and CRC.DIG; each of the five commands completes with OK = 1 and no error (rule R157). -/
def Obligations.LoadedUnitGivesTheCalcResult : Prop :=
  ∀ (p : Preset) (u : UnitId) (s : State), p ≠ .crc32 → s.inputLength ≤ Config.ibufBits →
    CalcLength p s.inputLength →
    let sCalc := { s with aux0 := 0 }
    ∃ t₁ t₂ t₃ t₄ t,
      (exec (.crcCfg p u) s = .next t₁ ∧ Completes true s t₁) ∧
      (exec (.crcInit u) t₁ = .next t₂ ∧ Completes true t₁ t₂) ∧
      (exec (.crcUpd u) t₂ = .next t₃ ∧ Completes true t₂ t₃) ∧
      (exec (.crcDig u) t₃ = .next t₄ ∧ Completes true t₃ t₄) ∧
      (exec (.crcCalc p) sCalc = .next t ∧ Completes true sCalc t) ∧
      t₄.result = t.result

/-- Rule R156, linearity of the serial update from 0. -/
def Obligations.SerialUpdateIsLinear : Prop :=
  ∀ (W : Nat) (Q : Word) (x z : Bits), 1 ≤ W → W ≤ 32 → x.length = z.length →
    updateSerial W Q 0 (List.zipWith xor x z) = updateSerial W Q 0 x ^^^ updateSerial W Q 0 z

/-- Rule R156: changing one byte of the input changes the result of CRC8, CRC9, CRC16 and CRC32. -/
def Obligations.SingleByteMutationChangesTheChecksum : Prop :=
  ∀ (p : Preset) (x e : Bits) (j : Nat) (mask : Word), p ≠ .crc7 → CalcLength p x.length → 8 * j + 8 ≤ x.length →
    e.length = 8 → e ≠ List.replicate 8 false →
    presetValue p (x.take (8 * j) ++ List.zipWith xor ((x.drop (8 * j)).take 8) e ++ x.drop (8 * j + 8)) mask ≠
      presetValue p x mask

/-! ### Rules about every command -/

/-- Rule R56: "IBUF bits at index ILEN or above do not affect any command", and OBUF bits at index OLEN or above keep
what they hold. -/
def Obligations.CommandsReadBelowIlenAndWriteBelowOlen : Prop :=
  ∀ (i : Instr) (s t : State), exec i s = .next t →
    (∀ m : Memory, (∀ k < s.ilen.toNat, (s.setIbuf m).ibufBit k = s.ibufBit k) →
      exec i (s.setIbuf m) = .next (t.setIbuf m)) ∧
    ∀ k, t.olen.toNat ≤ k → t.obufBit k = s.obufBit k

/-- Rule R38: "A command never reads STATUS": only STICKY of the new STATUS can depend on the old one. -/
def Obligations.CommandsNeverReadStatus : Prop :=
  ∀ (i : Instr) (s t : State) (v : Word), exec i s = .next t →
    ∃ v', exec i (s.setStatus v) = .next (t.setStatus v') ∧ okOf v' = okOf t.status ∧ errOf v' = errOf t.status

/-- Rules R16, R19, R20 and R21: no command writes ILEN, AUX0, AUX1 or IBUF; the last three clauses are about the model's
own fields (log entries 1 and 3). -/
def Obligations.NoCommandWritesItsOperands : Prop :=
  ∀ (i : Instr) (s t : State), exec i s = .next t →
    t.ilen = s.ilen ∧ t.aux0 = s.aux0 ∧ t.aux1 = s.aux1 ∧ (∀ k, t.ibufBit k = s.ibufBit k) ∧
      t.pending = s.pending ∧ t.reply = s.reply ∧ t.resets = s.resets

/-- Rules R3, R26 and R29: a unit is written only by the CRC commands on that unit, its accumulator only by INIT, UPD and
REV, its configuration values (POLY, INIT, XOROUT and CFG's WIDTH, REFIN and REFOUT) only by CFG, and MODE by no command
(rule R149). -/
def Obligations.UnitsAreWrittenOnlyByTheirOwnCommands : Prop :=
  ∀ (i : Instr) (s t : State) (u : UnitId), exec i s = .next t →
    let c := s.crcUnit u
    let c' := t.crcUnit u
    ((∀ p, i ≠ .crcCfg p u) → i ≠ .crcInit u → i ≠ .crcUpd u → i ≠ .crcRev u → c' = c) ∧
      (i ≠ .crcInit u → i ≠ .crcUpd u → i ≠ .crcRev u → c'.acc = c.acc) ∧
      ((∀ p, i ≠ .crcCfg p u) → c'.poly = c.poly ∧ c'.init = c.init ∧ c'.xorout = c.xorout ∧
        widthOf c'.cfg = widthOf c.cfg ∧ refinOf c'.cfg = refinOf c.cfg ∧ refoutOf c'.cfg = refoutOf c.cfg) ∧
      modeOf c'.cfg = modeOf c.cfg
end

