-- ==== Sys2Proof/Laws/Bits.lean ====
section
/-! SUPPORT. The laws of bit sequences, and of the two list operations gather and scatter. -/

namespace Sys2Proof.Machine

/-! ### int and bits (rule R8) -/

@[simp] theorem length_bitsOf (W v : Nat) : (bitsOf W v).length = W := by simp [bitsOf]

theorem getElem_bitsOf {W v i : Nat} (h : i < (bitsOf W v).length) :
    (bitsOf W v)[i] = v.testBit (W - 1 - i) := by simp [bitsOf]

theorem foldl_intOf (s : Bits) : ∀ v : Nat,
    s.foldl (fun v b => 2 * v + b.toNat) v = v * 2 ^ s.length + intOf s := by
  induction s with
  | nil => intro v; simp [intOf]
  | cons b s ih =>
    intro v
    simp only [List.foldl_cons, intOf, List.length_cons]
    rw [ih, ih (2 * 0 + b.toNat)]
    ring

theorem intOf_cons (b : Bool) (s : Bits) : intOf (b :: s) = b.toNat * 2 ^ s.length + intOf s := by
  simp only [intOf, List.foldl_cons]
  rw [foldl_intOf]
  simp [intOf]

theorem intOf_append (s t : Bits) : intOf (s ++ t) = intOf s * 2 ^ t.length + intOf t := by
  simp only [intOf, List.foldl_append]
  exact foldl_intOf t _

theorem intOf_lt (s : Bits) : intOf s < 2 ^ s.length := by
  induction s with
  | nil => simp [intOf]
  | cons b s ih =>
    rw [intOf_cons, List.length_cons, pow_succ]
    have : b.toNat ≤ 1 := Bool.toNat_le b
    nlinarith

/-- Bit `len − 1 − i` of the integer of a sequence is its element i. -/
theorem testBit_intOf (s : Bits) (i : Nat) (h : i < s.length) : (intOf s).testBit (s.length - 1 - i) = s[i] := by
  induction s generalizing i with
  | nil => simp at h
  | cons b s ih =>
    rw [intOf_cons, Nat.mul_comm]
    cases i with
    | zero =>
      rw [show (b :: s).length - 1 - 0 = s.length by simp, Nat.testBit_two_pow_mul_add _ (intOf_lt s)]
      cases b <;> simp
    | succ i =>
      simp only [List.length_cons] at h
      have hi : i < s.length := by omega
      rw [show (b :: s).length - 1 - (i + 1) = s.length - 1 - i by simp; omega,
        Nat.testBit_two_pow_mul_add _ (intOf_lt s)]
      simp [show s.length - 1 - i < s.length by omega, ih i hi]

/-- `bits_W` inverts `int` on W-bit sequences (rule R8). -/
theorem bitsOf_intOf (s : Bits) : bitsOf s.length (intOf s) = s := by
  apply List.ext_getElem
  · simp
  · intro i h1 h2
    rw [getElem_bitsOf, testBit_intOf s i h2]

/-! ### Parity and the zero test -/

theorem foldl_xor (s : Bits) : ∀ a : Bool, s.foldl xor a = xor a (parity s) := by
  induction s with
  | nil => intro a; simp [parity]
  | cons b s ih =>
    intro a
    simp only [List.foldl_cons, parity]
    rw [ih, ih (xor false b)]
    cases a <;> cases b <;> simp

@[simp] theorem parity_nil : parity [] = false := rfl

@[simp] theorem parity_cons (b : Bool) (s : Bits) : parity (b :: s) = xor b (parity s) := by
  simp only [parity, List.foldl_cons]
  rw [foldl_xor]
  simp [parity]

@[simp] theorem parity_append (s t : Bits) : parity (s ++ t) = xor (parity s) (parity t) := by
  simp only [parity, List.foldl_append]
  rw [foldl_xor]
  rfl

/-- A parity is the sum of the bits mod 2. -/
theorem parity_eq_sum (s : Bits) : (parity s).toNat = (s.map Bool.toNat).sum % 2 := by
  induction s with
  | nil => rfl
  | cons b s ih => cases b <;> cases hp : parity s <;> simp [hp] at ih ⊢ <;> omega

/-- The parity of an indexed family of bits as a finite sum. -/
theorem parity_map_range (f : Nat → Bool) (n : Nat) :
    (parity ((List.range n).map f)).toNat = (∑ i ∈ Finset.range n, (f i).toNat) % 2 := by
  rw [parity_eq_sum]
  congr 1
  induction n with
  | zero => simp
  | succ n ih =>
    rw [Finset.sum_range_succ, ← ih]
    simp [List.range_succ]

theorem allZero_iff (s : Bits) : allZero s = true ↔ ∀ b ∈ s, b = false := by simp [allZero]

/-! ### gather and scatter -/

section
variable {α : Type}

@[simp] theorem length_gather [Inhabited α] (xs : List α) (idx : List Nat) : (gather xs idx).length = idx.length := by
  simp [gather]

theorem getElem_gather [Inhabited α] (xs : List α) (idx : List Nat) {j : Nat} (h : j < (gather xs idx).length) :
    (gather xs idx)[j] = xs.getD (idx[j]'(by simpa using h)) default := by simp [gather]

@[simp] theorem scatter_nil (xs : List α) (vals : List α) : scatter xs [] vals = xs := rfl

theorem scatter_cons (xs : List α) (i : Nat) (idx : List Nat) (v : α) (vals : List α) :
    scatter xs (i :: idx) (v :: vals) = scatter (xs.set i v) idx vals := rfl

@[simp] theorem length_scatter (idx : List Nat) : ∀ (xs vals : List α), (scatter xs idx vals).length = xs.length := by
  induction idx with
  | nil => intros; rfl
  | cons i idx ih =>
    intro xs vals
    cases vals with
    | nil => rfl
    | cons v vals => rw [scatter_cons, ih, List.length_set]

/-- An index that is not written keeps its value. -/
theorem getElem?_scatter_of_notMem (idx : List Nat) :
    ∀ (xs vals : List α) {p : Nat}, p ∉ idx → (scatter xs idx vals)[p]? = xs[p]? := by
  induction idx with
  | nil => intros; rfl
  | cons i idx ih =>
    intro xs vals p hp
    cases vals with
    | nil => rfl
    | cons v vals =>
      simp only [List.mem_cons, not_or] at hp
      rw [scatter_cons, ih _ _ hp.2, List.getElem?_set_ne (fun h => hp.1 h.symm)]

/-- The value written at the j-th of distinct indices. -/
theorem getElem?_scatter_of_nodup (idx : List Nat) :
    ∀ (xs vals : List α), idx.Nodup → idx.length = vals.length → (∀ i ∈ idx, i < xs.length) →
      ∀ j (hj : j < idx.length), (scatter xs idx vals)[idx[j]]? = vals[j]? := by
  induction idx with
  | nil => intro _ _ _ _ _ j hj; simp at hj
  | cons i idx ih =>
    intro xs vals hn hl hb j hj
    cases vals with
    | nil => simp at hl
    | cons v vals =>
      rw [List.nodup_cons] at hn
      rw [scatter_cons]
      cases j with
      | zero =>
        have hi := hb i (by simp)
        simp only [List.getElem_cons_zero, List.getElem?_cons_zero]
        rw [getElem?_scatter_of_notMem idx _ _ hn.1, List.getElem?_set_self hi]
      | succ j =>
        simp only [List.getElem_cons_succ, List.getElem?_cons_succ]
        exact ih _ _ hn.2 (by simpa using hl) (fun k hk => by simpa using hb k (by simp [hk])) j (by simpa using hj)

/-- Gathering what was scattered over distinct indices in range gives the values back. -/
theorem gather_scatter [Inhabited α] (xs : List α) (idx : List Nat) (vals : List α) (hn : idx.Nodup)
    (hl : idx.length = vals.length) (hb : ∀ i ∈ idx, i < xs.length) : gather (scatter xs idx vals) idx = vals := by
  apply List.ext_getElem
  · simpa using hl
  · intro j h1 h2
    have hj : j < idx.length := by simpa using h1
    rw [getElem_gather, List.getD_eq_getElem?_getD, getElem?_scatter_of_nodup idx xs vals hn hl hb j hj,
      List.getElem?_eq_getElem h2]
    rfl

/-- Gathering from indices disjoint from the scattered ones sees the old values. -/
theorem gather_scatter_disjoint [Inhabited α] (xs : List α) (idx idx' : List Nat) (vals : List α)
    (hd : ∀ i ∈ idx', i ∉ idx) : gather (scatter xs idx vals) idx' = gather xs idx' := by
  simp only [gather]
  apply List.map_congr_left
  intro i hi
  simp only [List.getD_eq_getElem?_getD, getElem?_scatter_of_notMem idx xs vals (hd i hi)]

end

end Sys2Proof.Machine
end

