-- ==== Sys2Proof/Laws/Flags.lean ====
section
/-! SUPPORT. The fields of a STATUS word and of a CFG word built from fields. -/

namespace Sys2Proof.Machine

@[simp] theorem okOf_statusWord (ok sticky : Bool) (err : BitVec 4) : okOf (statusWord ok err sticky) = ok := by
  revert ok sticky err; decide

@[simp] theorem errOf_statusWord (ok sticky : Bool) (err : BitVec 4) : errOf (statusWord ok err sticky) = err := by
  revert ok sticky err; decide

@[simp] theorem stickyOf_statusWord (ok sticky : Bool) (err : BitVec 4) :
    stickyOf (statusWord ok err sticky) = sticky := by
  revert ok sticky err; decide

/-- The reserved bits of a STATUS word are 0 (rule R15). -/
theorem statusWord_reserved (ok sticky : Bool) (err : BitVec 4) :
    statusWord ok err sticky &&& 0xFFFF7F0E#32 = 0#32 := by
  revert ok sticky err; decide

/-- Every field of a CFG word built from fields. -/
theorem cfgWord_fields : ∀ (x : BitVec 6) (ri ro mode life : Bool),
    let c : Word := BitVec.ofBool life ++ (0#20) ++ BitVec.ofBool mode ++ BitVec.ofBool ro ++ BitVec.ofBool ri ++
      (0#2) ++ x
    c.extractLsb' 0 6 = x ∧ c.getLsbD 8 = ri ∧ c.getLsbD 9 = ro ∧ c.getLsbD 10 = mode ∧ c.getLsbD 31 = life ∧
      c &&& 0x7FFFF8C0#32 = 0#32 := by
  decide +kernel

section
variable (w : Nat) (ri ro mode life : Bool)

@[simp] theorem widthOf_cfgWord : widthOf (cfgWord w ri ro mode life) = w % 64 := by
  have h : (cfgWord w ri ro mode life).extractLsb' 0 6 = BitVec.ofNat 6 w := (cfgWord_fields _ _ _ _ _).1
  rw [widthOf, h, BitVec.toNat_ofNat]

@[simp] theorem refinOf_cfgWord : refinOf (cfgWord w ri ro mode life) = ri := (cfgWord_fields _ _ _ _ _).2.1

@[simp] theorem refoutOf_cfgWord : refoutOf (cfgWord w ri ro mode life) = ro := (cfgWord_fields _ _ _ _ _).2.2.1

@[simp] theorem modeOf_cfgWord : modeOf (cfgWord w ri ro mode life) = mode := (cfgWord_fields _ _ _ _ _).2.2.2.1

@[simp] theorem lifeOf_cfgWord : lifeOf (cfgWord w ri ro mode life) = life := (cfgWord_fields _ _ _ _ _).2.2.2.2.1

/-- The reserved bits of a CFG word are 0 (rule R24). -/
theorem cfgWord_reserved : cfgWord w ri ro mode life &&& 0x7FFFF8C0#32 = 0#32 := (cfgWord_fields _ _ _ _ _).2.2.2.2.2

end

theorem widthOf_lt (cfg : Word) : widthOf cfg < 64 := (cfg.extractLsb' 0 6).isLt

@[simp] theorem widthOf_withLife (life : Bool) (cfg : Word) : widthOf (withLife life cfg) = widthOf cfg := by
  simp [withLife, Nat.mod_eq_of_lt (widthOf_lt cfg)]

@[simp] theorem lifeOf_withLife (life : Bool) (cfg : Word) : lifeOf (withLife life cfg) = life := by simp [withLife]

@[simp] theorem modeOf_withLife (life : Bool) (cfg : Word) : modeOf (withLife life cfg) = modeOf cfg := by
  simp [withLife]

@[simp] theorem refinOf_withLife (life : Bool) (cfg : Word) : refinOf (withLife life cfg) = refinOf cfg := by
  simp [withLife]

@[simp] theorem refoutOf_withLife (life : Bool) (cfg : Word) : refoutOf (withLife life cfg) = refoutOf cfg := by
  simp [withLife]

/-- STATUS after a completion. -/
@[simp] theorem okOf_completedStatus (b : Bool) (st : Word) : okOf (completedStatus b st) = b := by
  simp [completedStatus]

@[simp] theorem errOf_completedStatus (b : Bool) (st : Word) : errOf (completedStatus b st) = 0 := by
  simp [completedStatus]

@[simp] theorem stickyOf_completedStatus (b : Bool) (st : Word) : stickyOf (completedStatus b st) = stickyOf st := by
  simp [completedStatus]

end Sys2Proof.Machine
end

