-- ==== Sys2Proof/Laws/State.lean ====
section
/-! SUPPORT. One lemma per field per update of State, so that no proof unfolds a record update. -/

namespace Sys2Proof.Machine

variable (s : State)

/-! ### setStatus -/

@[simp] theorem State.setStatus_status (v : Word) : (State.setStatus v s).status = v := rfl
@[simp] theorem State.setStatus_ilen (v : Word) : (State.setStatus v s).ilen = s.ilen := rfl
@[simp] theorem State.setStatus_olen (v : Word) : (State.setStatus v s).olen = s.olen := rfl
@[simp] theorem State.setStatus_result (v : Word) : (State.setStatus v s).result = s.result := rfl
@[simp] theorem State.setStatus_aux0 (v : Word) : (State.setStatus v s).aux0 = s.aux0 := rfl
@[simp] theorem State.setStatus_aux1 (v : Word) : (State.setStatus v s).aux1 = s.aux1 := rfl
@[simp] theorem State.setStatus_ibuf (v : Word) : (State.setStatus v s).ibuf = s.ibuf := rfl
@[simp] theorem State.setStatus_obuf (v : Word) : (State.setStatus v s).obuf = s.obuf := rfl
@[simp] theorem State.setStatus_units (v : Word) : (State.setStatus v s).units = s.units := rfl
@[simp] theorem State.setStatus_pending (v : Word) : (State.setStatus v s).pending = s.pending := rfl
@[simp] theorem State.setStatus_reply (v : Word) : (State.setStatus v s).reply = s.reply := rfl
@[simp] theorem State.setStatus_resets (v : Word) : (State.setStatus v s).resets = s.resets := rfl
@[simp] theorem State.setStatus_crcUnit (v : Word) (u : UnitId) : (State.setStatus v s).crcUnit u = s.crcUnit u := rfl
@[simp] theorem State.setStatus_ibufBit (v : Word) (i : Nat) : (State.setStatus v s).ibufBit i = s.ibufBit i := rfl
@[simp] theorem State.setStatus_obufBit (v : Word) (i : Nat) : (State.setStatus v s).obufBit i = s.obufBit i := rfl

/-! ### setIlen -/

@[simp] theorem State.setIlen_status (v : Word) : (State.setIlen v s).status = s.status := rfl
@[simp] theorem State.setIlen_ilen (v : Word) : (State.setIlen v s).ilen = v := rfl
@[simp] theorem State.setIlen_olen (v : Word) : (State.setIlen v s).olen = s.olen := rfl
@[simp] theorem State.setIlen_result (v : Word) : (State.setIlen v s).result = s.result := rfl
@[simp] theorem State.setIlen_aux0 (v : Word) : (State.setIlen v s).aux0 = s.aux0 := rfl
@[simp] theorem State.setIlen_aux1 (v : Word) : (State.setIlen v s).aux1 = s.aux1 := rfl
@[simp] theorem State.setIlen_ibuf (v : Word) : (State.setIlen v s).ibuf = s.ibuf := rfl
@[simp] theorem State.setIlen_obuf (v : Word) : (State.setIlen v s).obuf = s.obuf := rfl
@[simp] theorem State.setIlen_units (v : Word) : (State.setIlen v s).units = s.units := rfl
@[simp] theorem State.setIlen_pending (v : Word) : (State.setIlen v s).pending = s.pending := rfl
@[simp] theorem State.setIlen_reply (v : Word) : (State.setIlen v s).reply = s.reply := rfl
@[simp] theorem State.setIlen_resets (v : Word) : (State.setIlen v s).resets = s.resets := rfl
@[simp] theorem State.setIlen_crcUnit (v : Word) (u : UnitId) : (State.setIlen v s).crcUnit u = s.crcUnit u := rfl
@[simp] theorem State.setIlen_ibufBit (v : Word) (i : Nat) : (State.setIlen v s).ibufBit i = s.ibufBit i := rfl
@[simp] theorem State.setIlen_obufBit (v : Word) (i : Nat) : (State.setIlen v s).obufBit i = s.obufBit i := rfl

/-! ### setOlen -/

@[simp] theorem State.setOlen_status (v : Word) : (State.setOlen v s).status = s.status := rfl
@[simp] theorem State.setOlen_ilen (v : Word) : (State.setOlen v s).ilen = s.ilen := rfl
@[simp] theorem State.setOlen_olen (v : Word) : (State.setOlen v s).olen = v := rfl
@[simp] theorem State.setOlen_result (v : Word) : (State.setOlen v s).result = s.result := rfl
@[simp] theorem State.setOlen_aux0 (v : Word) : (State.setOlen v s).aux0 = s.aux0 := rfl
@[simp] theorem State.setOlen_aux1 (v : Word) : (State.setOlen v s).aux1 = s.aux1 := rfl
@[simp] theorem State.setOlen_ibuf (v : Word) : (State.setOlen v s).ibuf = s.ibuf := rfl
@[simp] theorem State.setOlen_obuf (v : Word) : (State.setOlen v s).obuf = s.obuf := rfl
@[simp] theorem State.setOlen_units (v : Word) : (State.setOlen v s).units = s.units := rfl
@[simp] theorem State.setOlen_pending (v : Word) : (State.setOlen v s).pending = s.pending := rfl
@[simp] theorem State.setOlen_reply (v : Word) : (State.setOlen v s).reply = s.reply := rfl
@[simp] theorem State.setOlen_resets (v : Word) : (State.setOlen v s).resets = s.resets := rfl
@[simp] theorem State.setOlen_crcUnit (v : Word) (u : UnitId) : (State.setOlen v s).crcUnit u = s.crcUnit u := rfl
@[simp] theorem State.setOlen_ibufBit (v : Word) (i : Nat) : (State.setOlen v s).ibufBit i = s.ibufBit i := rfl
@[simp] theorem State.setOlen_obufBit (v : Word) (i : Nat) : (State.setOlen v s).obufBit i = s.obufBit i := rfl

/-! ### setResult -/

@[simp] theorem State.setResult_status (v : Word) : (State.setResult v s).status = s.status := rfl
@[simp] theorem State.setResult_ilen (v : Word) : (State.setResult v s).ilen = s.ilen := rfl
@[simp] theorem State.setResult_olen (v : Word) : (State.setResult v s).olen = s.olen := rfl
@[simp] theorem State.setResult_result (v : Word) : (State.setResult v s).result = v := rfl
@[simp] theorem State.setResult_aux0 (v : Word) : (State.setResult v s).aux0 = s.aux0 := rfl
@[simp] theorem State.setResult_aux1 (v : Word) : (State.setResult v s).aux1 = s.aux1 := rfl
@[simp] theorem State.setResult_ibuf (v : Word) : (State.setResult v s).ibuf = s.ibuf := rfl
@[simp] theorem State.setResult_obuf (v : Word) : (State.setResult v s).obuf = s.obuf := rfl
@[simp] theorem State.setResult_units (v : Word) : (State.setResult v s).units = s.units := rfl
@[simp] theorem State.setResult_pending (v : Word) : (State.setResult v s).pending = s.pending := rfl
@[simp] theorem State.setResult_reply (v : Word) : (State.setResult v s).reply = s.reply := rfl
@[simp] theorem State.setResult_resets (v : Word) : (State.setResult v s).resets = s.resets := rfl
@[simp] theorem State.setResult_crcUnit (v : Word) (u : UnitId) : (State.setResult v s).crcUnit u = s.crcUnit u := rfl
@[simp] theorem State.setResult_ibufBit (v : Word) (i : Nat) : (State.setResult v s).ibufBit i = s.ibufBit i := rfl
@[simp] theorem State.setResult_obufBit (v : Word) (i : Nat) : (State.setResult v s).obufBit i = s.obufBit i := rfl

/-! ### setAux0 -/

@[simp] theorem State.setAux0_status (v : Word) : (State.setAux0 v s).status = s.status := rfl
@[simp] theorem State.setAux0_ilen (v : Word) : (State.setAux0 v s).ilen = s.ilen := rfl
@[simp] theorem State.setAux0_olen (v : Word) : (State.setAux0 v s).olen = s.olen := rfl
@[simp] theorem State.setAux0_result (v : Word) : (State.setAux0 v s).result = s.result := rfl
@[simp] theorem State.setAux0_aux0 (v : Word) : (State.setAux0 v s).aux0 = v := rfl
@[simp] theorem State.setAux0_aux1 (v : Word) : (State.setAux0 v s).aux1 = s.aux1 := rfl
@[simp] theorem State.setAux0_ibuf (v : Word) : (State.setAux0 v s).ibuf = s.ibuf := rfl
@[simp] theorem State.setAux0_obuf (v : Word) : (State.setAux0 v s).obuf = s.obuf := rfl
@[simp] theorem State.setAux0_units (v : Word) : (State.setAux0 v s).units = s.units := rfl
@[simp] theorem State.setAux0_pending (v : Word) : (State.setAux0 v s).pending = s.pending := rfl
@[simp] theorem State.setAux0_reply (v : Word) : (State.setAux0 v s).reply = s.reply := rfl
@[simp] theorem State.setAux0_resets (v : Word) : (State.setAux0 v s).resets = s.resets := rfl
@[simp] theorem State.setAux0_crcUnit (v : Word) (u : UnitId) : (State.setAux0 v s).crcUnit u = s.crcUnit u := rfl
@[simp] theorem State.setAux0_ibufBit (v : Word) (i : Nat) : (State.setAux0 v s).ibufBit i = s.ibufBit i := rfl
@[simp] theorem State.setAux0_obufBit (v : Word) (i : Nat) : (State.setAux0 v s).obufBit i = s.obufBit i := rfl

/-! ### setAux1 -/

@[simp] theorem State.setAux1_status (v : Word) : (State.setAux1 v s).status = s.status := rfl
@[simp] theorem State.setAux1_ilen (v : Word) : (State.setAux1 v s).ilen = s.ilen := rfl
@[simp] theorem State.setAux1_olen (v : Word) : (State.setAux1 v s).olen = s.olen := rfl
@[simp] theorem State.setAux1_result (v : Word) : (State.setAux1 v s).result = s.result := rfl
@[simp] theorem State.setAux1_aux0 (v : Word) : (State.setAux1 v s).aux0 = s.aux0 := rfl
@[simp] theorem State.setAux1_aux1 (v : Word) : (State.setAux1 v s).aux1 = v := rfl
@[simp] theorem State.setAux1_ibuf (v : Word) : (State.setAux1 v s).ibuf = s.ibuf := rfl
@[simp] theorem State.setAux1_obuf (v : Word) : (State.setAux1 v s).obuf = s.obuf := rfl
@[simp] theorem State.setAux1_units (v : Word) : (State.setAux1 v s).units = s.units := rfl
@[simp] theorem State.setAux1_pending (v : Word) : (State.setAux1 v s).pending = s.pending := rfl
@[simp] theorem State.setAux1_reply (v : Word) : (State.setAux1 v s).reply = s.reply := rfl
@[simp] theorem State.setAux1_resets (v : Word) : (State.setAux1 v s).resets = s.resets := rfl
@[simp] theorem State.setAux1_crcUnit (v : Word) (u : UnitId) : (State.setAux1 v s).crcUnit u = s.crcUnit u := rfl
@[simp] theorem State.setAux1_ibufBit (v : Word) (i : Nat) : (State.setAux1 v s).ibufBit i = s.ibufBit i := rfl
@[simp] theorem State.setAux1_obufBit (v : Word) (i : Nat) : (State.setAux1 v s).obufBit i = s.obufBit i := rfl

/-! ### setIbuf -/

@[simp] theorem State.setIbuf_status (v : Memory) : (State.setIbuf v s).status = s.status := rfl
@[simp] theorem State.setIbuf_ilen (v : Memory) : (State.setIbuf v s).ilen = s.ilen := rfl
@[simp] theorem State.setIbuf_olen (v : Memory) : (State.setIbuf v s).olen = s.olen := rfl
@[simp] theorem State.setIbuf_result (v : Memory) : (State.setIbuf v s).result = s.result := rfl
@[simp] theorem State.setIbuf_aux0 (v : Memory) : (State.setIbuf v s).aux0 = s.aux0 := rfl
@[simp] theorem State.setIbuf_aux1 (v : Memory) : (State.setIbuf v s).aux1 = s.aux1 := rfl
@[simp] theorem State.setIbuf_ibuf (v : Memory) : (State.setIbuf v s).ibuf = v := rfl
@[simp] theorem State.setIbuf_obuf (v : Memory) : (State.setIbuf v s).obuf = s.obuf := rfl
@[simp] theorem State.setIbuf_units (v : Memory) : (State.setIbuf v s).units = s.units := rfl
@[simp] theorem State.setIbuf_pending (v : Memory) : (State.setIbuf v s).pending = s.pending := rfl
@[simp] theorem State.setIbuf_reply (v : Memory) : (State.setIbuf v s).reply = s.reply := rfl
@[simp] theorem State.setIbuf_resets (v : Memory) : (State.setIbuf v s).resets = s.resets := rfl
@[simp] theorem State.setIbuf_crcUnit (v : Memory) (u : UnitId) : (State.setIbuf v s).crcUnit u = s.crcUnit u := rfl
@[simp] theorem State.setIbuf_obufBit (v : Memory) (i : Nat) : (State.setIbuf v s).obufBit i = s.obufBit i := rfl

/-! ### setObuf -/

@[simp] theorem State.setObuf_status (v : Memory) : (State.setObuf v s).status = s.status := rfl
@[simp] theorem State.setObuf_ilen (v : Memory) : (State.setObuf v s).ilen = s.ilen := rfl
@[simp] theorem State.setObuf_olen (v : Memory) : (State.setObuf v s).olen = s.olen := rfl
@[simp] theorem State.setObuf_result (v : Memory) : (State.setObuf v s).result = s.result := rfl
@[simp] theorem State.setObuf_aux0 (v : Memory) : (State.setObuf v s).aux0 = s.aux0 := rfl
@[simp] theorem State.setObuf_aux1 (v : Memory) : (State.setObuf v s).aux1 = s.aux1 := rfl
@[simp] theorem State.setObuf_ibuf (v : Memory) : (State.setObuf v s).ibuf = s.ibuf := rfl
@[simp] theorem State.setObuf_obuf (v : Memory) : (State.setObuf v s).obuf = v := rfl
@[simp] theorem State.setObuf_units (v : Memory) : (State.setObuf v s).units = s.units := rfl
@[simp] theorem State.setObuf_pending (v : Memory) : (State.setObuf v s).pending = s.pending := rfl
@[simp] theorem State.setObuf_reply (v : Memory) : (State.setObuf v s).reply = s.reply := rfl
@[simp] theorem State.setObuf_resets (v : Memory) : (State.setObuf v s).resets = s.resets := rfl
@[simp] theorem State.setObuf_crcUnit (v : Memory) (u : UnitId) : (State.setObuf v s).crcUnit u = s.crcUnit u := rfl
@[simp] theorem State.setObuf_ibufBit (v : Memory) (i : Nat) : (State.setObuf v s).ibufBit i = s.ibufBit i := rfl

/-! ### setUnits -/

@[simp] theorem State.setUnits_status (v : Vector CrcUnit Config.nCrc) : (State.setUnits v s).status = s.status := rfl
@[simp] theorem State.setUnits_ilen (v : Vector CrcUnit Config.nCrc) : (State.setUnits v s).ilen = s.ilen := rfl
@[simp] theorem State.setUnits_olen (v : Vector CrcUnit Config.nCrc) : (State.setUnits v s).olen = s.olen := rfl
@[simp] theorem State.setUnits_result (v : Vector CrcUnit Config.nCrc) : (State.setUnits v s).result = s.result := rfl
@[simp] theorem State.setUnits_aux0 (v : Vector CrcUnit Config.nCrc) : (State.setUnits v s).aux0 = s.aux0 := rfl
@[simp] theorem State.setUnits_aux1 (v : Vector CrcUnit Config.nCrc) : (State.setUnits v s).aux1 = s.aux1 := rfl
@[simp] theorem State.setUnits_ibuf (v : Vector CrcUnit Config.nCrc) : (State.setUnits v s).ibuf = s.ibuf := rfl
@[simp] theorem State.setUnits_obuf (v : Vector CrcUnit Config.nCrc) : (State.setUnits v s).obuf = s.obuf := rfl
@[simp] theorem State.setUnits_units (v : Vector CrcUnit Config.nCrc) : (State.setUnits v s).units = v := rfl
@[simp] theorem State.setUnits_pending (v : Vector CrcUnit Config.nCrc) : (State.setUnits v s).pending = s.pending := rfl
@[simp] theorem State.setUnits_reply (v : Vector CrcUnit Config.nCrc) : (State.setUnits v s).reply = s.reply := rfl
@[simp] theorem State.setUnits_resets (v : Vector CrcUnit Config.nCrc) : (State.setUnits v s).resets = s.resets := rfl
@[simp] theorem State.setUnits_ibufBit (v : Vector CrcUnit Config.nCrc) (i : Nat) : (State.setUnits v s).ibufBit i = s.ibufBit i := rfl
@[simp] theorem State.setUnits_obufBit (v : Vector CrcUnit Config.nCrc) (i : Nat) : (State.setUnits v s).obufBit i = s.obufBit i := rfl

/-! ### setPending -/

@[simp] theorem State.setPending_status (v : List HostEvent) : (State.setPending v s).status = s.status := rfl
@[simp] theorem State.setPending_ilen (v : List HostEvent) : (State.setPending v s).ilen = s.ilen := rfl
@[simp] theorem State.setPending_olen (v : List HostEvent) : (State.setPending v s).olen = s.olen := rfl
@[simp] theorem State.setPending_result (v : List HostEvent) : (State.setPending v s).result = s.result := rfl
@[simp] theorem State.setPending_aux0 (v : List HostEvent) : (State.setPending v s).aux0 = s.aux0 := rfl
@[simp] theorem State.setPending_aux1 (v : List HostEvent) : (State.setPending v s).aux1 = s.aux1 := rfl
@[simp] theorem State.setPending_ibuf (v : List HostEvent) : (State.setPending v s).ibuf = s.ibuf := rfl
@[simp] theorem State.setPending_obuf (v : List HostEvent) : (State.setPending v s).obuf = s.obuf := rfl
@[simp] theorem State.setPending_units (v : List HostEvent) : (State.setPending v s).units = s.units := rfl
@[simp] theorem State.setPending_pending (v : List HostEvent) : (State.setPending v s).pending = v := rfl
@[simp] theorem State.setPending_reply (v : List HostEvent) : (State.setPending v s).reply = s.reply := rfl
@[simp] theorem State.setPending_resets (v : List HostEvent) : (State.setPending v s).resets = s.resets := rfl
@[simp] theorem State.setPending_crcUnit (v : List HostEvent) (u : UnitId) : (State.setPending v s).crcUnit u = s.crcUnit u := rfl
@[simp] theorem State.setPending_ibufBit (v : List HostEvent) (i : Nat) : (State.setPending v s).ibufBit i = s.ibufBit i := rfl
@[simp] theorem State.setPending_obufBit (v : List HostEvent) (i : Nat) : (State.setPending v s).obufBit i = s.obufBit i := rfl

/-! ### setReply -/

@[simp] theorem State.setReply_status (v : BusReply) : (State.setReply v s).status = s.status := rfl
@[simp] theorem State.setReply_ilen (v : BusReply) : (State.setReply v s).ilen = s.ilen := rfl
@[simp] theorem State.setReply_olen (v : BusReply) : (State.setReply v s).olen = s.olen := rfl
@[simp] theorem State.setReply_result (v : BusReply) : (State.setReply v s).result = s.result := rfl
@[simp] theorem State.setReply_aux0 (v : BusReply) : (State.setReply v s).aux0 = s.aux0 := rfl
@[simp] theorem State.setReply_aux1 (v : BusReply) : (State.setReply v s).aux1 = s.aux1 := rfl
@[simp] theorem State.setReply_ibuf (v : BusReply) : (State.setReply v s).ibuf = s.ibuf := rfl
@[simp] theorem State.setReply_obuf (v : BusReply) : (State.setReply v s).obuf = s.obuf := rfl
@[simp] theorem State.setReply_units (v : BusReply) : (State.setReply v s).units = s.units := rfl
@[simp] theorem State.setReply_pending (v : BusReply) : (State.setReply v s).pending = s.pending := rfl
@[simp] theorem State.setReply_reply (v : BusReply) : (State.setReply v s).reply = v := rfl
@[simp] theorem State.setReply_resets (v : BusReply) : (State.setReply v s).resets = s.resets := rfl
@[simp] theorem State.setReply_crcUnit (v : BusReply) (u : UnitId) : (State.setReply v s).crcUnit u = s.crcUnit u := rfl
@[simp] theorem State.setReply_ibufBit (v : BusReply) (i : Nat) : (State.setReply v s).ibufBit i = s.ibufBit i := rfl
@[simp] theorem State.setReply_obufBit (v : BusReply) (i : Nat) : (State.setReply v s).obufBit i = s.obufBit i := rfl

/-! ### setUnit -/

@[simp] theorem State.setUnit_status (u : UnitId) (c : CrcUnit) : (s.setUnit u c).status = s.status := rfl
@[simp] theorem State.setUnit_ilen (u : UnitId) (c : CrcUnit) : (s.setUnit u c).ilen = s.ilen := rfl
@[simp] theorem State.setUnit_olen (u : UnitId) (c : CrcUnit) : (s.setUnit u c).olen = s.olen := rfl
@[simp] theorem State.setUnit_result (u : UnitId) (c : CrcUnit) : (s.setUnit u c).result = s.result := rfl
@[simp] theorem State.setUnit_aux0 (u : UnitId) (c : CrcUnit) : (s.setUnit u c).aux0 = s.aux0 := rfl
@[simp] theorem State.setUnit_aux1 (u : UnitId) (c : CrcUnit) : (s.setUnit u c).aux1 = s.aux1 := rfl
@[simp] theorem State.setUnit_ibuf (u : UnitId) (c : CrcUnit) : (s.setUnit u c).ibuf = s.ibuf := rfl
@[simp] theorem State.setUnit_obuf (u : UnitId) (c : CrcUnit) : (s.setUnit u c).obuf = s.obuf := rfl
@[simp] theorem State.setUnit_units (u : UnitId) (c : CrcUnit) : (s.setUnit u c).units = s.units.set u c := rfl
@[simp] theorem State.setUnit_pending (u : UnitId) (c : CrcUnit) : (s.setUnit u c).pending = s.pending := rfl
@[simp] theorem State.setUnit_reply (u : UnitId) (c : CrcUnit) : (s.setUnit u c).reply = s.reply := rfl
@[simp] theorem State.setUnit_resets (u : UnitId) (c : CrcUnit) : (s.setUnit u c).resets = s.resets := rfl
@[simp] theorem State.setUnit_ibufBit (u : UnitId) (c : CrcUnit) (i : Nat) : (s.setUnit u c).ibufBit i = s.ibufBit i := rfl
@[simp] theorem State.setUnit_obufBit (u : UnitId) (c : CrcUnit) (i : Nat) : (s.setUnit u c).obufBit i = s.obufBit i := rfl

/-! ### setOutput -/

@[simp] theorem State.setOutput_status (bs : Bits) : (s.setOutput bs).status = s.status := rfl
@[simp] theorem State.setOutput_ilen (bs : Bits) : (s.setOutput bs).ilen = s.ilen := rfl
@[simp] theorem State.setOutput_olen (bs : Bits) : (s.setOutput bs).olen = BitVec.ofNat 32 bs.length := rfl
@[simp] theorem State.setOutput_result (bs : Bits) : (s.setOutput bs).result = s.result := rfl
@[simp] theorem State.setOutput_aux0 (bs : Bits) : (s.setOutput bs).aux0 = s.aux0 := rfl
@[simp] theorem State.setOutput_aux1 (bs : Bits) : (s.setOutput bs).aux1 = s.aux1 := rfl
@[simp] theorem State.setOutput_ibuf (bs : Bits) : (s.setOutput bs).ibuf = s.ibuf := rfl
@[simp] theorem State.setOutput_obuf (bs : Bits) : (s.setOutput bs).obuf = Memory.write 0 bs s.obuf := rfl
@[simp] theorem State.setOutput_units (bs : Bits) : (s.setOutput bs).units = s.units := rfl
@[simp] theorem State.setOutput_pending (bs : Bits) : (s.setOutput bs).pending = s.pending := rfl
@[simp] theorem State.setOutput_reply (bs : Bits) : (s.setOutput bs).reply = s.reply := rfl
@[simp] theorem State.setOutput_resets (bs : Bits) : (s.setOutput bs).resets = s.resets := rfl
@[simp] theorem State.setOutput_ibufBit (bs : Bits) (i : Nat) : (s.setOutput bs).ibufBit i = s.ibufBit i := rfl
@[simp] theorem State.setOutput_crcUnit (bs : Bits) (u : UnitId) : (s.setOutput bs).crcUnit u = s.crcUnit u := rfl

/-- Reading back the unit just written. -/
@[simp] theorem State.setUnit_crcUnit_same (u : UnitId) (c : CrcUnit) : (s.setUnit u c).crcUnit u = c := by
  simp [State.crcUnit, State.setUnit, Vector.get_eq_getElem]

/-- Writing a unit leaves every other unit alone. -/
theorem State.setUnit_crcUnit_ne (u v : UnitId) (c : CrcUnit) (h : v ≠ u) :
    (s.setUnit u c).crcUnit v = s.crcUnit v := by
  have h' : u.val ≠ v.val := fun e => h (Fin.ext e.symm)
  simp [State.crcUnit, State.setUnit, Vector.get_eq_getElem, h']

/-- Any unit after one unit is written. -/
theorem State.setUnit_crcUnit (u v : UnitId) (c : CrcUnit) :
    (s.setUnit u c).crcUnit v = if v = u then c else s.crcUnit v := by
  by_cases h : v = u
  · subst h; simp
  · simp [h, State.setUnit_crcUnit_ne]

@[simp] theorem State.reset_crcUnit (u : UnitId) : State.reset.crcUnit u = CrcUnit.reset := by
  simp [State.crcUnit, State.reset, Vector.get_eq_getElem]

/-- The input is as long as ILEN says. -/
@[simp] theorem State.length_input : s.input.length = s.inputLength := by simp [State.input]

/-- Bit i of the input is IBUF[i]. -/
theorem State.getD_input (i : Nat) (h : i < s.inputLength) : s.input.getD i false = s.ibufBit i := by
  simp [State.input, List.getD_eq_getElem?_getD, h]

end Sys2Proof.Machine
end

