-- ==== Sys2Proof/Laws/Memory.lean ====
section
/-! SUPPORT. The laws of a bit buffer: a write keeps the canonical form, reads back what was written, and leaves every
other bit alone. -/

namespace Sys2Proof.Machine

@[simp] theorem length_cellsFrom (bs : Bits) : ∀ start, (cellsFrom start bs).length = bs.length := by
  induction bs with
  | nil => intro; rfl
  | cons b bs ih => intro start; simp [cellsFrom, ih]

/-- The keys of consecutive cells. -/
theorem keys_cellsFrom (bs : Bits) : ∀ start, (cellsFrom start bs).map Prod.fst = List.range' start bs.length := by
  induction bs with
  | nil => intro; rfl
  | cons b bs ih => intro start; simp [cellsFrom, ih, List.range'_succ]

theorem mem_cellsFrom_key {start : Nat} {bs : Bits} {c : Nat × Bool} (h : c ∈ cellsFrom start bs) :
    start ≤ c.1 ∧ c.1 < start + bs.length := by
  have := List.mem_map_of_mem (f := Prod.fst) h
  rw [keys_cellsFrom, List.mem_range'_1] at this
  exact this

theorem Memory.wf_iff (cap : Nat) (m : Memory) :
    Memory.wf cap m = true ↔ (m.map Prod.fst).Pairwise (· < ·) ∧ ∀ c ∈ m, c.1 < cap := by
  simp [Memory.wf]

@[simp] theorem Memory.wf_nil (cap : Nat) : Memory.wf cap [] = true := by simp [Memory.wf]

/-- A write within the buffer keeps the canonical form. -/
theorem Memory.wf_write {cap start : Nat} {bs : Bits} {m : Memory} (hm : Memory.wf cap m = true)
    (hlen : start + bs.length ≤ cap) : Memory.wf cap (Memory.write start bs m) = true := by
  rw [Memory.wf_iff] at hm ⊢
  obtain ⟨hp, hc⟩ := hm
  rw [List.pairwise_map] at hp
  constructor
  · rw [List.pairwise_map, Memory.write, List.pairwise_append, List.pairwise_append]
    refine ⟨⟨hp.filter _, ?_, ?_⟩, hp.filter _, ?_⟩
    · rw [← List.pairwise_map (f := Prod.fst) (R := (· < ·)), keys_cellsFrom]
      exact List.pairwise_lt_range'
    · intro a ha b hb
      have ha := (List.mem_filter.1 ha).2
      have hb := mem_cellsFrom_key hb
      simp only [decide_eq_true_eq] at ha
      omega
    · intro a ha b hb
      have hb := (List.mem_filter.1 hb).2
      simp only [decide_eq_true_eq] at hb
      rcases List.mem_append.1 ha with ha | ha
      · have ha := (List.mem_filter.1 ha).2
        simp only [decide_eq_true_eq] at ha
        omega
      · have ha := mem_cellsFrom_key ha
        omega
  · intro c hcm
    rcases List.mem_append.1 hcm with h | h
    · rcases List.mem_append.1 h with h | h
      · exact hc c (List.mem_filter.1 h).1
      · have := mem_cellsFrom_key h
        omega
    · exact hc c (List.mem_filter.1 h).1

theorem lookup_cellsFrom (bs : Bits) :
    ∀ start i, (cellsFrom start bs).lookup i =
      if start ≤ i then bs[i - start]? else none := by
  induction bs with
  | nil => intro start i; simp [cellsFrom]
  | cons b bs ih =>
    intro start i
    by_cases h : i = start
    · subst h; simp [cellsFrom]
    · have hb : (i == start) = false := by simpa using h
      simp only [cellsFrom, List.lookup_cons, hb, ih]
      by_cases hlt : start + 1 ≤ i
      · have : i - start = (i - (start + 1)) + 1 := by omega
        simp [hlt, show start ≤ i by omega, this]
      · simp [hlt, show ¬ start ≤ i by omega]

theorem lookup_filter_of_true {p : Nat × Bool → Bool} {i : Nat} (hp : ∀ b, p (i, b) = true) (m : Memory) :
    (m.filter p).lookup i = m.lookup i := by
  induction m with
  | nil => rfl
  | cons c m ih =>
    obtain ⟨k, b⟩ := c
    by_cases h : i = k
    · subst h; simp [hp]
    · have hb : (i == k) = false := by simpa using h
      by_cases hq : p (k, b) = true <;> simp [hq, List.lookup_cons, hb, ih]

theorem lookup_filter_of_false {p : Nat × Bool → Bool} {i : Nat} (hp : ∀ b, p (i, b) = false) (m : Memory) :
    (m.filter p).lookup i = none := by
  induction m with
  | nil => rfl
  | cons c m ih =>
    obtain ⟨k, b⟩ := c
    by_cases h : i = k
    · subst h; simp [hp, ih]
    · have hb : (i == k) = false := by simpa using h
      by_cases hq : p (k, b) = true <;> simp [hq, List.lookup_cons, hb, ih]

/-- A read after a write: the bit written inside the written range, the old bit outside it. -/
theorem Memory.bit?_write (start : Nat) (bs : Bits) (m : Memory) (i : Nat) :
    Memory.bit? i (Memory.write start bs m) =
      if start ≤ i ∧ i < start + bs.length then bs[i - start]? else Memory.bit? i m := by
  simp only [Memory.bit?, Memory.write, List.lookup_append, lookup_cellsFrom]
  by_cases h1 : start ≤ i
  · rw [lookup_filter_of_false (by intro b; simpa using h1)]
    by_cases h2 : i < start + bs.length
    · have h3 : i - start < bs.length := by omega
      rw [lookup_filter_of_false (p := fun c => decide (start + bs.length ≤ c.1)) (by intro b; simpa using h2)]
      simp [h1, h2, List.getElem?_eq_getElem h3]
    · have h3 : bs.length ≤ i - start := by omega
      rw [lookup_filter_of_true (p := fun c => decide (start + bs.length ≤ c.1)) (by intro b; simpa using h2)]
      simp [h1, h2, List.getElem?_eq_none h3]
  · rw [lookup_filter_of_true (by intro b; simpa using h1),
      lookup_filter_of_false (p := fun c => decide (start + bs.length ≤ c.1)) (by intro b; simp; omega)]
    simp [h1]

/-- OBUF after bit output: the output in `[0 .. len)`, the old bits from there on (rule R22). -/
theorem State.obufBit_setOutput (s : State) (bs : Bits) (i : Nat) :
    (s.setOutput bs).obufBit i = if h : i < bs.length then bs[i] else s.obufBit i := by
  simp only [State.obufBit, State.setOutput_obuf, State.setOutput_resets, Memory.bit?_write, Nat.zero_le, true_and,
    Nat.zero_add, Nat.sub_zero]
  by_cases h : i < bs.length <;> simp [h]

/-- IBUF after a write of consecutive bits. -/
theorem State.ibufBit_setIbuf_write (s : State) (start : Nat) (bs : Bits) (i : Nat) :
    (s.setIbuf (Memory.write start bs s.ibuf)).ibufBit i =
      if start ≤ i ∧ i < start + bs.length then bs.getD (i - start) false else s.ibufBit i := by
  simp only [State.ibufBit, State.setIbuf_ibuf, State.setIbuf_resets, Memory.bit?_write]
  by_cases h : start ≤ i ∧ i < start + bs.length
  · have h3 : i - start < bs.length := by omega
    simp [h, List.getD_eq_getElem?_getD, List.getElem?_eq_getElem h3]
  · simp [h]

/-- The reset memories are in canonical form. -/
theorem Memory.wf_reset :
    Memory.wf Config.ibufBits State.reset.ibuf = true ∧ Memory.wf Config.obufBits State.reset.obuf = true :=
  ⟨Memory.wf_nil _, Memory.wf_nil _⟩

end Sys2Proof.Machine
end

