-- ==== Sys2Proof/Laws/Ops.lean ====
section
/-! SUPPORT. What the shared operations can do: completing, ending in an error, bit output, host events. -/

namespace Sys2Proof.Machine

/-- Completing always gives a next state, the same but for STATUS. -/
theorem complete_eq (b : Bool) (s : State) :
    complete b s = .next { s with status := completedStatus b s.status } := rfl

theorem completedStatus_eq_okWord (b : Bool) (st : Word) : completedStatus b st = okWord b (st.getLsbD 15) := by
  have h : ∀ b k : Bool, statusWord b 0 k = okWord b k := by decide
  exact h b _

/-- A completion of any state is a completion in the words of the rules. -/
theorem complete_completes {b : Bool} {s t u : State} (hs : s.status = u.status) (h : complete b s = .next t) :
    Completes b u t := by
  cases h
  simp only [Completes, State.setStatus_status]
  rw [completedStatus_eq_okWord, hs]

theorem errorStatus_eq_errWord (e : ErrorCode) : errorStatus e = errWord (errorNumber e).toNat := by
  cases e <;> decide

/-- Ending in an error always gives the next state of rule R160. -/
theorem raiseError_eq (e : ErrorCode) (s : State) : raiseError e s = .next (errored (errorNumber e).toNat s) := by
  simp only [raiseError, errorStatus_eq_errWord]
  rfl

/-- STATUS after an error, field by field. -/
theorem errWord_fields (e : ErrorCode) :
    okOf (errWord (errorNumber e).toNat) = false ∧ errOf (errWord (errorNumber e).toNat) = errorNumber e ∧
      stickyOf (errWord (errorNumber e).toNat) = true := by
  cases e <;> decide

/-- STATUS after a completion, field by field. -/
theorem okWord_fields : ∀ b k : Bool,
    okOf (okWord b k) = b ∧ errOf (okWord b k) = 0 ∧ stickyOf (okWord b k) = k ∧
      okWord b k &&& 0xFFFF7F0E#32 = 0#32 := by
  decide

/-- Bit output followed by a scalar result leaves everything but the output alone. -/
theorem keepsAllButOutput_output (s : State) (bs : Bits) (r st : Word) (h : bs.length < 2 ^ 32) :
    KeepsAllButOutput s (((s.setOutput bs).setResult r).setStatus st) where
  ilen := rfl
  aux0 := rfl
  aux1 := rfl
  ibuf _ := rfl
  obuf k hk := by
    simp only [State.setStatus_olen, State.setResult_olen, State.setOutput_olen, BitVec.toNat_ofNat,
      Nat.mod_eq_of_lt h] at hk
    simp only [State.setStatus_obufBit, State.setResult_obufBit, State.obufBit_setOutput]
    rw [dif_neg (by omega)]
  units _ := rfl
  pending := rfl
  reply := rfl
  resets := rfl

/-- A command without bit output leaves everything but the result registers alone. -/
theorem keepsAllButOutput_noOutput (s : State) (o r st : Word) :
    KeepsAllButOutput s (((s.setOlen o).setResult r).setStatus st) where
  ilen := rfl
  aux0 := rfl
  aux1 := rfl
  ibuf _ := rfl
  obuf _ _ := rfl
  units _ := rfl
  pending := rfl
  reply := rfl
  resets := rfl

/-- A host event answers a next state, or is an access CORE does not perform. -/
theorem hostEvent_cases (e : HostEvent) (s : State) (h : e.clean = false) : hostEvent e s = .refused .busError := by
  cases e with
  | read off size => simp only [HostEvent.clean] at h; simp [hostEvent, h]
  | write off size v => simp only [HostEvent.clean] at h; simp [hostEvent, h]
  | reset => simp [HostEvent.clean] at h

/-- What the next step does with a pending event. -/
theorem step_cons (s : State) (e : HostEvent) (rest : List HostEvent) (h : s.pending = e :: rest) :
    step s = hostEvent e (s.setPending rest) := by
  simp [step, takeEvent, h]

/-- With nothing pending CORE waits. -/
theorem step_nil (s : State) (h : s.pending = []) : step s = .next s := by simp [step, takeEvent, h]

end Sys2Proof.Machine
end

