-- ==== Sys2Proof/Laws/Units.lean ====
section
/-! SUPPORT. The laws of the four units' functions: lengths, the table facts they rest on, and the bounds of the CRC
accumulator. -/

namespace Sys2Proof.Machine

/-! ### BMC -/

@[simp] theorem length_syndrome (D : CodeDesc) (w : Bits) : (syndrome D w).length = D.m := by simp [syndrome]

@[simp] theorem length_generate (D : CodeDesc) (x : Bits) : (generate D x).length = D.n := by simp [generate]

@[simp] theorem length_flipBit (w : Bits) (i : Nat) : (flipBit w i).length = w.length := by simp [flipBit]

@[simp] theorem length_column (D : CodeDesc) (i : Nat) : (D.column i).length = D.m := by simp [CodeDesc.column]

/-- The three ways check_and_correct ends (rule R75). -/
theorem checkAndCorrect_cases (D : CodeDesc) (w : Bits) :
    (check D w = true ∧ checkAndCorrect D w = ⟨true, w, none⟩) ∨
    (check D w = false ∧ ∃ i < D.n, D.column i = syndrome D w ∧ (∀ j < i, D.column j ≠ syndrome D w) ∧
      checkAndCorrect D w = ⟨true, flipBit w i, some i⟩) ∨
    (check D w = false ∧ (∀ i < D.n, D.column i ≠ syndrome D w) ∧ checkAndCorrect D w = ⟨false, w, none⟩) := by
  cases hc : check D w with
  | true => exact .inl ⟨rfl, by simp [checkAndCorrect, hc]⟩
  | false =>
    cases hf : (List.range D.n).find? fun i => D.column i == syndrome D w with
    | none =>
      refine .inr (.inr ⟨rfl, ?_, by simp [checkAndCorrect, hc, hf]⟩)
      intro i hi
      simpa using List.find?_eq_none.1 hf i (List.mem_range.2 hi)
    | some i =>
      obtain ⟨hp, as, bs, hl, hbefore⟩ := List.find?_eq_some_iff_append.1 hf
      refine .inr (.inl ⟨rfl, i, ?_, by simpa using hp, ?_, by simp [checkAndCorrect, hc, hf]⟩)
      · exact List.mem_range.1 (List.mem_of_find?_eq_some hf)
      · intro j hj
        have hi : as.length = i := by
          have := congrArg (fun l => l[as.length]?) hl
          simp only [List.getElem?_append_right (Nat.le_refl _), Nat.sub_self, List.getElem?_cons_zero] at this
          obtain ⟨_, h⟩ := List.getElem?_eq_some_iff.1 this
          simpa using h
        have hm : j ∈ as := by
          have h1 : (List.range D.n)[j]? = as[j]? := by rw [hl, List.getElem?_append_left (by omega)]
          have h2 : as[j]? = some as[j] := List.getElem?_eq_getElem (by omega)
          rw [h2] at h1
          obtain ⟨_, h⟩ := List.getElem?_eq_some_iff.1 h1
          simp only [List.getElem_range] at h
          exact h ▸ List.getElem_mem _
        simpa using hbefore j hm

@[simp] theorem length_checkAndCorrect (D : CodeDesc) (w : Bits) : (checkAndCorrect D w).word.length = w.length := by
  obtain ⟨_, h⟩ | ⟨_, i, _, _, _, h⟩ | ⟨_, _, h⟩ := checkAndCorrect_cases D w <;> simp [h]

/-- Parity of a product with a flipped bit, the sum of rule R73 in the model's form. -/
theorem getElem_syndrome (D : CodeDesc) (w : Bits) (j : Nat) (h : j < (syndrome D w).length) :
    ((syndrome D w)[j]).toNat = synSum D (fun i => w.getD i false) j := by
  simp only [syndrome, List.getElem_map, List.getElem_range]
  rw [parity_map_range, synSum]
  congr 1
  apply Finset.sum_congr rfl
  intro i _
  cases D.H j i <;> cases w.getD i false <;> rfl

/-! ### PCI -/

@[simp] theorem length_ilList (V : VariantDesc) : V.ilList.length = V.N := by simp [VariantDesc.ilList]

@[simp] theorem length_deinterleave (V : VariantDesc) (y : Bits) : (deinterleave V y).length = V.N := by
  simp [deinterleave]

@[simp] theorem length_interleave (V : VariantDesc) (T : Bits) : (interleave V T).length = V.N := by
  simp [interleave]

@[simp] theorem length_correctCells (D : CodeDesc) (idx : List Nat) (a : Repair) :
    (correctCells D idx a).bits.length = a.bits.length := by simp [correctCells]

@[simp] theorem length_repair (V : VariantDesc) (y : Bits) : (repair V y).bits.length = V.N := by simp [repair]

@[simp] theorem length_dataBits (V : VariantDesc) (T : Bits) : (dataBits V T).length = V.dataCells.length := by
  simp [dataBits]

@[simp] theorem length_specialBits (V : VariantDesc) (T : Bits) :
    (specialBits V T).length = V.specialCells.length := by simp [specialBits]

/-- An interleave that is a permutation has distinct positions. -/
theorem nodup_ilList (V : VariantDesc) (h : ∀ a < V.N, ∀ b < V.N, V.il a = V.il b → a = b) : V.ilList.Nodup := by
  rw [VariantDesc.ilList, List.nodup_map_iff_inj_on List.nodup_range]
  intro a ha b hb hab
  exact h a (List.mem_range.1 ha) b (List.mem_range.1 hb) hab

/-- The interleave of every variant is injective and in range (rule R93). -/
theorem il_injective (v : Variant) :
    ∀ a < (variantDesc v).N, ∀ b < (variantDesc v).N, (variantDesc v).il a = (variantDesc v).il b → a = b := by
  cases v with
  | bptc19696 => simp only [variantDesc, bptc19696]; intro a ha b hb h; omega
  | vbptc12873 => simp only [variantDesc, vbptc12873]; intro a ha b hb h; omega
  | vbptc3211 =>
    simp only [variantDesc, vbptc3211With, ilVbptc3211]
    intro a ha b hb h
    rw [dif_pos ha, dif_pos hb] at h
    simpa using Config.ilVbptc3211.injective (Fin.ext h)
  | vbptc6828 => simp only [variantDesc, vbptc6828]; intro a ha b hb h; omega

theorem il_lt (v : Variant) : ∀ a < (variantDesc v).N, (variantDesc v).il a < (variantDesc v).N := by
  cases v with
  | bptc19696 => simp only [variantDesc, bptc19696]; intro a ha; omega
  | vbptc12873 => simp only [variantDesc, vbptc12873]; intro a ha; omega
  | vbptc3211 =>
    simp only [variantDesc, vbptc3211With, ilVbptc3211]
    intro a ha
    rw [dif_pos ha]
    exact (Config.ilVbptc3211 _).isLt
  | vbptc6828 => simp only [variantDesc, vbptc6828]; intro a ha; omega

/-- The DATA and SPECIAL cells of each variant are as many as rule R109 says. -/
theorem length_dataCells (v : Variant) : (variantDesc v).dataCells.length = (variantDesc v).D := by
  cases v <;> decide +kernel

theorem length_specialCells (v : Variant) : (variantDesc v).specialCells.length = (variantDesc v).S := by
  cases v <;> decide +kernel

/-- Every logical index but L = 0 of BPTC19696 lies in one cell of the table, and `lof` inverts `cell` (R93, R97). -/
theorem lof_of_cell (v : Variant) {L r c : Nat} (h : (variantDesc v).cell L = some (r, c)) :
    (variantDesc v).lof r c = L ∧ r < (variantDesc v).R ∧ c < (variantDesc v).C := by
  cases v <;>
    simp only [variantDesc, bptc19696, vbptc12873, vbptc3211With, vbptc6828] at h ⊢ <;>
    split at h <;> simp only [Option.some.injEq, Prod.mk.injEq, reduceCtorEq] at h <;> omega

theorem cell_of_lof (v : Variant) {r c : Nat} (hr : r < (variantDesc v).R) (hc : c < (variantDesc v).C) :
    (variantDesc v).cell ((variantDesc v).lof r c) = some (r, c) := by
  cases v <;> simp only [variantDesc, bptc19696, vbptc12873, vbptc3211With, vbptc6828] at hr hc ⊢ <;>
    rw [if_pos (by omega)] <;> simp only [Option.some.injEq, Prod.mk.injEq] <;> omega

/-! ### TR34 -/

theorem til_perm : til.Nodup ∧ til.length = 98 ∧ ∀ i ∈ til, i < 98 := by decide +kernel

/-- The closed form of TIL (rule R118). -/
theorem til_closed_form :
    til = (List.range 4).flatMap fun g =>
      ((List.range 13).filter fun q => decide (8 * q + 2 * g + 1 ≤ 97)).flatMap fun q =>
        [8 * q + 2 * g, 8 * q + 2 * g + 1] := by
  decide +kernel

/-- CPT is a bijection (rule R120). -/
theorem cpt_nodup : cpt.Nodup ∧ cpt.length = 16 := by decide

theorem cpt_pointOf (a b : Dibit) : cpt[pointOf a b]? = some (a, b) := by cases a <;> cases b <;> decide

/-- "Each row's 8 entries are distinct" (rule R122), so a transition has one tribit. -/
theorem tribitOf_transition : ∀ s < 8, ∀ t < 8, tribitOf s (transition s t) = some t := by decide

theorem tribitOf_some {s p t : Nat} (h : tribitOf s p = some t) : t < 8 ∧ transition s t = p := by
  refine ⟨List.mem_range.1 (List.mem_of_find?_eq_some h), by simpa using List.find?_some h⟩

theorem tribitOf_none {s p : Nat} (h : tribitOf s p = none) : ∀ t < 8, transition s t ≠ p := by
  intro t ht
  simpa using List.find?_eq_none.1 h t (List.mem_range.2 ht)

theorem transition_lt : ∀ s < 8, ∀ t < 8, transition s t < 16 := by decide

/-! ### CRC -/

theorem toNat_maskW {W : Nat} (h : W ≤ 32) : (maskW W).toNat = 2 ^ W - 1 := by
  have h1 : 2 ^ W ≤ 2 ^ 32 := Nat.pow_le_pow_right (by norm_num) h
  have h2 : 0 < 2 ^ W := by positivity
  rw [maskW, BitVec.toNat_ofNat, Nat.mod_eq_of_lt (by omega)]

theorem and_maskW_lt (v : Word) {W : Nat} (h : W ≤ 32) : (v &&& maskW W).toNat < 2 ^ W := by
  rw [BitVec.toNat_and, toNat_maskW h, Nat.and_two_pow_sub_one_eq_mod]
  exact Nat.mod_lt _ (by positivity)

/-- A bit step keeps the accumulator in W bits. -/
theorem crcStep_lt {W : Nat} (hW : W ≤ 32) {Q A : Word} (hQ : Q.toNat < 2 ^ W) (b : Bool) :
    (crcStep W Q A b).toNat < 2 ^ W := by
  simp only [crcStep]
  split
  · rw [BitVec.toNat_xor]
    exact Nat.xor_lt_two_pow (and_maskW_lt _ hW) hQ
  · exact and_maskW_lt _ hW

theorem updateSerial_lt {W : Nat} (hW : W ≤ 32) {Q : Word} (hQ : Q.toNat < 2 ^ W) (x : Bits) :
    ∀ A : Word, A.toNat < 2 ^ W → (updateSerial W Q A x).toNat < 2 ^ W := by
  induction x with
  | nil => intro A hA; exact hA
  | cons b x ih => intro A _; exact ih _ (crcStep_lt hW hQ b)

theorem updateSerial_append (W : Nat) (Q A : Word) (x z : Bits) :
    updateSerial W Q A (x ++ z) = updateSerial W Q (updateSerial W Q A x) z := by simp [updateSerial]

theorem tableChunks_lt {W : Nat} (hW : W ≤ 32) {Q : Word} (hQ : Q.toNat < 2 ^ W) :
    ∀ (count : Nat) (A : Word) (x : Bits), A.toNat < 2 ^ W → count * W ≤ x.length →
      (tableChunks W Q count A x).toNat < 2 ^ W := by
  intro count
  induction count with
  | zero => intro A x hA _; exact updateSerial_lt hW hQ x A hA
  | succ count ih =>
    intro A x hA hl
    rw [Nat.add_mul] at hl
    refine ih _ _ (updateSerial_lt hW hQ _ _ ?_) (by simp; omega)
    rw [BitVec.toNat_xor]
    refine Nat.xor_lt_two_pow hA ?_
    have h1 : (x.take W).length = W := by simp; omega
    have h2 := intOf_lt (x.take W)
    rw [h1] at h2
    rw [wordOf, BitVec.toNat_ofNat]
    exact lt_of_le_of_lt (Nat.mod_le _ _) h2

/-- A reversed W-bit value has W bits. -/
theorem revW_lt {W : Nat} (v : Word) : (revW W v).toNat < 2 ^ W := by
  have h := intOf_lt (bitsOf W v.toNat).reverse
  rw [List.length_reverse, length_bitsOf] at h
  rw [revW, wordOf, BitVec.toNat_ofNat]
  exact lt_of_le_of_lt (Nat.mod_le _ _) h

end Sys2Proof.Machine
end

