-- ==== Sys2Proof/Laws/Exec.lean ====
section
/-! SUPPORT. What a command can do, said once: it ends in an error, or completes with bit output, without bit output, or
with one CRC unit written. -/

namespace Sys2Proof.Machine

/-- The unit a CRC command may write. -/
def writtenUnit : Instr → Option UnitId
  | .bmcSyn _ => none
  | .bmcChk _ => none
  | .bmcCor _ => none
  | .bmcGen _ => none
  | .pcDia _ => none
  | .pcDid _ _ _ => none
  | .pcRep _ => none
  | .pcEnc _ => none
  | .trDec => none
  | .trEnc => none
  | .crcCfg _ u => some u
  | .crcInit u => some u
  | .crcUpd u => some u
  | .crcDig _ => none
  | .crcRev u => some u
  | .crcCalc _ => none
  | .crcVer _ => none

/-- The four shapes an answer of a command can have. -/
inductive Shape (i : Instr) (s : State) (o : Outcome) : Prop where
  | error (e : ErrorCode) (h : o = raiseError e s)
  | output (b : Bool) (bs : Bits) (r : Word) (hlen : bs.length ≤ 196)
      (h : o = complete b ((s.setOutput bs).setResult r))
  | scalar (b : Bool) (r : Word) (h : o = complete b ((s.setOlen 0).setResult r))
  | unit (u : UnitId) (c : CrcUnit) (r : Word) (hu : writtenUnit i = some u)
      (h : o = complete true (((s.setUnit u c).setOlen 0).setResult r))

theorem codeDesc_le (c : Code) : (codeDesc c).n ≤ 196 := by cases c <;> decide

theorem variantDesc_le (v : Variant) : (variantDesc v).N ≤ 196 ∧ (variantDesc v).D + (variantDesc v).S ≤ 196 := by
  cases v <;> decide

theorem length_tribitsToBits (ts : List Nat) : (tribitsToBits ts).length = 3 * ts.length := by
  induction ts with
  | nil => rfl
  | cons t ts ih =>
    have h : tribitsToBits (t :: ts) = bitsOf 3 t ++ tribitsToBits ts := rfl
    rw [h, List.length_append, ih, length_bitsOf, List.length_cons]
    ring

theorem length_dibitsToBits (ds : List Dibit) : (dibitsToBits ds).length = 2 * ds.length := by
  induction ds with
  | nil => rfl
  | cons d ds ih =>
    have h : dibitsToBits (d :: ds) = dibitBits d ++ dibitsToBits ds := rfl
    have h2 : (dibitBits d).length = 2 := by cases d <;> rfl
    rw [h, List.length_append, ih, h2, List.length_cons]
    ring

theorem length_trellisEncode (b : Bits) : (trellisEncode b).length = 196 := by
  rw [trellisEncode, length_dibitsToBits, interleaveDibits, length_gather, til_perm.2.1]

theorem length_trellisDecode {b r : Bits} (h : trellisDecode b = .ok r) : r.length ≤ 144 := by
  unfold trellisDecode at h
  split at h
  · cases h
    rw [length_tribitsToBits, List.length_take]
    omega
  · cases h

theorem length_encodeProduct {V : VariantDesc} {x y : Bits} (h : encodeProduct V x = some y) : y.length = V.N := by
  simp only [encodeProduct, Option.map_eq_some_iff] at h
  obtain ⟨_, _, rfl⟩ := h
  exact length_interleave _ _

variable (s : State)

theorem execBmcSyn_shape (c : Code) : Shape (.bmcSyn c) s (execBmcSyn c s) := by
  unfold execBmcSyn
  split
  · exact .error .length rfl
  · refine .output _ _ _ ?_ rfl
    have := codeDesc_le c
    rw [length_syndrome, CodeDesc.m]
    omega

theorem execBmcChk_shape (c : Code) : Shape (.bmcChk c) s (execBmcChk c s) := by
  unfold execBmcChk
  split
  · exact .error .length rfl
  · exact .scalar _ _ rfl

theorem execBmcCor_shape (c : Code) : Shape (.bmcCor c) s (execBmcCor c s) := by
  unfold execBmcCor
  split
  · exact .error .length rfl
  · rename_i h
    refine .output _ _ _ ?_ rfl
    rw [length_checkAndCorrect, State.length_input, not_not.1 h]
    exact codeDesc_le c

theorem execBmcGen_shape (c : Code) : Shape (.bmcGen c) s (execBmcGen c s) := by
  unfold execBmcGen
  split
  · exact .error .length rfl
  · exact .output _ _ _ (by rw [length_generate]; exact codeDesc_le c) rfl

theorem execPcDia_shape (v : Variant) : Shape (.pcDia v) s (execPcDia v s) := by
  unfold execPcDia
  split
  · exact .error .length rfl
  · exact .output _ _ _ (by rw [length_deinterleave]; exact (variantDesc_le v).1) rfl

theorem execPcDid_shape (v : Variant) (r p : Bool) : Shape (.pcDid v r p) s (execPcDid v r p s) := by
  simp only [execPcDid]
  split
  · exact .error .length rfl
  · refine .output _ _ _ ?_ rfl
    have h := (variantDesc_le v).2
    rw [List.length_append, length_dataBits, length_dataCells]
    cases p
    · simp only [Bool.false_eq_true, if_false, List.length_nil]
      omega
    · simp only [if_true, length_specialBits, length_specialCells]
      exact h

theorem execPcRep_shape (v : Variant) : Shape (.pcRep v) s (execPcRep v s) := by
  unfold execPcRep
  split
  · exact .error .length rfl
  · exact .output _ _ _ (by rw [length_repair]; exact (variantDesc_le v).1) rfl

theorem execPcEnc_shape (v : Variant) : Shape (.pcEnc v) s (execPcEnc v s) := by
  unfold execPcEnc
  split
  · exact .error .length rfl
  · split
    · exact .error .length rfl
    · rename_i h
      exact .output _ _ _ (by rw [length_encodeProduct h]; exact (variantDesc_le v).1) rfl

theorem execTrDec_shape : Shape .trDec s (execTrDec s) := by
  unfold execTrDec
  split
  · exact .error .length rfl
  · split
    · exact .scalar _ _ rfl
    · rename_i h
      exact .output _ _ _ (Nat.le_trans (length_trellisDecode h) (by decide)) rfl

theorem execTrEnc_shape : Shape .trEnc s (execTrEnc s) := by
  unfold execTrEnc
  split
  · exact .error .length rfl
  · exact .output _ _ _ (by rw [length_trellisEncode]) rfl

theorem execCrcCfg_shape (p : Preset) (u : UnitId) : Shape (.crcCfg p u) s (execCrcCfg p u s) :=
  .unit u _ _ rfl rfl

theorem execCrcInit_shape (u : UnitId) : Shape (.crcInit u) s (execCrcInit u s) := by
  unfold execCrcInit
  split
  · exact .unit u _ _ rfl rfl
  · exact .error .config rfl

theorem execCrcUpd_shape (u : UnitId) : Shape (.crcUpd u) s (execCrcUpd u s) := by
  unfold execCrcUpd
  split
  · exact .error .uninit rfl
  · split
    · exact .error .length rfl
    · split
      · exact .error .length rfl
      · exact .unit u _ _ rfl rfl

theorem execCrcDig_shape (u : UnitId) : Shape (.crcDig u) s (execCrcDig u s) := by
  unfold execCrcDig
  split
  · exact .error .uninit rfl
  · exact .scalar _ _ rfl

theorem execCrcRev_shape (u : UnitId) : Shape (.crcRev u) s (execCrcRev u s) := by
  unfold execCrcRev
  split
  · exact .error .uninit rfl
  · exact .unit u _ _ rfl rfl

theorem execCrcCalc_shape (p : Preset) : Shape (.crcCalc p) s (execCrcCalc p s) := by
  unfold execCrcCalc
  split
  · exact .error .length rfl
  · split
    · exact .error .length rfl
    · exact .scalar _ _ rfl

theorem execCrcVer_shape (p : Preset) : Shape (.crcVer p) s (execCrcVer p s) := by
  unfold execCrcVer
  split
  · exact .error .length rfl
  · split
    · exact .error .length rfl
    · exact .scalar _ _ rfl

/-- What any command can do. -/
theorem exec_shape (i : Instr) : Shape i s (exec i s) := by
  cases i with
  | bmcSyn c => exact execBmcSyn_shape s c
  | bmcChk c => exact execBmcChk_shape s c
  | bmcCor c => exact execBmcCor_shape s c
  | bmcGen c => exact execBmcGen_shape s c
  | pcDia v => exact execPcDia_shape s v
  | pcDid v r p => exact execPcDid_shape s v r p
  | pcRep v => exact execPcRep_shape s v
  | pcEnc v => exact execPcEnc_shape s v
  | trDec => exact execTrDec_shape s
  | trEnc => exact execTrEnc_shape s
  | crcCfg p u => exact execCrcCfg_shape s p u
  | crcInit u => exact execCrcInit_shape s u
  | crcUpd u => exact execCrcUpd_shape s u
  | crcDig u => exact execCrcDig_shape s u
  | crcRev u => exact execCrcRev_shape s u
  | crcCalc p => exact execCrcCalc_shape s p
  | crcVer p => exact execCrcVer_shape s p

end Sys2Proof.Machine
end

