-- ==== Sys2Proof/Laws/PerInstr.lean ====
section
/-! SUPPORT. The family ReservedBitsZero: "The reserved bits 15:2 must be 0 in every command" (rule R64), per command. -/

namespace Sys2Proof.Laws.ReservedBitsZero

/-- The word of a command has bits 15:2 equal to 0. -/
def Statement (i : Instr) : Prop := reservedOf (encode i) = 0

theorem packWord_reserved (opc : BitVec 8) (sel unit : BitVec 4) (flags : BitVec 2) :
    reservedOf (packWord opc sel unit flags) = 0 := by
  simp only [reservedOf, packWord]
  ext i h
  simp only [BitVec.getElem_extractLsb', BitVec.getLsbD_append]
  have h1 : ¬ 2 + i < 2 := by omega
  have h2 : 2 + i - 2 < 14 := by omega
  simp [h]

theorem bmcSyn (c : Code) : Statement (.bmcSyn c) := packWord_reserved _ _ _ _
theorem bmcChk (c : Code) : Statement (.bmcChk c) := packWord_reserved _ _ _ _
theorem bmcCor (c : Code) : Statement (.bmcCor c) := packWord_reserved _ _ _ _
theorem bmcGen (c : Code) : Statement (.bmcGen c) := packWord_reserved _ _ _ _
theorem pcDia (v : Variant) : Statement (.pcDia v) := packWord_reserved _ _ _ _
theorem pcDid (v : Variant) (repair special : Bool) : Statement (.pcDid v repair special) := packWord_reserved _ _ _ _
theorem pcRep (v : Variant) : Statement (.pcRep v) := packWord_reserved _ _ _ _
theorem pcEnc (v : Variant) : Statement (.pcEnc v) := packWord_reserved _ _ _ _
theorem trDec : Statement .trDec := packWord_reserved _ _ _ _
theorem trEnc : Statement .trEnc := packWord_reserved _ _ _ _
theorem crcCfg (p : Preset) (u : UnitId) : Statement (.crcCfg p u) := packWord_reserved _ _ _ _
theorem crcInit (u : UnitId) : Statement (.crcInit u) := packWord_reserved _ _ _ _
theorem crcUpd (u : UnitId) : Statement (.crcUpd u) := packWord_reserved _ _ _ _
theorem crcDig (u : UnitId) : Statement (.crcDig u) := packWord_reserved _ _ _ _
theorem crcRev (u : UnitId) : Statement (.crcRev u) := packWord_reserved _ _ _ _
theorem crcCalc (p : Preset) : Statement (.crcCalc p) := packWord_reserved _ _ _ _
theorem crcVer (p : Preset) : Statement (.crcVer p) := packWord_reserved _ _ _ _

end Sys2Proof.Laws.ReservedBitsZero
end

