-- ==== Sys2Proof/Tests/Slice0.lean ====
section
/-! SUPPORT. Tests of the model and the witnesses of the obligations' hypotheses. Command words are written out from rules
R58 to R63; expected results are the vectors of spec/95_test_vectors.md, whose row each test names. -/

namespace Sys2Proof.Tests

open Sys2Proof Sys2Proof.Machine

set_option Elab.async false

/-! ### The small states tests run on -/

/-- The reset state with a bit sequence as the input. -/
def withInput (x : Bits) : State :=
  { State.reset with ilen := BitVec.ofNat 32 x.length, ibuf := cellsFrom 0 x }

/-- The reset state with an `n`-bit input, the bits of `v` from the most significant on. -/
def withBits (n v : Nat) : State := withInput (bitsOf n v)

/-- The reset state with unit 1 configured. -/
def withUnit (cfg poly init xorout acc : Word) (s : State) : State := s.setUnit 1 ⟨cfg, poly, init, xorout, acc⟩

/-- One step: the host writes the command word w to CMD. -/
def issue (w : Nat) (s : State) : Outcome := step (s.withFetchWord 32 w)

/-- What a host reads after a step: STATUS, OLEN, RESULT and the integer of OBUF[0 .. OLEN). -/
def view : Outcome → Option (Nat × Nat × Nat × Nat)
  | .next t => some (t.status.toNat, t.olen.toNat, t.result.toNat, intOf ((List.range t.olen.toNat).map t.obufBit))
  | _ => none

/-- Unit 1 after a step. -/
def unitAfter : Outcome → Option CrcUnit
  | .next t => some (t.crcUnit 1)
  | _ => none

/-- A word with fields OPC, SEL, UNIT, bits 15:2 and FLAGS, each written in binary. -/
abbrev wordBits (opc : BitVec 8) (sel unit : BitVec 4) (rsv : BitVec 14) (fl : BitVec 2) : Word :=
  opc ++ sel ++ unit ++ rsv ++ fl

/-! ### Decoding -/

theorem test_decode_bmcSyn : decode (wordBits 0b00010000 0b0000 0 0 0) = .ok (.bmcSyn .ham743) := by decide
theorem test_decode_bmcChk : decode (wordBits 0b00010001 0b0001 0 0 0) = .ok (.bmcChk .ham1393) := by decide
theorem test_decode_bmcCor : decode (wordBits 0b00010010 0b0011 0 0 0) = .ok (.bmcCor .ham16114) := by decide
theorem test_decode_bmcGen : decode (wordBits 0b00010011 0b0111 0 0 0) = .ok (.bmcGen .rs1294) := by decide
theorem test_decode_pcDia : decode (wordBits 0b00100000 0b0010 0 0 0) = .ok (.pcDia .vbptc3211) := by decide
theorem test_decode_pcDid :
    decode (wordBits 0b00100001 0b0001 0 0 0b10) = .ok (.pcDid .vbptc12873 false true) ∧
      decode (wordBits 0b00100001 0b0000 0 0 0b01) = .ok (.pcDid .bptc19696 true false) := by decide
theorem test_decode_pcRep : decode (wordBits 0b00100010 0b0000 0 0 0) = .ok (.pcRep .bptc19696) := by decide
theorem test_decode_pcEnc : decode (wordBits 0b00100011 0b0011 0 0 0) = .ok (.pcEnc .vbptc6828) := by decide
theorem test_decode_trDec : decode (wordBits 0b00110000 0 0 0 0) = .ok .trDec := by decide
theorem test_decode_trEnc : decode (wordBits 0b00110001 0 0 0 0) = .ok .trEnc := by decide
theorem test_decode_crcCfg : decode (wordBits 0b01000000 0b0011 0b0001 0 0) = .ok (.crcCfg .crc16 1) := by decide
theorem test_decode_crcInit : decode (wordBits 0b01000001 0 0b0011 0 0) = .ok (.crcInit 3) := by decide
theorem test_decode_crcUpd : decode (wordBits 0b01000010 0 0b0010 0 0) = .ok (.crcUpd 2) := by decide
theorem test_decode_crcDig : decode (wordBits 0b01000011 0 0b0001 0 0) = .ok (.crcDig 1) := by decide
theorem test_decode_crcRev : decode (wordBits 0b01000100 0 0b0000 0 0) = .ok (.crcRev 0) := by decide
theorem test_decode_crcCalc : decode (wordBits 0b01001000 0b0010 0 0 0) = .ok (.crcCalc .crc9) := by decide
theorem test_decode_crcVer : decode (wordBits 0b01001001 0b0100 0 0 0) = .ok (.crcVer .crc32) := by decide

/-- Rows X1 to X10. -/
theorem test_decode_rejects_by_name :
    decode 0x00000000 = .error .reservedOpcode ∧ decode 0x14000000 = .error .reservedOpcode ∧
      decode 0x10800000 = .error .badSel ∧ decode 0x10000004 = .error .reservedBits ∧
      decode 0x10010000 = .error .badUnit ∧ decode 0x12000001 = .error .badFlags ∧
      decode 0x30100000 = .error .badSel ∧ decode 0x41040000 = .error .badUnit ∧
      decode 0x40510000 = .error .badSel ∧ decode 0x48010000 = .error .badUnit := by decide

/-- Rule R63 and rows C13 and C32: SPECIAL on a variant with no special field is ill-formed, and its word is refused. -/
theorem test_wellFormed_refuses_special_without_field :
    (Instr.pcDid .bptc19696 true true).wellFormed = false ∧ (Instr.pcDid .vbptc3211 false true).wellFormed = false ∧
      decode 0x21000003 = .error .specialWithoutField ∧ decode 0x21200002 = .error .specialWithoutField := by decide

/-! ### The error rules -/

/-- Row X1: BAD_COMMAND. -/
theorem test_bad_command : view (issue 0x00000000 (withBits 7 0)) = some (0x8010, 0, 0, 0) := by decide +kernel

/-- Row X12: UNINIT comes before LENGTH. -/
theorem test_uninit_before_length :
    view (issue 0x42000000 { State.reset with ilen := 5000 }) = some (0x8030, 0, 0, 0) := by decide +kernel

/-- Row X16: an error's STICKY stays through a completion. -/
theorem test_sticky_stays :
    view (issue 0x11000000 { withBits 7 0 with status := 0x8010 }) = some (0x8001, 0, 0, 0) := by decide +kernel

/-! ### BMC -/

/-- Row B13. -/
theorem test_bmcSyn : view (issue 0x10000000 (withBits 7 0b1001000)) = some (0, 3, 6, 0b110) := by decide +kernel

/-- Row B35. -/
theorem test_bmcSyn_ham16114 : view (issue 0x10300000 (withBits 16 0xF7B3)) = some (0, 5, 15, 15) := by decide +kernel

/-- Row B10: a codeword checks. -/
theorem test_bmcChk : view (issue 0x11400000 (withBits 17 0b10101010101011110)) = some (1, 0, 0, 0) := by decide +kernel

/-- Row B22: an altered parity bit does not check. -/
theorem test_bmcChk_altered : view (issue 0x11100000 (withBits 13 0b1010101010011)) = some (0, 0, 0, 0) := by
  decide +kernel

/-- Row B18: a miscorrection. -/
theorem test_bmcCor : view (issue 0x12000000 (withBits 7 0b0110011)) = some (1, 7, 5, 0b0110001) := by decide +kernel

/-- Row B34: a detected double error. -/
theorem test_bmcCor_detects :
    view (issue 0x12300000 (withBits 16 0b0110101010110111)) = some (0, 16, 0xFFFFFFFF, 0b0110101010110111) := by
  decide +kernel

/-- Row B6. -/
theorem test_bmcGen : view (issue 0x13200000 (withBits 11 0b10101010101)) = some (1, 15, 0, 0b101010101011011) := by
  decide +kernel

/-- Row B10. -/
theorem test_bmcGen_ham17123 :
    view (issue 0x13400000 (withBits 12 0b101010101010)) = some (1, 17, 0, 0b10101010101011110) := by decide +kernel

/-! ### Product codes -/

/-- Row C16. -/
theorem test_pcDia :
    view (issue 0x20100000 (withBits 128 0x283506FC0C1203F94D1BAA4196AC47C3)) =
      some (1, 128, 0, 0x112D1193D124554899E4788E266B43D3) := by decide +kernel

/-- Row C5. -/
theorem test_pcDid_repair :
    view (issue 0x21000001 (withBits 196 0x09876E874DA1370BB8F1AB67E684CEA4F83F8C5F41DC9A3CD)) =
      some (1, 96, 1, 0x0123456789ABCDEFFEDCBA98) := by decide +kernel

/-- Row C28. -/
theorem test_pcDid_special :
    view (issue 0x21300003 (withBits 68 0xC596F5CAFC56C95C0)) = some (1, 36, 0, 0xABCDEF199) := by decide +kernel

/-- Row C27. -/
theorem test_pcRep :
    view (issue 0x22300000 (withBits 68 0xC592F5CAFC56C95C0)) = some (1, 68, 1, 0xC596F5CAFC56C95C0) := by decide +kernel

/-- Row C1. -/
theorem test_encodeProduct_bptc19696 :
    encodeProduct bptc19696 (bitsOf 96 0x0123456789ABCDEFFEDCBA98) =
      some (bitsOf 196 0x09876E874DA1370BB8F1AB67EE84CEA4F83F8C5F41DC9A3CD) := by decide +kernel

/-- Row C24. -/
theorem test_pcEnc :
    view (issue 0x23300000 (withBits 28 0xABCDEF1)) = some (1, 68, 0, 0xC596F5CAFC56C95C0) := by decide +kernel

/-! ### Trellis -/

/-- Row T1, the source's vector E1. -/
theorem test_trDec :
    view (issue 0x30000000 (withBits 196 0x282FE2B5D2FF22E2762F3ED2722EFA122272FB2F229722F72)) =
      some (1, 144, 0, 0x006200014100480019804A00200054004100) := by decide +kernel

/-- Row T9: E1 with bit 50 flipped misses at point 48. -/
theorem test_trDec_miss :
    view (issue 0x30000000 (withBits 196 (0x282FE2B5D2FF22E2762F3ED2722EFA122272FB2F229722F72 ^^^ 2 ^ 145))) =
      some (0, 0, 48, 0) := by decide +kernel

/-- Row T5. -/
theorem test_trEnc :
    view (issue 0x31000000 (withBits 144 (2 ^ 144 - 1))) =
      some (1, 196, 0, 0x488888888888B888888888888888888888888888888888888) := by decide +kernel

/-! ### CRC -/

/-- The 72 bits of "123456789". -/
def digits : State := withBits 72 0x313233343536373839

/-- Row K25, on a unit whose MODE and ACC were set: rule R149 keeps both. -/
theorem test_crcCfg :
    unitAfter (issue 0x40310000 (withUnit 0x80000708 1 2 3 4 State.reset)) = some ⟨0x410, 0x1021, 0, 0xFFFF, 4⟩ := by
  decide +kernel

/-- Row K34, on unit 1. -/
theorem test_crcInit :
    unitAfter (issue 0x41010000 (withUnit 0x320 0x04C11DB7 0xFFFFFFFF 0xFFFFFFFF 0 State.reset)) =
      some ⟨0x80000320, 0x04C11DB7, 0xFFFFFFFF, 0xFFFFFFFF, 0xFFFFFFFF⟩ := by decide +kernel

/-- Row X11: WIDTH 0 is CONFIG. -/
theorem test_crcInit_config : view (issue 0x41000000 State.reset) = some (0x8040, 0, 0, 0) := by decide +kernel

/-- Row K32: with REFIN. -/
theorem test_crcUpd_refin :
    view (issue 0x42010000 (withUnit 0x80000310 0x1021 0 0 0 digits)) = some (1, 0, 0x9184, 0) := by decide +kernel

/-- Row K24: table mode. -/
theorem test_crcUpd_table :
    view (issue 0x42010000 (withUnit 0x80000410 0x1021 0 0 0 digits)) = some (1, 0, 0x31C3, 0) := by decide +kernel

/-- Row K32: with REFOUT. -/
theorem test_crcDig :
    view (issue 0x43010000 (withUnit 0x80000310 0x1021 0 0 0x9184 State.reset)) = some (1, 0, 0x2189, 0) := by
  decide +kernel

/-- Row K29. -/
theorem test_crcRev :
    unitAfter (issue 0x44010000 (withUnit 0x80000010 0x1021 0 0xFFFF 0x31C3 State.reset)) =
      some ⟨0x80000010, 0x1021, 0, 0xFFFF, 0xC38C⟩ := by decide +kernel

/-- Row K6: the mask. -/
theorem test_crcCalc : view (issue 0x48200000 { digits with aux0 := 0x0F0 }) = some (1, 0, 0x013, 0) := by decide +kernel

/-- Row K10: the byte swap of CRC32. -/
theorem test_crcCalc_crc32 :
    view (issue 0x48400000 (withBits 64 0x3132333435363738)) = some (1, 0, 0x8D763B90, 0) := by decide +kernel

/-- Rows K17 and K19: the comparison is of 32 bits. -/
theorem test_crcVer :
    view (issue 0x49300000 { digits with aux0 := 0x1234, aux1 := 0xDC08 }) = some (1, 0, 0xDC08, 0) ∧
      view (issue 0x49300000 { digits with aux0 := 0x1234, aux1 := 0x1DC08 }) = some (0, 0, 0xDC08, 0) := by
  decide +kernel

/-! ### Witnesses: each obligation's hypotheses are met, clause by clause and at the ends of their ranges -/

/-- Legal and illegal words, at the ends of SEL and UNIT. -/
theorem witness_CommandWriteRunsLegalWordsOnly :
    LegalWord 0x10700000 ∧ ¬ LegalWord 0x10800000 ∧ LegalWord 0x40430000 ∧ ¬ LegalWord 0x40440000 ∧
      LegalWord 0x21100003 ∧ ¬ LegalWord 0x21000002 ∧ LegalWord 0x49400000 ∧ ¬ LegalWord 0x49400004 ∧
      ¬ LegalWord 0x00000000 ∧ ¬ LegalWord 0xFFFFFFFF := by
  simp [LegalWord]

theorem witness_StepRunsTheDecodedCommand :
    (State.reset.withFetchWord 32 0x10000000).pending = .write 0x000 4 0x10000000 :: [] ∧
      decode 0x10000000 = .ok (.bmcSyn .ham743) ∧
      (State.reset.withFetchWord 32 0).pending = .write 0x000 4 0 :: [] ∧ decode 0 = .error .reservedOpcode ∧
      decodeTableWord 32 0x49400000 = some (.crcVer .crc32) := by decide

theorem witness_CoreWaitsWhenNothingIsPending : State.reset.pending = [] := rfl

theorem witness_ResetLeavesTheSpecifiedValues :
    ({ withBits 7 1 with pending := [.reset] } : State).pending = .reset :: [] := rfl

/-- A state with a command pending that has the invariant and takes a step. -/
theorem witness_EveryStepKeepsTheInvariant :
    let s := { withBits 7 0b1001000 with status := 0x8001, pending := [.write 0x000 4 0x12000000] }
    Inv s ∧ view (step s) = some (0x8001, 7, 2, 0b1011000) := by
  refine ⟨⟨by decide, by decide, by decide, by decide, by decide, by decide, by decide, fun u => ?_⟩, by decide +kernel⟩
  refine ⟨?_, ?_, ?_, ?_⟩ <;> revert u <;> decide

/-- STICKY set, before a reset and before another event that has a next state. -/
theorem witness_OnlyResetClearsSticky :
    let s := { State.reset with status := 0x8010 }
    stickyOf s.status = true ∧ view (step { s with pending := [.reset] }) = some (0, 0, 0, 0) ∧
      view (step { s with pending := [.write 0x000 4 0x40000000] }) = some (0x8001, 0, 0, 0) := by decide

theorem witness_MisalignedOrNarrowAccessIsRefused :
    ((2 : Nat) ≠ 4 ∨ (0x000 : Offset).toNat % 4 ≠ 0) ∧ ((4 : Nat) ≠ 4 ∨ (0x002 : Offset).toNat % 4 ≠ 0) ∧
      ({ State.reset with pending := [.read 0x002 4] } : State).pending = .read 0x002 4 :: [] ∧
      ({ State.reset with pending := [.write 0x000 2 5] } : State).pending = .write 0x000 2 5 :: [] := by decide

theorem witness_StepAnswersExactlyCleanEvents :
    (HostEvent.reset.clean = true) ∧ ((HostEvent.read 0xFFFC 4).clean = true) ∧ ((HostEvent.read 0xFFFE 4).clean = false) ∧
      ((HostEvent.write 0x000 1 0).clean = false) := by decide

/-- The ends of every reserved range are reserved; the last offset before each and the first after it are not. -/
theorem witness_RegisterReadsFollowTheMap :
    (∀ a ∈ [0x01C, 0x0FC, 0x114, 0x11C, 0x174, 0x17C, 0x180, 0xFFC, 0x1200, 0x1FFC, 0x2200, 0xFFFC],
      a % 4 = 0 ∧ ReservedOffset a) ∧
    (∀ a ∈ [0x018, 0x100, 0x110, 0x120, 0x170, 0x1000, 0x11FC, 0x2000, 0x21FC], ¬ ReservedOffset a) := by
  unfold ReservedOffset; decide

theorem witness_RegisterWritesFollowTheMap : ReservedOffset 0x01C ∧ (127 : Nat) < 128 ∧ 0x2000 + 4 * 127 = 0x21FC := by
  unfold ReservedOffset; decide

theorem witness_IbufWindowHoldsWordsMsbFirst :
    (0 : Nat) < 128 ∧ (127 : Nat) < 128 ∧ 0x1000 + 4 * 127 = 0x11FC ∧ 32 * 127 + 31 + 1 = Config.ibufBits := by decide

theorem witness_ObufWindowIsReadOnlyMsbFirst :
    (0 : Nat) < 128 ∧ (127 : Nat) < 128 ∧ 32 * 127 + 31 + 1 = Config.obufBits := by decide

/-- Both lengths of BMC.SYN; a zero and a nonzero syndrome. -/
theorem witness_BmcSynWritesTheSyndrome :
    (withBits 7 0b1001000).inputLength = (codeDesc .ham743).n ∧ (withBits 6 0).inputLength ≠ (codeDesc .ham743).n ∧
      (∀ j < 3, synSum (codeDesc .ham743) (withBits 7 0b1011000).ibufBit j = 0) ∧
      synSum (codeDesc .ham743) (withBits 7 0b1001000).ibufBit 0 = 1 := by decide +kernel

theorem witness_BmcChkReportsTheZeroSyndrome :
    (withBits 20 0).inputLength = (codeDesc .golay2087).n ∧ (withBits 19 0).inputLength ≠ (codeDesc .golay2087).n ∧
      (withBits 12 0).inputLength = (codeDesc .rs1294).n := by decide

/-- The three cases of BMC.COR: rows B41, B33 (the last column) and B34. -/
theorem witness_BmcCorFlipsTheLowestMatchingColumn :
    let D := codeDesc .ham16114
    (withBits 16 0).inputLength = D.n ∧
      (∀ j < D.m, synSum D (withBits 16 0).ibufBit j = 0) ∧
      ((∃ j < D.m, synSum D (withBits 16 0b1010101010110110).ibufBit j ≠ 0) ∧
        columnMatches D (withBits 16 0b1010101010110110).ibufBit 15 ∧
        ∀ i' < 15, ¬ columnMatches D (withBits 16 0b1010101010110110).ibufBit i') ∧
      (∃ j < D.m, synSum D (withBits 16 0b0110101010110111).ibufBit j ≠ 0) ∧
      (∀ i < D.n, ¬ columnMatches D (withBits 16 0b0110101010110111).ibufBit i) := by
  unfold columnMatches; decide +kernel

theorem witness_BmcGenWritesTheCodeword :
    (withBits 7 0).inputLength = (codeDesc .qr1676).k ∧ (withBits 8 0).inputLength ≠ (codeDesc .qr1676).k ∧
      (withBits 12 0).inputLength = (codeDesc .ham17123).k := by decide

theorem witness_GeneratedWordsOfSystematicCodesCheck :
    let D := codeDesc .ham743
    D.k < D.n ∧ D.Systematic ∧ (bitsOf 4 0b1011).length = D.k := by
  unfold CodeDesc.Systematic; decide +kernel

/-- The first and the last bit of a HAM743 codeword (row B2). -/
theorem witness_SingleErrorIsCorrected :
    let D := codeDesc .ham743
    D.ColumnsDistinct ∧ (bitsOf 7 0b1010011).length = D.n ∧ check D (bitsOf 7 0b1010011) = true ∧ 0 < D.n ∧ 6 < D.n := by
  unfold CodeDesc.ColumnsDistinct; decide +kernel

theorem witness_Ham16114DetectsEveryDoubleError :
    (bitsOf 16 0xAAB7).length = 16 ∧ check (codeDesc .ham16114) (bitsOf 16 0xAAB7) = true ∧ (0 : Nat) < 16 ∧
      (15 : Nat) < 16 ∧ (0 : Nat) ≠ 15 := by decide +kernel

theorem witness_PcDiaDeinterleaves :
    (withBits 196 0).inputLength = (variantDesc .bptc19696).N ∧ (withBits 195 0).inputLength ≠ (variantDesc .bptc19696).N ∧
      (withBits 32 0).inputLength = (variantDesc .vbptc3211).N := by decide +kernel

theorem witness_PcDidExtractsDataAndSpecialBits :
    (Instr.pcDid .vbptc6828 true true).wellFormed = true ∧ (Instr.pcDid .vbptc12873 false true).wellFormed = true ∧
      (Instr.pcDid .vbptc3211 true false).wellFormed = true ∧ (Instr.pcDid .bptc19696 false false).wellFormed = true ∧
      (withBits 68 0).inputLength = (variantDesc .vbptc6828).N ∧ (withBits 67 0).inputLength ≠ (variantDesc .vbptc6828).N := by
  decide +kernel

theorem witness_PcRepWritesTheRepairedBlock :
    (withBits 128 0).inputLength = (variantDesc .vbptc12873).N ∧
      (withBits 127 0).inputLength ≠ (variantDesc .vbptc12873).N := by decide +kernel

theorem witness_RepairIsARowPassThenAColumnPass : (bitsOf 196 1).length = (variantDesc .bptc19696).N := by decide +kernel

/-- Row C33 to C35: the three forms, and lengths that are none. -/
theorem witness_PcEncWritesTheProductCodeword :
    EncodeLength (variantDesc .vbptc12873) (withBits 72 0).inputLength ∧
      EncodeLength (variantDesc .vbptc12873) (withBits 77 0).inputLength ∧
      EncodeLength (variantDesc .vbptc12873) (withBits 128 0).inputLength ∧
      ¬ EncodeLength (variantDesc .vbptc12873) (withBits 73 0).inputLength ∧
      EncodeLength (variantDesc .vbptc3211) (withBits 11 0).inputLength ∧
      ¬ EncodeLength (variantDesc .vbptc3211) (withBits 16 0).inputLength ∧
      ¬ EncodeLength (variantDesc .bptc19696) (withBits 0 0).inputLength := by
  unfold EncodeLength; decide +kernel

/-- Rows C17 and C26, with the values of the rules' sums. -/
theorem witness_SpecialFieldsAreByteSumAndCrc8 :
    (bitsOf 72 0x112233445566778899).length = 72 ∧ intOf (vbptc12873.specialValue (bitsOf 72 0x112233445566778899)) = 21 ∧
      (bitsOf 28 0xABCDEF1).length = 28 ∧ intOf (vbptc6828.specialValue (bitsOf 28 0xABCDEF1)) = 0x99 := by decide +kernel

theorem witness_InterleaveAndDeinterleaveAreInverse : (bitsOf 32 5).length = (variantDesc .vbptc3211).N := by decide

theorem witness_ProductCodeRoundTrip :
    (bitsOf 72 9).length = (variantDesc .vbptc12873).D ∧ (bitsOf 11 9).length = (variantDesc .vbptc3211).D := by decide

/-- Row C1; the positions 0 and 195 are both below 196. -/
theorem witness_BptcRepairsEverySingleErrorButR3 :
    (bitsOf 96 0x0123456789ABCDEFFEDCBA98).length = 96 ∧
      encodeProduct bptc19696 (bitsOf 96 0x0123456789ABCDEFFEDCBA98) =
        some (bitsOf 196 0x09876E874DA1370BB8F1AB67EE84CEA4F83F8C5F41DC9A3CD) ∧
      (0 : Nat) < 196 ∧ (195 : Nat) < 196 :=
  ⟨by decide +kernel, test_encodeProduct_bptc19696, by decide, by decide⟩

/-- Row C24: L = 0 lies outside the parity row, L = 51 is its first bit. -/
theorem witness_VbptcRepairsSingleErrorsOutsideParityRow :
    let V := variantDesc .vbptc6828
    Variant.vbptc6828 ≠ .bptc19696 ∧ (bitsOf 28 0xABCDEF1).length = V.D ∧
      encodeProduct V (bitsOf 28 0xABCDEF1) = some (bitsOf 68 0xC596F5CAFC56C95C0) ∧ V.cls 0 ≠ .colPar ∧
      V.cls 50 ≠ .colPar ∧ V.cls 51 = .colPar ∧ 67 < V.N := by decide +kernel

/-- Row T4's block: the zero tribits explain every point. -/
theorem witness_TrDec_accepts :
    let s := withBits 196 0x2222222222222222222222222222222222222222222222222
    s.inputLength = 196 ∧ ExplainsUpTo s.ibufBit (fun _ => 0) 49 := by
  unfold ExplainsUpTo Explains; decide +kernel

/-- Row T3's block: no tribit explains point 0; a block that explains 48 points and not the last. -/
theorem witness_TrDecFollowsTheStateMachine :
    (withBits 196 0).inputLength = 196 ∧ (withBits 144 0).inputLength ≠ 196 ∧
      ExplainsUpTo (withBits 196 0).ibufBit (fun _ => 0) 0 ∧
      (∀ o, ¬ Explains (withBits 196 0).ibufBit (trellisState (fun _ => 0) 0) o 0) ∧
      (let s := withBits 196 0x2222222222220222222222222222222222222222222222222
       ExplainsUpTo s.ibufBit (fun _ => 0) 48 ∧ ∀ o, ¬ Explains s.ibufBit (trellisState (fun _ => 0) 48) o 48) := by
  have none {y : Nat → Bool} {st j : Nat}
      (h : ∀ o < 8, cpt[transition st o]? ≠ some (logicalDibit y (2 * j), logicalDibit y (2 * j + 1))) (o : Nat) :
      ¬ Explains y st o j := fun e => h o e.1 e.2
  refine ⟨by decide +kernel, by decide +kernel, ?_, none (by decide +kernel), ?_, none (by decide +kernel)⟩
  · unfold ExplainsUpTo Explains; decide
  · unfold ExplainsUpTo Explains; decide +kernel

theorem witness_TrEncWritesTheTribitsPoints :
    (withBits 144 0).inputLength = 144 ∧ (withBits 147 0).inputLength ≠ 144 := by decide +kernel

theorem witness_TrellisDecodeInvertsEncode : (bitsOf 144 5).length = 144 := by decide +kernel

/-- Rows T4 (49th tribit 0) and T12 (49th tribit 5). -/
theorem witness_TrellisReencodesExactlyZero49thTribit :
    let y := bitsOf 196 0x2222222222222222222222222222222222222222222222222
    let y' := bitsOf 196 0x2222222222228222222222222222222222222222222222222
    let points (b : Bits) := pointsToTribits 0 0 (dibitsToPoints (deinterleaveDibits (bitsToDibits b)))
    y.length = 196 ∧ y'.length = 196 ∧ trellisDecode y = .ok (List.replicate 144 false) ∧
      trellisDecode y' = .ok (List.replicate 144 false) ∧ points y = .ok (List.replicate 49 0) ∧
      points y' = .ok (List.replicate 48 0 ++ [5]) := by decide +kernel

theorem witness_CrcStepDividesMsbFirst :
    (1 ≤ 32 ∧ (32 : Nat) ≤ 32 ∧ (0xFFFFFFFF : Word).toNat < 2 ^ 32) ∧ (1 : Nat) ≤ 32 ∧ (1 : Word).toNat < 2 ^ 1 := by decide

theorem witness_TableUpdateEqualsSerialUpdate :
    (1 ≤ 9 ∧ (9 : Nat) ≤ 32) ∧ (0x059 : Word).toNat < 2 ^ 9 ∧ (0x1FF : Word).toNat < 2 ^ 9 := by decide

/-- WIDTH 0, 1, 32 and 33. -/
theorem witness_CrcInitStartsAccumulating :
    let w (cfg : Word) := widthOf (((withUnit cfg 0 0 0 0 State.reset).crcUnit 1).cfg)
    w 0 = 0 ∧ w 1 = 1 ∧ w 32 = 32 ∧ w 33 = 33 := by decide

/-- A unit with the invariant, one that is not accumulating, an input too long, and one that is no whole bytes. -/
theorem witness_CrcUpdFeedsTheInputBits :
    let c := (withUnit 0x80000310 0x1021 0 0 0xFFFF digits).crcUnit 1
    lifeOf c.cfg = true ∧ UnitInv c ∧ digits.inputLength ≤ Config.ibufBits ∧ refinOf c.cfg = true ∧
      digits.inputLength % 8 = 0 ∧ lifeOf (State.reset.crcUnit 1).cfg = false ∧ (withBits 12 0).inputLength % 8 ≠ 0 ∧
      Config.ibufBits < ({ State.reset with ilen := 4097 } : State).inputLength ∧
      ({ State.reset with ilen := 4096 } : State).inputLength ≤ Config.ibufBits := by
  refine ⟨by decide, ⟨by decide, by decide, by decide, by decide⟩, ?_⟩; decide +kernel

theorem witness_CrcDigReadsTheDigest :
    let c := (withUnit 0x80000207 0x09 0 0 0x7F State.reset).crcUnit 1
    lifeOf c.cfg = true ∧ UnitInv c ∧ lifeOf (State.reset.crcUnit 1).cfg = false := by
  refine ⟨by decide, ⟨by decide, by decide, by decide, by decide⟩, by decide⟩

theorem witness_CrcRevReversesTheAccumulator :
    let c := (withUnit 0x80000001 1 0 0 1 State.reset).crcUnit 1
    lifeOf c.cfg = true ∧ UnitInv c ∧ lifeOf (State.reset.crcUnit 1).cfg = false := by
  refine ⟨by decide, ⟨by decide, by decide, by decide, by decide⟩, by decide⟩

/-- Rows K11 to K15 and the greatest ILEN. -/
theorem witness_CrcCalcComputesThePresetChecksum :
    (CalcLength .crc7 0 ∧ CalcLength .crc8 0 ∧ CalcLength .crc16 0 ∧ CalcLength .crc32 0 ∧ CalcLength .crc9 7) ∧
      (¬ CalcLength .crc9 6 ∧ ¬ CalcLength .crc7 8 ∧ ¬ CalcLength .crc16 12 ∧ ¬ CalcLength .crc32 72 ∧ ¬ CalcLength .crc8 4) ∧
      CalcLength .crc8 ({ State.reset with ilen := 4096 } : State).inputLength ∧
      Config.ibufBits < ({ State.reset with ilen := 4097 } : State).inputLength := by
  unfold CalcLength; decide

theorem witness_CrcVerComparesWithTheExpectedValue :
    digits.inputLength ≤ Config.ibufBits ∧ CalcLength .crc16 digits.inputLength ∧ ¬ CalcLength .crc32 digits.inputLength := by
  unfold CalcLength; decide +kernel

theorem witness_CrcUpdatesCompose :
    let c : CrcUnit := ⟨0x80000310, 0x1021, 0, 0, 0⟩
    let c' : CrcUnit := ⟨0x80000010, 0x1021, 0, 0, 0⟩
    (UnitInv c ∧ lifeOf c.cfg = true ∧ (bitsOf 8 1).length % 8 = 0) ∧
      UnitInv c' ∧ lifeOf c'.cfg = true ∧ refinOf c'.cfg = false := by
  refine ⟨⟨⟨?_, ?_, ?_, ?_⟩, ?_, ?_⟩, ⟨?_, ?_, ?_, ?_⟩, ?_, ?_⟩ <;> decide

theorem witness_LoadedUnitGivesTheCalcResult :
    Preset.crc9 ≠ .crc32 ∧ digits.inputLength ≤ Config.ibufBits ∧ CalcLength .crc9 digits.inputLength := by
  unfold CalcLength; decide +kernel

theorem witness_SerialUpdateIsLinear : (1 : Nat) ≤ 32 ∧ (bitsOf 9 3).length = (bitsOf 9 256).length := by decide

/-- The only byte of a sequence, and the last of two. -/
theorem witness_SingleByteMutationChangesTheChecksum :
    Preset.crc8 ≠ .crc7 ∧ CalcLength .crc8 (bitsOf 8 0).length ∧ 8 * 0 + 8 ≤ (bitsOf 8 0).length ∧
      CalcLength .crc32 (bitsOf 16 0).length ∧ 8 * 1 + 8 ≤ (bitsOf 16 0).length ∧ (bitsOf 8 1).length = 8 ∧
      bitsOf 8 1 ≠ List.replicate 8 false := by
  unfold CalcLength; decide

/-- Two inputs that agree below ILEN and differ at index ILEN. -/
theorem witness_CommandsReadBelowIlenAndWriteBelowOlen :
    let s := withBits 7 0b1001000
    let m := cellsFrom 0 (bitsOf 8 0b10010001)
    (∀ k < s.ilen.toNat, (s.setIbuf m).ibufBit k = s.ibufBit k) ∧ (s.setIbuf m).ibufBit 7 = true ∧
      view (exec (.bmcSyn .ham743) s) = some (0, 3, 6, 6) := by decide +kernel

/-- Every command has a next state somewhere: here BMC.CHK, and CRC.CFG on a unit. -/
theorem witness_CommandsNeverReadStatus :
    view (exec (.bmcChk .ham743) (withBits 7 0)) = some (1, 0, 0, 0) ∧
      view (exec (.crcCfg .crc16 1) State.reset) = some (1, 0, 0, 0) := by decide

theorem witness_NoCommandWritesItsOperands :
    view (exec (.bmcGen .ham743) { withBits 4 0b1011 with aux0 := 5 }) = some (1, 7, 0, 0b1011000) := by decide +kernel

/-- A command on another unit, for the first clause; CRC.CFG on the unit, for the second; CRC.INIT on it, for the third. -/
theorem witness_UnitsAreWrittenOnlyByTheirOwnCommands :
    ((∀ p, Instr.crcUpd 2 ≠ .crcCfg p 1) ∧ Instr.crcUpd 2 ≠ .crcInit 1 ∧ Instr.crcUpd 2 ≠ .crcUpd 1 ∧
      Instr.crcUpd 2 ≠ .crcRev 1 ∧ unitAfter (exec (.crcUpd 2) State.reset) = some CrcUnit.reset) ∧
    (Instr.crcCfg .crc8 1 ≠ .crcInit 1 ∧ Instr.crcCfg .crc8 1 ≠ .crcUpd 1 ∧ Instr.crcCfg .crc8 1 ≠ .crcRev 1 ∧
      unitAfter (exec (.crcCfg .crc8 1) (withUnit 0x80000708 1 2 3 4 State.reset)) = some ⟨0x408, 0x9B, 0, 0, 4⟩) ∧
    (∀ p, Instr.crcInit 1 ≠ .crcCfg p 1) ∧
      unitAfter (exec (.crcInit 1) (withUnit 0x708 1 0x102 3 4 State.reset)) = some ⟨0x80000708, 1, 0x102, 3, 2⟩ := by
  refine ⟨⟨by intro p; cases p <;> decide, ?_⟩, ?_, by intro p; cases p <;> decide, ?_⟩ <;> decide

end Sys2Proof.Tests
end

section
/-! PROOFS. What one command can do to one CRC unit, said once (rules R3, R26, R29 and R149 to R153), and the
noninterference of the units that follows from it. -/

namespace Sys2Proof.Machine

/-- CRC.CFG, CRC.INIT, CRC.UPD and CRC.REV are the only commands that may write a unit. -/
theorem writtenUnit_eq_some_iff {i : Instr} {u : UnitId} :
    writtenUnit i = some u ↔ (∃ p, i = .crcCfg p u) ∨ i = .crcInit u ∨ i = .crcUpd u ∨ i = .crcRev u := by
  cases i <;> simp [writtenUnit]

/-! ### The two ends of a CRC command leave the units as they find them -/

theorem crcUnit_of_complete {b : Bool} {s t : State} (h : complete b s = .next t) (u : UnitId) :
    t.crcUnit u = s.crcUnit u := by
  cases h; rfl

theorem crcUnit_of_raiseError {e : ErrorCode} {s t : State} (h : raiseError e s = .next t) (u : UnitId) :
    t.crcUnit u = s.crcUnit u := by
  cases h; rfl

/-- A CRC command that writes the unit it names completes with that unit as written. -/
theorem crcUnit_of_crcComplete_setUnit {b : Bool} {r : Word} {s t : State} {u : UnitId} {c : CrcUnit}
    (h : crcComplete b r (s.setUnit u c) = .next t) : t.crcUnit u = c := by
  simpa using crcUnit_of_complete h u

/-- A command keeps every unit but the one it may write. -/
theorem exec_keeps_crcUnit {i : Instr} {s t : State} {u : UnitId} (h : exec i s = .next t)
    (hu : writtenUnit i ≠ some u) : t.crcUnit u = s.crcUnit u := by
  cases exec_shape s i with
  | error e ho => exact crcUnit_of_raiseError (ho ▸ h) u
  | output b bs r _ ho => rw [ho] at h; simpa using crcUnit_of_complete h u
  | scalar b r ho => rw [ho] at h; simpa using crcUnit_of_complete h u
  | unit v c r hv ho =>
    have hne : u ≠ v := fun e => hu (e ▸ hv)
    rw [ho] at h
    simpa [State.setUnit_crcUnit_ne, hne] using crcUnit_of_complete h u

/-! ### What a command leaves in a unit -/

/-- What command i on state s can leave in unit u: the unit as it was, or what one of the four commands that write u
makes of it, under that command's own guard (rules R149, R150, R151, R153). -/
inductive UnitChange (i : Instr) (s : State) (u : UnitId) : CrcUnit → Prop where
  | kept : UnitChange i s u (s.crcUnit u)
  | configured (p : Preset) (hi : i = .crcCfg p u) : UnitChange i s u ((s.crcUnit u).configured (presetParams p))
  | initialised (hi : i = .crcInit u) (hw : 1 ≤ (s.crcUnit u).width ∧ (s.crcUnit u).width ≤ 32) :
      UnitChange i s u (s.crcUnit u).initialised
  | updated (hi : i = .crcUpd u) (hl : lifeOf (s.crcUnit u).cfg = true) :
      UnitChange i s u ((s.crcUnit u).withAcc ((s.crcUnit u).updated s.input))
  | reversed (hi : i = .crcRev u) (hl : lifeOf (s.crcUnit u).cfg = true) :
      UnitChange i s u ((s.crcUnit u).withAcc (revW (s.crcUnit u).width (s.crcUnit u).acc))

section
variable {i : Instr} {s t : State} {u : UnitId} {c : CrcUnit}

theorem UnitChange.of_eq (h : c = s.crcUnit u) : UnitChange i s u c := h ▸ .kept

theorem execCrcCfg_unitChange {p : Preset} (h : execCrcCfg p u s = .next t) :
    UnitChange (.crcCfg p u) s u (t.crcUnit u) := by
  rw [crcUnit_of_crcComplete_setUnit h]
  exact .configured p rfl

theorem execCrcInit_unitChange (h : execCrcInit u s = .next t) : UnitChange (.crcInit u) s u (t.crcUnit u) := by
  unfold execCrcInit at h
  split at h
  next hw => rw [crcUnit_of_crcComplete_setUnit h]; exact .initialised rfl hw
  next => exact .of_eq (crcUnit_of_raiseError h u)

theorem execCrcUpd_unitChange (h : execCrcUpd u s = .next t) : UnitChange (.crcUpd u) s u (t.crcUnit u) := by
  unfold execCrcUpd at h
  split at h
  next => exact .of_eq (crcUnit_of_raiseError h u)
  next hl =>
    split at h
    next => exact .of_eq (crcUnit_of_raiseError h u)
    next =>
      split at h
      next => exact .of_eq (crcUnit_of_raiseError h u)
      next => rw [crcUnit_of_crcComplete_setUnit h]; exact .updated rfl (by simpa using hl)

theorem execCrcRev_unitChange (h : execCrcRev u s = .next t) : UnitChange (.crcRev u) s u (t.crcUnit u) := by
  unfold execCrcRev at h
  split at h
  next => exact .of_eq (crcUnit_of_raiseError h u)
  next hl => rw [crcUnit_of_crcComplete_setUnit h]; exact .reversed rfl (by simpa using hl)

/-- Every command changes a unit in one of these ways only. -/
theorem exec_unitChange (h : exec i s = .next t) (u : UnitId) : UnitChange i s u (t.crcUnit u) := by
  by_cases hu : writtenUnit i = some u
  · obtain ⟨p, rfl⟩ | rfl | rfl | rfl := writtenUnit_eq_some_iff.1 hu
    · exact execCrcCfg_unitChange h
    · exact execCrcInit_unitChange h
    · exact execCrcUpd_unitChange h
    · exact execCrcRev_unitChange h
  · exact .of_eq (exec_keeps_crcUnit h hu)

/-! ### The registers of a unit under a change -/

/-- The registers of c' that a command other than CRC.CFG leaves as in c (rules R24, R25). -/
structure SameConfig (c c' : CrcUnit) : Prop where
  poly : c'.poly = c.poly
  init : c'.init = c.init
  xorout : c'.xorout = c.xorout
  width : widthOf c'.cfg = widthOf c.cfg
  refin : refinOf c'.cfg = refinOf c.cfg
  refout : refoutOf c'.cfg = refoutOf c.cfg

theorem sameConfig_withAcc (c : CrcUnit) (a : Word) : SameConfig c (c.withAcc a) := ⟨rfl, rfl, rfl, rfl, rfl, rfl⟩

theorem sameConfig_initialised (c : CrcUnit) : SameConfig c c.initialised :=
  ⟨rfl, rfl, rfl, widthOf_withLife _ _, refinOf_withLife _ _, refoutOf_withLife _ _⟩

theorem UnitChange.sameConfig (h : UnitChange i s u c) (hcfg : ∀ p, i ≠ .crcCfg p u) :
    SameConfig (s.crcUnit u) c := by
  cases h with
  | kept => exact ⟨rfl, rfl, rfl, rfl, rfl, rfl⟩
  | configured p hi => exact absurd hi (hcfg p)
  | initialised => exact sameConfig_initialised _
  | updated => exact sameConfig_withAcc _ _
  | reversed => exact sameConfig_withAcc _ _

theorem UnitChange.acc (h : UnitChange i s u c) (hinit : i ≠ .crcInit u) (hupd : i ≠ .crcUpd u)
    (hrev : i ≠ .crcRev u) : c.acc = (s.crcUnit u).acc := by
  cases h with
  | kept => rfl
  | configured => rfl
  | initialised hi => exact absurd hi hinit
  | updated hi => exact absurd hi hupd
  | reversed hi => exact absurd hi hrev

theorem UnitChange.mode (h : UnitChange i s u c) : modeOf c.cfg = modeOf (s.crcUnit u).cfg := by
  cases h with
  | kept => rfl
  | configured => exact modeOf_cfgWord _ _ _ _ _
  | initialised => exact modeOf_withLife _ _
  | updated => rfl
  | reversed => rfl

end

/-- Settles O56: a case split over what one command can leave in one unit. -/
theorem unitsAreWrittenOnlyByTheirOwnCommands : Obligations.UnitsAreWrittenOnlyByTheirOwnCommands := by
  intro i s t u h
  have change : UnitChange i s u (t.crcUnit u) := exec_unitChange h u
  refine ⟨fun hcfg hinit hupd hrev => exec_keeps_crcUnit h fun hu => ?_, change.acc, fun hcfg => ?_, change.mode⟩
  · obtain ⟨p, hi⟩ | hi | hi | hi := writtenUnit_eq_some_iff.1 hu
    exacts [hcfg p hi, hinit hi, hupd hi, hrev hi]
  · obtain ⟨hpoly, hinit, hxorout, hwidth, hrefin, hrefout⟩ := change.sameConfig hcfg
    exact ⟨hpoly, hinit, hxorout, hwidth, hrefin, hrefout⟩

end Sys2Proof.Machine
end

section
/-! PROOFS. Every step keeps the invariant (rules R15, R17, R24, R26, R27, R158, R160): the invariant of one CRC unit under
commands and host writes, then of the whole state under the two ends of a command, host accesses and resets. -/

namespace Sys2Proof.Machine

/-! ### One CRC unit -/

section
variable {c : CrcUnit}

/-- An UNINITIALIZED unit only has to keep CFG's reserved bits 0. -/
theorem UnitInv.of_uninitialised (hcfg : c.cfg &&& 0x7FFFF8C0#32 = 0#32) (hlife : lifeOf c.cfg = false) : UnitInv c := by
  refine ⟨hcfg, ?_, ?_, ?_⟩ <;> simp [hlife]

theorem unitInv_reset : UnitInv CrcUnit.reset := .of_uninitialised (by decide) (by decide)

theorem unitInv_configured (p : CrcParams) (c : CrcUnit) : UnitInv (c.configured p) :=
  .of_uninitialised (cfgWord_reserved _ _ _ _ _) (lifeOf_cfgWord _ _ _ _ _)

theorem unitInv_initialised (hw : 1 ≤ c.width ∧ c.width ≤ 32) : UnitInv c.initialised where
  cfg_reserved := cfgWord_reserved _ _ _ _ _
  width_pos _ := (widthOf_withLife true c.cfg).symm ▸ hw.1
  width_le _ := (widthOf_withLife true c.cfg).symm ▸ hw.2
  acc_lt _ := (widthOf_withLife true c.cfg).symm ▸ and_maskW_lt c.init hw.2

theorem UnitInv.withAcc {a : Word} (h : UnitInv c) (ha : a.toNat < 2 ^ c.width) : UnitInv (c.withAcc a) :=
  { h with acc_lt := fun _ => ha }

/-- `updateTable` keeps the accumulator in W bits. -/
theorem updateTable_lt {W : Nat} (hW : W ≤ 32) {Q A : Word} (hQ : Q.toNat < 2 ^ W) (hA : A.toNat < 2 ^ W) (x : Bits) :
    (updateTable W Q A x).toNat < 2 ^ W :=
  tableChunks_lt hW hQ _ A x hA (Nat.div_mul_le_self _ _)

/-- Either engine keeps the accumulator in W bits. -/
theorem UnitInv.updated_lt (h : UnitInv c) (hl : lifeOf c.cfg = true) (x : Bits) :
    (c.updated x).toNat < 2 ^ c.width := by
  have hW : c.width ≤ 32 := h.width_le hl
  have hQ : c.q.toNat < 2 ^ c.width := and_maskW_lt _ hW
  have hA : c.acc.toNat < 2 ^ c.width := h.acc_lt hl
  unfold CrcUnit.updated
  split
  · exact updateTable_lt hW hQ hA _
  · exact updateSerial_lt hW hQ _ _ hA

/-- Every change a command can make to a unit keeps its invariant. -/
theorem UnitChange.unitInv {i : Instr} {s : State} {u : UnitId} (h : UnitChange i s u c)
    (hs : UnitInv (s.crcUnit u)) : UnitInv c := by
  cases h with
  | kept => exact hs
  | configured p => exact unitInv_configured _ _
  | initialised _ hw => exact unitInv_initialised hw
  | updated _ hl => exact hs.withAcc (hs.updated_lt hl _)
  | reversed => exact hs.withAcc (revW_lt _)

/-- A host write to any register of a unit keeps the unit's invariant. -/
theorem UnitInv.hostWrite (h : UnitInv c) (v : Word) (r : UnitReg) : UnitInv (r.hostWrite v c) := by
  have uninit {c' : CrcUnit} {cfg : Word} (e : c'.cfg = withLife false cfg) : UnitInv c' :=
    .of_uninitialised (e ▸ cfgWord_reserved _ _ _ _ _) (e ▸ lifeOf_withLife _ _)
  cases r with
  | cfg => exact uninit rfl
  | poly => exact uninit rfl
  | init => exact uninit rfl
  | xorout => exact uninit rfl
  | acc => exact h

end

/-! ### The two ends of a command -/

section
variable {s t : State}

/-- After a completion STATUS is legal whatever it was; OLEN, the buffers and the units have to be. -/
theorem inv_of_complete {b : Bool} (h : complete b s = .next t) (holen : s.olen.toNat ≤ Config.obufBits)
    (hibuf : Memory.wf Config.ibufBits s.ibuf = true) (hobuf : Memory.wf Config.obufBits s.obuf = true)
    (hunits : ∀ u, UnitInv (t.crcUnit u)) : Inv t := by
  cases h
  have herr : errOf (completedStatus b s.status) = 0 := errOf_completedStatus b s.status
  exact ⟨statusWord_reserved _ _ _, by simp [herr], fun h => absurd herr h, fun h => absurd herr h, holen, hibuf, hobuf,
    hunits⟩

theorem errorNumber_le (e : ErrorCode) : (errorNumber e).toNat ≤ 4 := by cases e <;> decide

/-- Rule R160 leaves a legal STATUS with OLEN and RESULT 0, and touches nothing else. -/
theorem Inv.of_raiseError {e : ErrorCode} (hs : Inv s) (h : raiseError e s = .next t) : Inv t := by
  cases h
  exact {
    status_reserved := statusWord_reserved _ _ _
    err_legal := by simpa [errorStatus] using errorNumber_le e
    err_flags := fun _ => ⟨okOf_statusWord _ _ _, stickyOf_statusWord _ _ _⟩
    err_results := fun _ => ⟨rfl, rfl⟩
    olen_le := Nat.zero_le _
    ibuf_wf := hs.ibuf_wf
    obuf_wf := hs.obuf_wf
    units_inv := hs.units_inv }

theorem exec_keeps_inv {i : Instr} (hs : Inv s) (h : exec i s = .next t) : Inv t := by
  have hunits (u : UnitId) : UnitInv (t.crcUnit u) := (exec_unitChange h u).unitInv (hs.units_inv u)
  cases exec_shape s i with
  | error e ho => exact hs.of_raiseError (ho ▸ h)
  | output b bs r hlen ho =>
    have hcap : bs.length ≤ Config.obufBits := by simp only [Config.obufBits]; omega
    rw [ho] at h
    refine inv_of_complete h ?_ hs.ibuf_wf (Memory.wf_write hs.obuf_wf (by simpa using hcap)) hunits
    simpa using (Nat.mod_le _ _).trans hcap
  | scalar b r ho =>
    rw [ho] at h
    exact inv_of_complete h (Nat.zero_le _) hs.ibuf_wf hs.obuf_wf hunits
  | unit u c r _ ho =>
    rw [ho] at h
    exact inv_of_complete h (Nat.zero_le _) hs.ibuf_wf hs.obuf_wf hunits

/-! ### Host accesses and resets -/

theorem issueCommand_keeps_inv {w : Word} (hs : Inv s) (h : issueCommand w s = .next t) : Inv t := by
  unfold issueCommand at h
  split at h
  · exact exec_keeps_inv hs h
  · exact hs.of_raiseError h

/-- A unit's block of the window holds no word of IBUF. -/
theorem unitTarget_ne_ibuf (u : UnitId) (off w : Nat) : unitTarget u off ≠ .ibuf w := by
  unfold unitTarget
  split <;> simp

/-- The IBUF window ends with the buffer (rules R42, R44). -/
theorem targetOf_ibuf_le {off : Offset} {w : Nat} (h : targetOf off = .ibuf w) : 32 * w + 32 ≤ Config.ibufBits := by
  simp only [targetOf] at h
  iterate 7
    split at h
    · cases h
  split at h
  next =>
    split at h
    next => exact absurd h (unitTarget_ne_ibuf _ _ _)
    next =>
      split at h
      next hwin =>
        obtain ⟨_, hlt⟩ := hwin
        injection h with hw
        simp only [Config.ibufBits] at hlt ⊢
        omega
      next => split at h <;> cases h
  next => cases h

theorem writeTarget_keeps_inv {v : Word} {off : Offset} (hs : Inv s) (h : writeTarget v s (targetOf off) = .next t) :
    Inv t := by
  cases ho : targetOf off with
  | cmd => exact issueCommand_keeps_inv hs (ho ▸ h : writeTarget v s .cmd = .next t)
  | unitReg u r =>
    rw [ho] at h
    cases h
    refine { hs with units_inv := fun u' => ?_ }
    rw [State.setUnit_crcUnit]
    split
    · exact (hs.units_inv u).hostWrite v r
    · exact hs.units_inv u'
  | ibuf w =>
    rw [ho] at h
    cases h
    exact { hs with ibuf_wf := Memory.wf_write hs.ibuf_wf (by simpa using targetOf_ibuf_le ho) }
  | ilen | aux0 | aux1 => rw [ho] at h; cases h; exact { hs with }
  | status | olen | result | obuf | reserved => rw [ho] at h; cases h; exact hs

/-- The invariant reads nothing of the queue, the reply or the draw counter. -/
theorem Inv.setPending (hs : Inv s) (es : List HostEvent) : Inv (s.setPending es) := { hs with }

theorem Inv.setReply (hs : Inv s) (r : BusReply) : Inv (s.setReply r) := { hs with }

end

/-- Settles O7: every register is 0, so no unit is ACCUMULATING, and both buffers are empty. -/
theorem invariantHoldsAtReset : Obligations.InvariantHoldsAtReset where
  status_reserved := by decide
  err_legal := by decide
  err_flags := by decide
  err_results := by decide
  olen_le := by decide
  ibuf_wf := Memory.wf_reset.1
  obuf_wf := Memory.wf_reset.2
  units_inv u := (State.reset_crcUnit u).symm ▸ unitInv_reset

theorem inv_platformReset (s : State) : Inv (platformReset s) := { invariantHoldsAtReset with }

theorem hostEvent_keeps_inv {e : HostEvent} {s t : State} (hs : Inv s) (h : hostEvent e s = .next t) : Inv t := by
  cases e with
  | read off size =>
    simp only [hostEvent] at h
    split at h
    · cases h; exact hs.setReply _
    · cases h
  | write off size v =>
    simp only [hostEvent] at h
    split at h
    · exact writeTarget_keeps_inv (hs.setReply _) h
    · cases h
  | reset => cases h; exact inv_platformReset s

/-- Settles O8: a step idles, or takes one host event off the queue and performs it. -/
theorem everyStepKeepsTheInvariant : Obligations.EveryStepKeepsTheInvariant := by
  intro s t hs h
  cases hp : s.pending with
  | nil =>
    rw [step_nil s hp] at h
    cases h
    exact hs
  | cons e rest => exact hostEvent_keeps_inv (hs.setPending rest) (step_cons s e rest hp ▸ h)

end Sys2Proof.Machine
end

section
/-! PROOFS. What the step of a performed host write does: a CMD write runs the decoded command (rules R14, R49, R65), a
write to a register of a CRC unit stores it and clears LIFE (rules R29, R47, R48); and what a reset leaves (rules R39,
R167). -/

namespace Sys2Proof.Machine

/-- The step of a performed host write: the write is taken off the queue, answered and made at its target. -/
theorem step_write {s : State} {off : Offset} {v : Word} {rest : List HostEvent}
    (hs : s.pending = .write off 4 v :: rest) (hp : performed off 4 = true) :
    step s = writeTarget v { s with pending := rest, reply := .done } (targetOf off) := by
  rw [step_cons s _ _ hs]
  exact if_pos hp

/-- A CMD write issues its word (rules R14, R42). -/
theorem step_cmdWrite {s : State} {w : Word} {rest : List HostEvent} (hs : s.pending = .write 0x000 4 w :: rest) :
    step s = issueCommand w { s with pending := rest, reply := .done } :=
  step_write hs (by decide)

theorem issueCommand_ok {w : Word} {i : Instr} (h : decode w = .ok i) (s : State) : issueCommand w s = exec i s := by
  simp [issueCommand, h]

theorem issueCommand_error {w : Word} {r : Reject} (h : decode w = .error r) (s : State) :
    issueCommand w s = .next (errored 1 s) := by
  simp only [issueCommand, h]
  exact raiseError_eq .badCommand s

theorem decodeTableWord_eq_some {nbits n : Nat} {i : Instr} (h : decodeTableWord nbits n = some i) :
    decode (tableWord nbits n) = .ok i := by
  unfold decodeTableWord at h
  split at h
  next hd => rw [hd, Option.some.inj h]
  next => cases h

/-- Settles O4: a CMD write issues its word, and `withFetchWord` puts such a write in front. -/
theorem stepRunsTheDecodedCommand : Obligations.StepRunsTheDecodedCommand := by
  refine ⟨fun s rest w i hs hd => ?_, fun s rest w r hs hd => ?_, fun s n i hd => ?_⟩
  · rw [step_cmdWrite hs, issueCommand_ok hd]
  · rw [step_cmdWrite hs, issueCommand_error hd]
  · have hs : (s.withFetchWord 32 n).pending = .write 0x000 4 (tableWord 32 n) :: s.pending := rfl
    rw [step_cmdWrite hs, issueCommand_ok (decodeTableWord_eq_some hd)]
    rfl

/-! ### Reset -/

/-- Settles O6: a reset leaves `State.reset` but for the queue and the draw counter, which no register shows. -/
theorem resetLeavesTheSpecifiedValues : Obligations.ResetLeavesTheSpecifiedValues := by
  unfold Obligations.ResetLeavesTheSpecifiedValues
  intro Fresh
  have fresh (p : List HostEvent) (n : Nat) : Fresh { State.reset with pending := p, resets := n } := by
    refine ⟨rfl, rfl, rfl, rfl, rfl, rfl, fun u => ?_, fun _ => rfl, fun _ => rfl⟩
    have hu : State.crcUnit { State.reset with pending := p, resets := n } u = CrcUnit.reset := State.reset_crcUnit u
    rw [hu]
    exact ⟨rfl, rfl, rfl, rfl, rfl⟩
  exact ⟨fresh [] 0, fun s rest hs => ⟨_, step_cons s _ _ hs, fresh rest (s.resets + 1)⟩⟩

/-! ### The registers of a CRC unit -/

/-- The offset of a register within its unit's block (rule R47). -/
def UnitReg.offset : UnitReg → Nat
  | .cfg => 0x00
  | .poly => 0x04
  | .init => 0x08
  | .xorout => 0x0C
  | .acc => 0x10

/-- The window offset of a register of unit u (rules R42, R47). -/
def unitRegOffset (u : UnitId) (r : UnitReg) : Nat := 0x100 + 0x20 * u.val + r.offset

theorem targetOf_unitRegOffset (u : UnitId) (r : UnitReg) :
    targetOf (BitVec.ofNat 16 (unitRegOffset u r)) = .unitReg u r := by
  cases r <;> revert u <;> decide +kernel

theorem performed_unitRegOffset (u : UnitId) (r : UnitReg) :
    performed (BitVec.ofNat 16 (unitRegOffset u r)) 4 = true := by
  cases r <;> revert u <;> decide

/-- A host write to a register of a unit writes that unit, and nothing else. -/
theorem writeLeaves_unitReg (s : State) (u : UnitId) (r : UnitReg) (v : Word) :
    WriteLeaves s (unitRegOffset u r) v (s.setUnit u (r.hostWrite v (s.crcUnit u))) := by
  intro rest
  rw [step_write rfl (performed_unitRegOffset u r), targetOf_unitRegOffset]
  rfl

/-- Clearing LIFE keeps bits 10:8 and 5:0 of a CFG word and no other bit (rules R24, R47). -/
theorem withLife_false_eq_and (cfg : Word) : withLife false cfg = cfg &&& 0x73F#32 := by
  refine BitVec.eq_of_getLsbD_eq fun i hi => ?_
  simp only [withLife, cfgWord, widthOf, refinOf, refoutOf, modeOf, BitVec.ofNat_toNat, BitVec.getLsbD_append,
    BitVec.getLsbD_and]
  interval_cases i <;> simp

/-- Settles O17: each clause is a host write to one register, whose new CFG has LIFE 0. -/
theorem configurationWriteUninitialisesTheUnit : Obligations.ConfigurationWriteUninitialisesTheUnit := by
  intro s u v c
  simp only [← withLife_false_eq_and]
  exact ⟨writeLeaves_unitReg s u .cfg v, writeLeaves_unitReg s u .poly v, writeLeaves_unitReg s u .init v,
    writeLeaves_unitReg s u .xorout v⟩

end Sys2Proof.Machine
end

section
/-! PROOFS. What a command reads and what it leaves alone (rules R16, R19 to R21, R38): two states with the same operands
make a command end the same way. -/

namespace Sys2Proof.Machine

/-- The two states agree on everything a command reads: ILEN, the input bits, AUX0, AUX1 and the CRC units (rule R67). -/
structure SameOperands (s s' : State) : Prop where
  inputLength : s'.inputLength = s.inputLength
  input : s'.input = s.input
  mask : s'.maskOperand = s.maskOperand
  expected : s'.expectedOperand = s.expectedOperand
  crcUnit : ∀ u, s'.crcUnit u = s.crcUnit u

/-- o and o' are one and the same ending, with the same results, of a command run on s and on s'. -/
inductive SameEnding (s s' : State) (o o' : Outcome) : Prop where
  | error (e : ErrorCode) (h : o = raiseError e s) (h' : o' = raiseError e s')
  | output (b : Bool) (bs : Bits) (r : Word) (h : o = complete b ((s.setOutput bs).setResult r))
      (h' : o' = complete b ((s'.setOutput bs).setResult r))
  | scalar (b : Bool) (r : Word) (h : o = complete b ((s.setOlen 0).setResult r))
      (h' : o' = complete b ((s'.setOlen 0).setResult r))
  | unit (u : UnitId) (c : CrcUnit) (r : Word) (h : o = complete true (((s.setUnit u c).setOlen 0).setResult r))
      (h' : o' = complete true (((s'.setUnit u c).setOlen 0).setResult r))

section
variable {s s' : State}

theorem SameEnding.ite {p : Prop} [Decidable p] {a b a' b' : Outcome} (ha : SameEnding s s' a a')
    (hb : SameEnding s s' b b') : SameEnding s s' (if p then a else b) (if p then a' else b') := by
  split
  · exact ha
  · exact hb

theorem SameOperands.inputTooLong (h : SameOperands s s') : s'.inputTooLong = s.inputTooLong := by
  simp only [State.inputTooLong, h.inputLength]

variable (h : SameOperands s s')
include h

theorem execPcEnc_sameEnding (v : Variant) : SameEnding s s' (execPcEnc v s) (execPcEnc v s') := by
  unfold execPcEnc
  rw [h.inputTooLong, h.input]
  refine .ite (.error _ rfl rfl) ?_
  cases encodeProduct (variantDesc v) s.input with
  | none => exact .error _ rfl rfl
  | some y => exact .output _ _ _ rfl rfl

theorem execTrDec_sameEnding : SameEnding s s' (execTrDec s) (execTrDec s') := by
  unfold execTrDec
  rw [h.inputLength, h.input]
  refine .ite (.error _ rfl rfl) ?_
  cases trellisDecode s.input with
  | error j => exact .scalar _ _ rfl rfl
  | ok r => exact .output _ _ _ rfl rfl

theorem execCrcUpd_sameEnding (u : UnitId) : SameEnding s s' (execCrcUpd u s) (execCrcUpd u s') := by
  simp only [execCrcUpd, h.crcUnit, h.inputTooLong, h.inputLength, h.input]
  exact .ite (.error _ rfl rfl) (.ite (.error _ rfl rfl) (.ite (.error _ rfl rfl) (.unit _ _ _ rfl rfl)))

theorem execCrcCalc_sameEnding (p : Preset) : SameEnding s s' (execCrcCalc p s) (execCrcCalc p s') := by
  unfold execCrcCalc
  rw [h.inputTooLong, h.input, h.mask]
  refine .ite (.error _ rfl rfl) ?_
  cases calculate p s.input s.maskOperand with
  | none => exact .error _ rfl rfl
  | some v => exact .scalar _ _ rfl rfl

theorem execCrcVer_sameEnding (p : Preset) : SameEnding s s' (execCrcVer p s) (execCrcVer p s') := by
  unfold execCrcVer
  rw [h.inputTooLong, h.input, h.mask, h.expected]
  refine .ite (.error _ rfl rfl) ?_
  cases calculate p s.input s.maskOperand with
  | none => exact .error _ rfl rfl
  | some v => exact .scalar _ _ rfl rfl

/-- A command reads nothing but its operands (rule R67). -/
theorem exec_sameEnding (i : Instr) : SameEnding s s' (exec i s) (exec i s') := by
  cases i with
  | bmcSyn | bmcCor | bmcGen | pcDia | pcDid | pcRep | trEnc =>
    simp only [exec, execBmcSyn, execBmcCor, execBmcGen, execPcDia, execPcDid, execPcRep, execTrEnc, h.inputLength,
      h.input]
    exact .ite (.error _ rfl rfl) (.output _ _ _ rfl rfl)
  | bmcChk | crcDig =>
    simp only [exec, execBmcChk, execCrcDig, h.inputLength, h.input, h.crcUnit]
    exact .ite (.error _ rfl rfl) (.scalar _ _ rfl rfl)
  | crcCfg p u =>
    simp only [exec, execCrcCfg, h.crcUnit]
    exact .unit _ _ _ rfl rfl
  | crcInit u =>
    simp only [exec, execCrcInit, h.crcUnit]
    exact .ite (.unit _ _ _ rfl rfl) (.error _ rfl rfl)
  | crcRev u =>
    simp only [exec, execCrcRev, h.crcUnit]
    exact .ite (.error _ rfl rfl) (.unit _ _ _ rfl rfl)
  | crcUpd u => exact execCrcUpd_sameEnding h u
  | pcEnc v => exact execPcEnc_sameEnding h v
  | trDec => exact execTrDec_sameEnding h
  | crcCalc p => exact execCrcCalc_sameEnding h p
  | crcVer p => exact execCrcVer_sameEnding h p

end

/-! ### STATUS -/

theorem sameOperands_setStatus (s : State) (v : Word) : SameOperands s (s.setStatus v) :=
  ⟨rfl, rfl, rfl, rfl, fun _ => rfl⟩

/-- A completion takes only STICKY from the STATUS before it (rule R157). -/
theorem complete_setStatus {b : Bool} {s t : State} (h : complete b s = .next t) (v : Word) :
    ∃ v', complete b (s.setStatus v) = .next (t.setStatus v') ∧ okOf v' = okOf t.status ∧ errOf v' = errOf t.status := by
  cases h
  exact ⟨completedStatus b v, rfl, by simp, by simp⟩

/-- An error takes nothing from the STATUS before it (rule R160). -/
theorem raiseError_setStatus {e : ErrorCode} {s t : State} (h : raiseError e s = .next t) (v : Word) :
    raiseError e (s.setStatus v) = .next (t.setStatus t.status) := by
  cases h
  rfl

/-- Settles O54: the ending is the same, and neither kind of ending shows more of the old STATUS than STICKY. -/
theorem commandsNeverReadStatus : Obligations.CommandsNeverReadStatus := by
  intro i s t v h
  cases exec_sameEnding (sameOperands_setStatus s v) i with
  | error e ho ho' => exact ⟨t.status, ho'.trans (raiseError_setStatus (ho ▸ h) v), rfl, rfl⟩
  | output b bs r ho ho' => rw [ho] at h; rw [ho']; exact complete_setStatus h v
  | scalar b r ho ho' => rw [ho] at h; rw [ho']; exact complete_setStatus h v
  | unit u c r ho ho' => rw [ho] at h; rw [ho']; exact complete_setStatus h v

/-! ### The operands themselves -/

/-- Settles O55: neither end of a command, nor a write of OBUF, of OLEN, of RESULT or of a unit before it, touches an
operand or one of the model's own fields. -/
theorem noCommandWritesItsOperands : Obligations.NoCommandWritesItsOperands := by
  intro i s t h
  cases exec_shape s i with
  | error _ ho | output _ _ _ _ ho | scalar _ _ ho | unit _ _ _ _ ho =>
    rw [ho] at h
    cases h
    exact ⟨rfl, rfl, rfl, fun _ => rfl, rfl, rfl, rfl⟩

end Sys2Proof.Machine
end

section
/-! PROOFS. The host window (rules R40 to R48, R166): which events a step answers, what a word read delivers and what a
word write leaves, by the target its offset names. -/

namespace Sys2Proof.Machine

/-! ### Which events a step answers -/

/-- Settles O11: such an event is not clean, and CORE refuses an event that is not clean. -/
theorem misalignedOrNarrowAccessIsRefused : Obligations.MisalignedOrNarrowAccessIsRefused := by
  intro s rest off size v hbad
  have hp : performed off size = false := by simpa [performed, imp_iff_not_or] using hbad
  exact ⟨fun hs => (step_cons s _ _ hs).trans (hostEvent_cases (.read off size) _ hp),
    fun hs => (step_cons s _ _ hs).trans (hostEvent_cases (.write off size v) _ hp)⟩

theorem exec_answers (i : Instr) (s : State) : ∃ t, exec i s = .next t := by
  cases exec_shape s i with
  | error _ ho | output _ _ _ _ ho | scalar _ _ ho | unit _ _ _ _ ho => exact ⟨_, ho⟩

theorem issueCommand_answers (w : Word) (s : State) : ∃ t, issueCommand w s = .next t := by
  cases hd : decode w with
  | ok i => rw [issueCommand_ok hd]; exact exec_answers i s
  | error r => exact ⟨_, issueCommand_error hd s⟩

theorem writeTarget_answers (v : Word) (s : State) (k : Target) : ∃ t, writeTarget v s k = .next t := by
  cases k with
  | cmd => exact issueCommand_answers v s
  | status | ilen | olen | result | aux0 | aux1 | unitReg | ibuf | obuf | reserved => exact ⟨_, rfl⟩

/-- CORE answers the events that are clean, and only those (rules R41, R43, R167). -/
theorem hostEvent_answers_iff (e : HostEvent) (s : State) : (∃ t, hostEvent e s = .next t) ↔ e.clean = true := by
  constructor
  · rintro ⟨t, ht⟩
    by_contra hc
    rw [hostEvent_cases e s (by simpa using hc)] at ht
    cases ht
  · intro hc
    cases e with
    | read off size => exact ⟨_, if_pos hc⟩
    | write off size v =>
      obtain ⟨t, ht⟩ := writeTarget_answers v (s.setReply .done) (targetOf off)
      exact ⟨t, (if_pos hc).trans ht⟩
    | reset => exact ⟨_, rfl⟩

/-- Settles O12: a step idles, or answers the oldest pending event if that is clean. -/
theorem stepAnswersExactlyCleanEvents : Obligations.StepAnswersExactlyCleanEvents := by
  intro s
  cases hs : s.pending with
  | nil => simp [step_nil s hs]
  | cons e rest => simp [step_cons s e rest hs, hostEvent_answers_iff]

/-! ### An access at an offset whose target is known -/

section
variable {s t : State} {a : Nat} {k : Target}

theorem performed_of_aligned (ha : a % 4 = 0) : performed (BitVec.ofNat 16 a) 4 = true := by
  simp only [performed, BitVec.toNat_ofNat, BEq.rfl, Bool.true_and, beq_iff_eq]
  omega

/-- No target shows the queue or the last reply. -/
theorem readTarget_setPending (s : State) (rest : List HostEvent) (k : Target) :
    readTarget (s.setPending rest) k = readTarget s k := by
  cases k <;> rfl

/-- A word read delivers its target and changes nothing (rules R42, R48). -/
theorem readsAs_of_targetOf (ha : a % 4 = 0) (hk : targetOf (BitVec.ofNat 16 a) = k) :
    ReadsAs s a (readTarget s k) := by
  intro rest
  have hread : hostEvent (.read (BitVec.ofNat 16 a) 4) (s.setPending rest) = .next ((s.setPending rest).setReply
      (.data (readTarget (s.setPending rest) (targetOf (BitVec.ofNat 16 a))))) := if_pos (performed_of_aligned ha)
  rw [readTarget_setPending, hk] at hread
  exact (step_cons _ _ rest rfl).trans hread

/-- A word write leaves what the write to its target leaves. -/
theorem writeLeaves_of_targetOf {v : Word} (ha : a % 4 = 0) (hk : targetOf (BitVec.ofNat 16 a) = k)
    (hw : ∀ rest, writeTarget v { s with pending := rest, reply := .done } k =
      .next { t with pending := rest, reply := .done }) : WriteLeaves s a v t := by
  intro rest
  rw [step_write rfl (performed_of_aligned ha), hk]
  exact hw rest

end

/-! ### The register map from 0x01C on (rules R42, R47) -/

section
variable {a : Nat}

theorem toNat_ofNat_offset (h : a < 0x10000) : (BitVec.ofNat 16 a).toNat = a := by
  rw [BitVec.toNat_ofNat]
  exact Nat.mod_eq_of_lt h

/-- From 0x100 on the window holds the unit blocks, the buffer windows and reserved offsets. -/
theorem targetOf_of_ge (hlo : 0x100 ≤ a) (hhi : a < 0x10000) : targetOf (BitVec.ofNat 16 a) =
    if h : (a - 0x100) / 0x20 < Config.nCrc then unitTarget ⟨(a - 0x100) / 0x20, h⟩ ((a - 0x100) % 0x20)
    else if 0x1000 ≤ a ∧ a < 0x1200 then .ibuf ((a - 0x1000) / 4)
    else if 0x2000 ≤ a ∧ a < 0x2200 then .obuf ((a - 0x2000) / 4)
    else .reserved := by
  simp only [targetOf, toNat_ofNat_offset hhi]
  iterate 7 rw [if_neg (by omega)]
  rw [if_pos hlo]
  rfl

theorem targetOf_ibufWord {w : Nat} (hw : w < 128) : targetOf (BitVec.ofNat 16 (0x1000 + 4 * w)) = .ibuf w := by
  rw [targetOf_of_ge (by omega) (by omega), dif_neg (by simp only [Config.nCrc]; omega), if_pos (by omega)]
  congr 1
  omega

theorem targetOf_obufWord {w : Nat} (hw : w < 128) : targetOf (BitVec.ofNat 16 (0x2000 + 4 * w)) = .obuf w := by
  rw [targetOf_of_ge (by omega) (by omega), dif_neg (by simp only [Config.nCrc]; omega), if_neg (by omega),
    if_pos (by omega)]
  congr 1
  omega

/-- A unit's block is reserved after ACC_u (rule R47). -/
theorem unitTarget_of_ge (u : UnitId) {off : Nat} (h : 0x14 ≤ off) : unitTarget u off = .reserved := by
  unfold unitTarget
  split
  iterate 5 omega
  rfl

theorem targetOf_reserved (ha : ReservedOffset a) : targetOf (BitVec.ofNat 16 a) = .reserved := by
  rcases ha with ⟨hlo, hhi⟩ | ⟨hlo, hhi, hoff⟩ | hrange
  · simp only [targetOf, toNat_ofNat_offset (show a < 0x10000 by omega)]
    iterate 8 rw [if_neg (by omega)]
  · rw [targetOf_of_ge hlo (by omega), dif_pos (by simp only [Config.nCrc]; omega)]
    exact unitTarget_of_ge _ (by omega)
  · rw [targetOf_of_ge (by omega) (by omega), dif_neg (by simp only [Config.nCrc]; omega), if_neg (by omega),
      if_neg (by omega)]

end

/-! ### Registers -/

theorem unitRegOffset_aligned (u : UnitId) (r : UnitReg) : unitRegOffset u r % 4 = 0 := by
  unfold unitRegOffset
  cases r <;> simp only [UnitReg.offset] <;> omega

theorem readsAs_unitReg (s : State) (u : UnitId) (r : UnitReg) : ReadsAs s (unitRegOffset u r) (r.get (s.crcUnit u)) :=
  readsAs_of_targetOf (unitRegOffset_aligned u r) (targetOf_unitRegOffset u r)

/-- Settles O13: each offset names the register, and a read delivers the register its offset names. -/
theorem registerReadsFollowTheMap : Obligations.RegisterReadsFollowTheMap := by
  intro s
  exact ⟨readsAs_of_targetOf (k := .cmd) rfl rfl, readsAs_of_targetOf (k := .status) rfl rfl,
    readsAs_of_targetOf (k := .ilen) rfl rfl, readsAs_of_targetOf (k := .olen) rfl rfl,
    readsAs_of_targetOf (k := .result) rfl rfl, readsAs_of_targetOf (k := .aux0) rfl rfl,
    readsAs_of_targetOf (k := .aux1) rfl rfl,
    fun u => ⟨readsAs_unitReg s u .cfg, readsAs_unitReg s u .poly, readsAs_unitReg s u .init,
      readsAs_unitReg s u .xorout, readsAs_unitReg s u .acc⟩,
    fun _ ha hr => readsAs_of_targetOf (k := .reserved) ha (targetOf_reserved hr)⟩

/-- A host write to a word of the OBUF window is ignored (rule R45). -/
theorem writeLeaves_obufWord (s : State) (v : Word) {w : Nat} (hw : w < 128) : WriteLeaves s (0x2000 + 4 * w) v s :=
  writeLeaves_of_targetOf (by omega) (targetOf_obufWord hw) fun _ => rfl

theorem State.setUnit_crcUnit_self (s : State) (u : UnitId) : s.setUnit u (s.crcUnit u) = s := by
  simp [State.setUnit, State.setUnits, State.crcUnit, Vector.get_eq_getElem]

/-- ACC_u is read-only (rule R48). -/
theorem writeLeaves_acc (s : State) (u : UnitId) (v : Word) : WriteLeaves s (unitRegOffset u .acc) v s := by
  have hw := writeLeaves_unitReg s u .acc v
  rwa [UnitReg.hostWrite, State.setUnit_crcUnit_self] at hw

/-- Settles O14: each offset names its target, and only ILEN, AUX0 and AUX1 of these targets take the word. -/
theorem registerWritesFollowTheMap : Obligations.RegisterWritesFollowTheMap := by
  intro s v
  exact ⟨writeLeaves_of_targetOf (k := .ilen) rfl rfl fun _ => rfl,
    writeLeaves_of_targetOf (k := .aux0) rfl rfl fun _ => rfl,
    writeLeaves_of_targetOf (k := .aux1) rfl rfl fun _ => rfl,
    writeLeaves_of_targetOf (k := .status) rfl rfl fun _ => rfl,
    writeLeaves_of_targetOf (k := .olen) rfl rfl fun _ => rfl,
    writeLeaves_of_targetOf (k := .result) rfl rfl fun _ => rfl,
    fun u => writeLeaves_acc s u v, fun _ hw => writeLeaves_obufWord s v hw,
    fun _ ha hr => writeLeaves_of_targetOf ha (targetOf_reserved hr) fun _ => rfl⟩

/-! ### The buffer windows -/

/-- Bit `31 − j` of word w of a buffer is buffer bit `32w + j` (rules R44, R45). -/
theorem getLsbD_bufferWord (bit : Nat → Bool) (w : Nat) {j : Nat} (hj : j < 32) :
    (bufferWord bit w).getLsbD (31 - j) = bit (32 * w + j) := by
  have hbit := testBit_intOf ((List.range 32).map fun j => bit (32 * w + j)) j (by simpa using hj)
  simp only [List.length_map, List.length_range, List.getElem_map, List.getElem_range] at hbit
  rw [bufferWord, wordOf, BitVec.getLsbD_ofNat, hbit, decide_eq_true (by omega), Bool.true_and]

theorem getD_bitsOf_toNat (v : Word) {j : Nat} (hj : j < 32) :
    (bitsOf 32 v.toNat).getD j false = v.getLsbD (31 - j) := by
  rw [List.getD_eq_getElem _ _ (by simpa using hj), getElem_bitsOf]
  rfl

/-- Settles O15: a word of the IBUF window is 32 consecutive bits of IBUF, the first of them at bit 31. -/
theorem ibufWindowHoldsWordsMsbFirst : Obligations.IbufWindowHoldsWordsMsbFirst := by
  intro s v w hw
  have haligned : (0x1000 + 4 * w) % 4 = 0 := by omega
  have hbit (i : Nat) := State.ibufBit_setIbuf_write s (32 * w) (bitsOf 32 v.toNat) i
  rw [length_bitsOf] at hbit
  refine ⟨⟨Memory.write (32 * w) (bitsOf 32 v.toNat) s.ibuf,
      writeLeaves_of_targetOf haligned (targetOf_ibufWord hw) fun _ => rfl, fun j hj => ?_, fun k hk => ?_⟩,
    ⟨_, readsAs_of_targetOf haligned (targetOf_ibufWord hw), fun j hj => getLsbD_bufferWord _ _ hj⟩⟩
  · rw [hbit, if_pos (by omega), Nat.add_sub_cancel_left, getD_bitsOf_toNat v hj]
  · rw [hbit, if_neg (by omega)]

/-- Settles O16: a word of the OBUF window is read like one of the IBUF window, and a write to it is ignored. -/
theorem obufWindowIsReadOnlyMsbFirst : Obligations.ObufWindowIsReadOnlyMsbFirst := by
  intro s v w hw
  exact ⟨writeLeaves_obufWord s v hw, _, readsAs_of_targetOf (by omega) (targetOf_obufWord hw),
    fun j hj => getLsbD_bufferWord _ _ hj⟩

end Sys2Proof.Machine
end

section
/-! PROOFS. The buffers under a command (rules R22, R56): it reads IBUF below ILEN only, and writes OBUF below OLEN
only. -/

namespace Sys2Proof.Machine

section
variable {s t : State}

/-- Only the bits of IBUF below ILEN are operands (rule R56). -/
theorem sameOperands_setIbuf {m : Memory} (h : ∀ k < s.ilen.toNat, (s.setIbuf m).ibufBit k = s.ibufBit k) :
    SameOperands s (s.setIbuf m) where
  inputLength := rfl
  input := List.map_congr_left fun k hk => h k (List.mem_range.1 hk)
  mask := rfl
  expected := rfl
  crcUnit _ := rfl

/-- The same ending on another IBUF is the same next state with that IBUF. -/
theorem SameEnding.setIbuf {m : Memory} {o o' : Outcome} (h : SameEnding s (s.setIbuf m) o o') (ho : o = .next t) :
    o' = .next (t.setIbuf m) := by
  cases h with
  | error _ h h' | output _ _ _ h h' | scalar _ _ h h' | unit _ _ _ h h' =>
    rw [ho] at h
    cases h
    exact h'

/-- A command leaves OBUF from OLEN on as it was (rule R22). -/
theorem exec_keeps_obuf {i : Instr} (h : exec i s = .next t) {k : Nat} (hk : t.olen.toNat ≤ k) :
    t.obufBit k = s.obufBit k := by
  cases exec_shape s i with
  | output b bs r hlen ho =>
    rw [ho] at h
    cases h
    exact (keepsAllButOutput_output s bs r _ (by omega)).obuf k hk
  | error _ ho | scalar _ _ ho | unit _ _ _ _ ho =>
    rw [ho] at h
    cases h
    rfl

end

/-- Settles O53: IBUF from ILEN on is no operand, so the ending is the same; and only bit output writes OBUF. -/
theorem commandsReadBelowIlenAndWriteBelowOlen : Obligations.CommandsReadBelowIlenAndWriteBelowOlen := by
  intro i s t h
  exact ⟨fun m hm => (exec_sameEnding (sameOperands_setIbuf hm) i).setIbuf h, fun k hk => exec_keeps_obuf h hk⟩

end Sys2Proof.Machine
end

section
/-! PROOFS. The command word (rules R58 to R66): its fields and its operand ids each determine the other, every operand
form of rule R65 accepts exactly the fields the encoder writes, and so decode and encode are inverse, the words that decode
are the legal ones, and a CMD write executes those only. -/

namespace Sys2Proof.Machine

/-! ### A word and its fields (rule R58) -/

section
variable (opc : BitVec 8) (sel unit : BitVec 4) (flags : BitVec 2)

@[simp] theorem opcOf_packWord : opcOf (packWord opc sel unit flags) = opc := by
  unfold opcOf packWord
  iterate 4 rw [BitVec.extractLsb'_append_eq_of_le (by decide)]
  exact BitVec.extractLsb'_eq_self

@[simp] theorem selOf_packWord : selOf (packWord opc sel unit flags) = sel := by
  unfold selOf packWord
  iterate 3 rw [BitVec.extractLsb'_append_eq_of_le (by decide)]
  exact BitVec.extractLsb'_append_eq_right

@[simp] theorem unitOf_packWord : unitOf (packWord opc sel unit flags) = unit := by
  unfold unitOf packWord
  iterate 2 rw [BitVec.extractLsb'_append_eq_of_le (by decide)]
  exact BitVec.extractLsb'_append_eq_right

@[simp] theorem flagsOf_packWord : flagsOf (packWord opc sel unit flags) = flags := BitVec.extractLsb'_append_eq_right

end

/-- A word whose reserved bits are 0 is put together again from its other fields. -/
theorem packWord_fields {w : Word} (h : reservedOf w = 0) : packWord (opcOf w) (selOf w) (unitOf w) (flagsOf w) = w := by
  have h0 : 0#14 = w.extractLsb' 2 14 := h.symm
  unfold packWord opcOf selOf unitOf flagsOf
  rw [h0]
  iterate 4 rw [BitVec.extractLsb'_append_extractLsb'_eq_extractLsb' (by decide)]
  exact BitVec.extractLsb'_eq_self

/-- The fields of a word, with bits 15:2 zero, say which word it is (rule R58). -/
theorem packWord_eq_iff {opc : BitVec 8} {sel unit : BitVec 4} {flags : BitVec 2} {w : Word} :
    packWord opc sel unit flags = w ↔
      reservedOf w = 0 ∧ opcOf w = opc ∧ selOf w = sel ∧ unitOf w = unit ∧ flagsOf w = flags := by
  constructor
  · rintro rfl
    simp [Laws.ReservedBitsZero.packWord_reserved]
  · rintro ⟨h, rfl, rfl, rfl, rfl⟩
    exact packWord_fields h

/-! ### Operand ids (rules R58, R60 to R63) -/

theorem codeOfSel_eq_some_iff {sel : BitVec 4} {c : Code} : codeOfSel sel = some c ↔ sel = selOfCode c := by
  cases c <;> revert sel <;> decide

theorem variantOfSel_eq_some_iff {sel : BitVec 4} {v : Variant} : variantOfSel sel = some v ↔ sel = selOfVariant v := by
  cases v <;> revert sel <;> decide

theorem presetOfSel_eq_some_iff {sel : BitVec 4} {p : Preset} : presetOfSel sel = some p ↔ sel = selOfPreset p := by
  cases p <;> revert sel <;> decide

theorem unitOfField_eq_some_iff : ∀ {f : BitVec 4} {u : UnitId}, unitOfField f = some u ↔ f = fieldOfUnit u := by
  decide

@[simp] theorem getElem_flagsOfDid : ∀ repair special : Bool,
    (flagsOfDid repair special)[0] = repair ∧ (flagsOfDid repair special)[1] = special := by
  decide

theorem flagsOfDid_getElem : ∀ fl : BitVec 2, flagsOfDid fl[0] fl[1] = fl := by decide

/-- Where a table `ofSel` of operands inverts their numbering `toSel`, the numbers given out are those in the table. -/
theorem exists_eq_toSel_iff_isSome {α : Type} {ofSel : BitVec 4 → Option α} {toSel : α → BitVec 4}
    (h : ∀ {x a}, ofSel x = some a ↔ x = toSel a) (x : BitVec 4) : (∃ a, x = toSel a) ↔ (ofSel x).isSome = true := by
  simp only [Option.isSome_iff_exists, h]

theorem exists_selOfCode_iff (sel : BitVec 4) : (∃ c, sel = selOfCode c) ↔ sel.toNat ≤ 7 := by
  rw [exists_eq_toSel_iff_isSome codeOfSel_eq_some_iff]
  revert sel
  decide

theorem exists_selOfVariant_iff (sel : BitVec 4) : (∃ v, sel = selOfVariant v) ↔ sel.toNat ≤ 3 := by
  rw [exists_eq_toSel_iff_isSome variantOfSel_eq_some_iff]
  revert sel
  decide

theorem exists_selOfPreset_iff (sel : BitVec 4) : (∃ p, sel = selOfPreset p) ↔ sel.toNat ≤ 4 := by
  rw [exists_eq_toSel_iff_isSome presetOfSel_eq_some_iff]
  revert sel
  decide

theorem exists_fieldOfUnit_iff (f : BitVec 4) : (∃ u, f = fieldOfUnit u) ↔ f.toNat < 4 := by
  rw [exists_eq_toSel_iff_isSome unitOfField_eq_some_iff]
  revert f
  decide

/-- FLAGS is legal for a variant: SPECIAL (bit 1) is 0, or the variant is one of the two with a special field (R63). -/
theorem pcDid_wellFormed_iff (v : Variant) (fl : BitVec 2) :
    (Instr.pcDid v fl[0] fl[1]).wellFormed = true ↔
      fl.toNat < 2 ∨ (selOfVariant v).toNat = 1 ∨ (selOfVariant v).toNat = 3 := by
  cases v <;> revert fl <;> decide

/-! ### What each operand form accepts (rule R65) -/

section
variable {w : Word} {i : Instr}

theorem decodeCodeForm_eq_ok_iff {k : Code → Instr} :
    decodeCodeForm w k = .ok i ↔ ∃ c, selOf w = selOfCode c ∧ unitOf w = 0 ∧ flagsOf w = 0 ∧ k c = i := by
  simp only [← codeOfSel_eq_some_iff]
  unfold decodeCodeForm
  split_ifs <;> cases codeOfSel (selOf w) <;> simp_all

theorem decodeVariantForm_eq_ok_iff {k : Variant → Instr} :
    decodeVariantForm w k = .ok i ↔ ∃ v, selOf w = selOfVariant v ∧ unitOf w = 0 ∧ flagsOf w = 0 ∧ k v = i := by
  simp only [← variantOfSel_eq_some_iff]
  unfold decodeVariantForm
  split_ifs <;> cases variantOfSel (selOf w) <;> simp_all

theorem decodePresetForm_eq_ok_iff {k : Preset → Instr} :
    decodePresetForm w k = .ok i ↔ ∃ p, selOf w = selOfPreset p ∧ unitOf w = 0 ∧ flagsOf w = 0 ∧ k p = i := by
  simp only [← presetOfSel_eq_some_iff]
  unfold decodePresetForm
  split_ifs <;> cases presetOfSel (selOf w) <;> simp_all

theorem decodePlainForm_eq_ok_iff {j : Instr} :
    decodePlainForm w j = .ok i ↔ selOf w = 0 ∧ unitOf w = 0 ∧ flagsOf w = 0 ∧ j = i := by
  unfold decodePlainForm
  split_ifs <;> simp_all

theorem decodeUnitForm_eq_ok_iff {k : UnitId → Instr} :
    decodeUnitForm w k = .ok i ↔ ∃ u, selOf w = 0 ∧ unitOf w = fieldOfUnit u ∧ flagsOf w = 0 ∧ k u = i := by
  simp only [← unitOfField_eq_some_iff]
  unfold decodeUnitForm
  split_ifs <;> cases unitOfField (unitOf w) <;> simp_all

theorem decodeCrcCfg_eq_ok_iff :
    decodeCrcCfg w = .ok i ↔
      ∃ p u, selOf w = selOfPreset p ∧ unitOf w = fieldOfUnit u ∧ flagsOf w = 0 ∧ .crcCfg p u = i := by
  simp only [← presetOfSel_eq_some_iff, ← unitOfField_eq_some_iff]
  unfold decodeCrcCfg
  split_ifs <;> cases presetOfSel (selOf w) <;> cases unitOfField (unitOf w) <;> simp_all

theorem decodePcDid_eq_ok_iff :
    decodePcDid w = .ok i ↔ ∃ v, selOf w = selOfVariant v ∧ unitOf w = 0 ∧
      (Instr.pcDid v (flagsOf w)[0] (flagsOf w)[1]).wellFormed = true ∧ .pcDid v (flagsOf w)[0] (flagsOf w)[1] = i := by
  simp only [← variantOfSel_eq_some_iff, Instr.wellFormed]
  unfold decodePcDid
  split_ifs with hunit
  · simp_all
  · cases variantOfSel (selOf w) with
    | none => simp
    | some v => dsimp only; split_ifs <;> simp_all [imp_iff_not_or]

/-! ### Decode and encode -/

/-- The test of the opcode list loses no command: `decodeOpcode` refuses the same opcodes. -/
theorem decode_eq_ok_iff : decode w = .ok i ↔ reservedOf w = 0 ∧ decodeOpcode w = .ok i := by
  have hopc : (opcOf w).toNat ∉ opcodes → decodeOpcode w = .error .reservedOpcode := by
    intro h
    unfold decodeOpcode
    split <;> simp_all [opcodes]
  unfold decode
  split_ifs <;> simp_all

theorem decode_packWord_eq_ok_iff {opc : BitVec 8} {sel unit : BitVec 4} {flags : BitVec 2} :
    decode (packWord opc sel unit flags) = .ok i ↔ decodeOpcode (packWord opc sel unit flags) = .ok i := by
  simp [decode_eq_ok_iff, Laws.ReservedBitsZero.packWord_reserved]

/-- Every legal command decodes from its word: the operands' form reads back the fields packed into it. -/
theorem decode_encode (h : i.wellFormed = true) : decode (encode i) = .ok i := by
  cases i with
  | bmcSyn c | bmcChk c | bmcCor c | bmcGen c =>
    simp [encode, decode_packWord_eq_ok_iff, decodeOpcode, decodeCodeForm_eq_ok_iff]
  | pcDia v | pcRep v | pcEnc v =>
    simp [encode, decode_packWord_eq_ok_iff, decodeOpcode, decodeVariantForm_eq_ok_iff]
  | pcDid v repair special =>
    simpa [encode, decode_packWord_eq_ok_iff, decodeOpcode, decodePcDid_eq_ok_iff] using h
  | trDec | trEnc =>
    simp [encode, decode_packWord_eq_ok_iff, decodeOpcode, decodePlainForm_eq_ok_iff]
  | crcCfg p u =>
    simp [encode, decode_packWord_eq_ok_iff, decodeOpcode, decodeCrcCfg_eq_ok_iff]
  | crcInit u | crcUpd u | crcDig u | crcRev u =>
    simp [encode, decode_packWord_eq_ok_iff, decodeOpcode, decodeUnitForm_eq_ok_iff]
  | crcCalc p | crcVer p =>
    simp [encode, decode_packWord_eq_ok_iff, decodeOpcode, decodePresetForm_eq_ok_iff]

/-- A word that decodes is the word of its command: decoding fixes OPC, the form fixes SEL, UNIT and FLAGS, and bits 15:2
are 0, so no bit is left open. -/
theorem encode_of_decode (h : decode w = .ok i) : i.wellFormed = true ∧ encode i = w := by
  obtain ⟨hrsv, h⟩ := decode_eq_ok_iff.1 h
  unfold decodeOpcode at h
  split at h
  case h_1 hopc | h_2 hopc | h_3 hopc | h_4 hopc =>
    obtain ⟨c, hsel, hunit, hfl, rfl⟩ := decodeCodeForm_eq_ok_iff.1 h
    exact ⟨rfl, packWord_eq_iff.2 ⟨hrsv, BitVec.eq_of_toNat_eq hopc, hsel, hunit, hfl⟩⟩
  case h_5 hopc | h_7 hopc | h_8 hopc =>
    obtain ⟨v, hsel, hunit, hfl, rfl⟩ := decodeVariantForm_eq_ok_iff.1 h
    exact ⟨rfl, packWord_eq_iff.2 ⟨hrsv, BitVec.eq_of_toNat_eq hopc, hsel, hunit, hfl⟩⟩
  case h_6 hopc =>
    obtain ⟨v, hsel, hunit, hwf, rfl⟩ := decodePcDid_eq_ok_iff.1 h
    exact ⟨hwf, packWord_eq_iff.2 ⟨hrsv, BitVec.eq_of_toNat_eq hopc, hsel, hunit, (flagsOfDid_getElem _).symm⟩⟩
  case h_9 hopc | h_10 hopc =>
    obtain ⟨hsel, hunit, hfl, rfl⟩ := decodePlainForm_eq_ok_iff.1 h
    exact ⟨rfl, packWord_eq_iff.2 ⟨hrsv, BitVec.eq_of_toNat_eq hopc, hsel, hunit, hfl⟩⟩
  case h_11 hopc =>
    obtain ⟨p, u, hsel, hunit, hfl, rfl⟩ := decodeCrcCfg_eq_ok_iff.1 h
    exact ⟨rfl, packWord_eq_iff.2 ⟨hrsv, BitVec.eq_of_toNat_eq hopc, hsel, hunit, hfl⟩⟩
  case h_12 hopc | h_13 hopc | h_14 hopc | h_15 hopc =>
    obtain ⟨u, hsel, hunit, hfl, rfl⟩ := decodeUnitForm_eq_ok_iff.1 h
    exact ⟨rfl, packWord_eq_iff.2 ⟨hrsv, BitVec.eq_of_toNat_eq hopc, hsel, hunit, hfl⟩⟩
  case h_16 hopc | h_17 hopc =>
    obtain ⟨p, hsel, hunit, hfl, rfl⟩ := decodePresetForm_eq_ok_iff.1 h
    exact ⟨rfl, packWord_eq_iff.2 ⟨hrsv, BitVec.eq_of_toNat_eq hopc, hsel, hunit, hfl⟩⟩
  case h_18 => cases h

end

/-- Settles O1: a legal command decodes from its word, and a word that decodes is its command's. -/
theorem decodeInvertsEncodeBothWays : Obligations.DecodeInvertsEncodeBothWays := by
  intro w i
  constructor
  · exact encode_of_decode
  · rintro ⟨hi, rfl⟩
    exact decode_encode hi

/-- Settles O2: each word is the encoding of the legal command it is written for. -/
theorem exampleWordsDecodeAsWritten : Obligations.ExampleWordsDecodeAsWritten := by
  refine ⟨?_, ?_, ?_, ?_, ?_, ?_, ?_, ?_⟩ <;> exact (decodeInvertsEncodeBothWays _ _).2 ⟨rfl, rfl⟩

/-! ### The words that decode are the legal ones (rules R65, R66) -/

section
variable (w : Word)

theorem toNat_eq_zero_iff {n : Nat} (x : BitVec n) : x.toNat = 0 ↔ x = 0 := by
  simp [← BitVec.toNat_inj]

theorem toNat_opcOf : (opcOf w).toNat = w.toNat / 2 ^ 24 % 2 ^ 8 := by
  simp [opcOf, BitVec.extractLsb'_toNat, Nat.shiftRight_eq_div_pow]

theorem toNat_selOf : (selOf w).toNat = w.toNat / 2 ^ 20 % 2 ^ 4 := by
  simp [selOf, BitVec.extractLsb'_toNat, Nat.shiftRight_eq_div_pow]

theorem toNat_unitOf : (unitOf w).toNat = w.toNat / 2 ^ 16 % 2 ^ 4 := by
  simp [unitOf, BitVec.extractLsb'_toNat, Nat.shiftRight_eq_div_pow]

theorem toNat_reservedOf : (reservedOf w).toNat = w.toNat / 2 ^ 2 % 2 ^ 14 := by
  simp [reservedOf, BitVec.extractLsb'_toNat, Nat.shiftRight_eq_div_pow]

theorem toNat_flagsOf : (flagsOf w).toNat = w.toNat % 2 ^ 2 := by
  simp [flagsOf, BitVec.extractLsb'_toNat]

end

/-- R65's needs on a PC.DID word: the variant that SEL names has a special field, or SPECIAL is 0. -/
theorem exists_decodePcDid_eq_ok_iff (w : Word) : (∃ i, decodePcDid w = .ok i) ↔ (selOf w).toNat ≤ 3 ∧ unitOf w = 0 ∧
    ((flagsOf w).toNat < 2 ∨ (selOf w).toNat = 1 ∨ (selOf w).toNat = 3) := by
  simp only [decodePcDid_eq_ok_iff, pcDid_wellFormed_iff]
  constructor
  · rintro ⟨_, v, hsel, hunit, hfl, -⟩
    exact ⟨(exists_selOfVariant_iff _).1 ⟨v, hsel⟩, hunit, hsel ▸ hfl⟩
  · rintro ⟨hsel, hunit, hfl⟩
    obtain ⟨v, hv⟩ := (exists_selOfVariant_iff _).2 hsel
    exact ⟨_, v, hv, hunit, hv ▸ hfl, rfl⟩

/-- A word decodes exactly when it meets R65's conditions: the opcodes are those listed, and each form answers a command
exactly when its needs on SEL, UNIT and FLAGS are met. -/
theorem exists_decode_eq_ok_iff (w : Word) : (∃ i, decode w = .ok i) ↔ LegalWord w.toNat := by
  simp only [LegalWord, ← toNat_opcOf, ← toNat_selOf, ← toNat_unitOf, ← toNat_reservedOf, ← toNat_flagsOf,
    toNat_eq_zero_iff, decode_eq_ok_iff, exists_and_left]
  refine and_congr_right fun _ => ?_
  unfold decodeOpcode
  split
  case h_1 hopc | h_2 hopc | h_3 hopc | h_4 hopc =>
    simp [hopc, decodeCodeForm_eq_ok_iff, ← exists_selOfCode_iff]
  case h_5 hopc | h_7 hopc | h_8 hopc =>
    simp [hopc, decodeVariantForm_eq_ok_iff, ← exists_selOfVariant_iff]
  case h_6 hopc =>
    simp [hopc, exists_decodePcDid_eq_ok_iff]
  case h_9 hopc | h_10 hopc =>
    simp [hopc, decodePlainForm_eq_ok_iff]
  case h_11 hopc =>
    simp [hopc, decodeCrcCfg_eq_ok_iff, ← exists_selOfPreset_iff, ← exists_fieldOfUnit_iff]
  case h_12 hopc | h_13 hopc | h_14 hopc | h_15 hopc =>
    simp [hopc, decodeUnitForm_eq_ok_iff, ← exists_fieldOfUnit_iff]
  case h_16 hopc | h_17 hopc =>
    simp [hopc, decodePresetForm_eq_ok_iff, ← exists_selOfPreset_iff]
  case h_18 =>
    refine iff_of_false (by simp) ?_
    simp only [imp_false] at *
    omega

/-- Settles O3: a CMD write issues its word; a legal word decodes to its command, and any other decodes to none. -/
theorem commandWriteRunsLegalWordsOnly : Obligations.CommandWriteRunsLegalWordsOnly := by
  intro w s rest before taken
  have hstep : step before = issueCommand w taken := step_cmdWrite rfl
  rw [hstep, ← exists_decode_eq_ok_iff]
  constructor
  · rintro ⟨i, hi⟩
    exact ⟨i, hi, (encode_of_decode hi).2, issueCommand_ok hi taken⟩
  · intro hnone
    cases hd : decode w with
    | ok i => exact absurd ⟨i, hd⟩ hnone
    | error r => exact issueCommand_error hd taken

end Sys2Proof.Machine
end

section
/-! PROOFS. The BitMatrixCode functions as sums over GF(2) (rules R71 to R76), and the laws of rule R91: words of a
systematic code check, distinct columns correct one error, and columns of odd weight detect two. -/

namespace Sys2Proof.Machine

/-! ### Parities of indexed families -/

theorem toNat_eq_toNat_iff : ∀ {a b : Bool}, a.toNat = b.toNat ↔ a = b := by decide

theorem parity_map_xor (f g : Nat → Bool) (l : List Nat) :
    parity (l.map fun i => xor (f i) (g i)) = xor (parity (l.map f)) (parity (l.map g)) := by
  induction l with
  | nil => rfl
  | cons i l ih => simp [ih, Bool.xor_left_comm]

/-- In a sum that picks out one index, only that term is left. -/
theorem parity_map_single (f : Nat → Bool) {i n : Nat} (hi : i < n) :
    parity ((List.range n).map fun k => decide (k = i) && f k) = f i := by
  rw [← toNat_eq_toNat_iff, parity_map_range,
    Finset.sum_eq_single_of_mem i (Finset.mem_range.2 hi) fun k _ hk => by simp [hk]]
  cases f i <;> simp

/-! ### Syndromes (rules R71, R73 to R75) -/

/-- Bit j of the syndrome of w (rule R73). -/
def syndromeBit (D : CodeDesc) (w : Bits) (j : Nat) : Bool :=
  parity ((List.range D.n).map fun i => D.H j i && w.getD i false)

section
variable {D : CodeDesc} {w : Bits} {i j : Nat}

theorem syndrome_eq_map (D : CodeDesc) (w : Bits) : syndrome D w = (List.range D.m).map (syndromeBit D w) := rfl

theorem check_eq_true_iff : check D w = true ↔ ∀ j < D.m, syndromeBit D w j = false := by
  simp [check, allZero_iff, syndrome_eq_map]

theorem column_eq_syndrome_iff : D.column i = syndrome D w ↔ ∀ j < D.m, D.H j i = syndromeBit D w j := by
  simp [CodeDesc.column, syndrome_eq_map]

/-- `H = [Pᵀ | I_m]`: a syndrome bit is the parity the data calls for plus the parity bit received (rule R71). -/
theorem syndromeBit_eq_xor (hk : D.k ≤ D.n) (hj : j < D.m) : syndromeBit D w j =
    xor (parity ((List.range D.k).map fun i => D.P i j && w.getD i false)) (w.getD (D.k + j) false) := by
  have hn : D.n = D.k + D.m := by simp only [CodeDesc.m]; omega
  have hdata : ∀ i ∈ List.range D.k, (D.H j i && w.getD i false) = (D.P i j && w.getD i false) := by
    intro i hi
    rw [CodeDesc.H, if_pos (List.mem_range.1 hi)]
  have hparity (t : Nat) : D.H j (D.k + t) = decide (t = j) := by simp [CodeDesc.H, beq_eq_decide]
  rw [syndromeBit, hn, List.range_add, List.map_append, parity_append, List.map_congr_left hdata, List.map_map]
  simp only [Function.comp_def, hparity]
  rw [parity_map_single (fun t => w.getD (D.k + t) false) hj]

theorem getD_flipBit (hi : i < w.length) (k : Nat) :
    (flipBit w i).getD k false = xor (w.getD k false) (decide (k = i)) := by
  by_cases hk : k = i
  · subst hk
    simp [flipBit, List.getD_eq_getElem?_getD, hi]
  · simp [flipBit, List.getD_eq_getElem?_getD, List.getElem?_set_ne (Ne.symm hk), hk]

@[simp] theorem flipBit_flipBit (w : Bits) (i : Nat) : flipBit (flipBit w i) i = w := by
  by_cases hi : i < w.length
  · simp [flipBit, List.getD_eq_getElem?_getD, hi]
  · simp [flipBit, List.set_eq_of_length_le (Nat.le_of_not_lt hi)]

/-- A flipped bit adds its column to the syndrome. -/
theorem syndromeBit_flipBit (hw : w.length = D.n) (hi : i < D.n) (j : Nat) :
    syndromeBit D (flipBit w i) j = xor (syndromeBit D w j) (D.H j i) := by
  have hterm (k : Nat) : (D.H j k && (flipBit w i).getD k false) =
      xor (D.H j k && w.getD k false) (decide (k = i) && D.H j k) := by
    rw [getD_flipBit (hw ▸ hi), Bool.and_xor_distrib_left, Bool.and_comm (decide _)]
  simp only [syndromeBit, hterm, parity_map_xor, parity_map_single _ hi]

end

/-! ### check_and_correct, case by case (rule R75) -/

section
variable {D : CodeDesc} {w : Bits} {i : Nat}

theorem checkAndCorrect_of_check (hc : check D w = true) : checkAndCorrect D w = ⟨true, w, none⟩ := by
  simp [checkAndCorrect, hc]

theorem checkAndCorrect_of_lowest (hc : check D w = false) (hi : i < D.n) (hcol : D.column i = syndrome D w)
    (hlow : ∀ i' < i, D.column i' ≠ syndrome D w) : checkAndCorrect D w = ⟨true, flipBit w i, some i⟩ := by
  obtain ⟨hc', _⟩ | ⟨_, i', _, hcol', hlow', h⟩ | ⟨_, hnone, _⟩ := checkAndCorrect_cases D w
  · simp [hc'] at hc
  · have hle : i ≤ i' := not_lt.1 fun hlt => hlow i' hlt hcol'
    have hge : i' ≤ i := not_lt.1 fun hlt => hlow' i hlt hcol
    rw [h, Nat.le_antisymm hle hge]
  · exact absurd hcol (hnone i hi)

theorem checkAndCorrect_of_no_column (hc : check D w = false) (hnone : ∀ i < D.n, D.column i ≠ syndrome D w) :
    checkAndCorrect D w = ⟨false, w, none⟩ := by
  obtain ⟨hc', _⟩ | ⟨_, i, hi, hcol, _⟩ | ⟨_, _, h⟩ := checkAndCorrect_cases D w
  · simp [hc'] at hc
  · exact absurd hcol (hnone i hi)
  · exact h

end

/-! ### Words that generate makes (rules R72, R76) -/

/-- Bit j of the codeword of x (rule R76). -/
def generateBit (D : CodeDesc) (x : Bits) (j : Nat) : Bool :=
  parity ((List.range D.k).map fun i => D.gHat i j && x.getD i false)

section
variable {D : CodeDesc} {x : Bits} {j : Nat}

theorem generate_eq_map (D : CodeDesc) (x : Bits) : generate D x = (List.range D.n).map (generateBit D x) := rfl

theorem getD_generate (hj : j < D.n) : (generate D x).getD j false = generateBit D x j := by
  simp [generate_eq_map, List.getD_eq_getElem?_getD, hj]

/-- A systematic generator puts the data first. -/
theorem generateBit_of_systematic (hD : D.Systematic) (hj : j < D.k) : generateBit D x j = x.getD j false := by
  have hterm : ∀ i ∈ List.range D.k, (D.gHat i j && x.getD i false) = (decide (i = j) && x.getD i false) := by
    intro i hi
    rw [hD i (List.mem_range.1 hi) j hj]
  rw [generateBit, List.map_congr_left hterm, parity_map_single _ hj]

/-- The parity bit generated is the one the data calls for, so the two cancel in the syndrome. -/
theorem syndromeBit_generate (hkn : D.k < D.n) (hD : D.Systematic) (hj : j < D.m) :
    syndromeBit D (generate D x) j = false := by
  have hterm : ∀ i ∈ List.range D.k, (D.P i j && (generate D x).getD i false) =
      (D.gHat i (D.k + j) && x.getD i false) := by
    intro i hi
    have hik : i < D.k := List.mem_range.1 hi
    rw [getD_generate (by omega), generateBit_of_systematic hD hik, CodeDesc.P]
  have hlast : D.k + j < D.n := by simp only [CodeDesc.m] at hj; omega
  rw [syndromeBit_eq_xor hkn.le hj, List.map_congr_left hterm, getD_generate hlast]
  exact Bool.xor_self _

theorem take_generate (hkn : D.k < D.n) (hD : D.Systematic) (hx : x.length = D.k) : (generate D x).take D.k = x := by
  apply List.ext_getElem
  · simp [hx, hkn.le]
  · intro i _ hi
    have hik : i < D.k := hx ▸ hi
    simp [generate_eq_map, generateBit_of_systematic hD hik, List.getD_eq_getElem?_getD, hi]

end

/-- Settles O22: every syndrome bit of a generated word is 0, and its first k bits are the data. -/
theorem generatedWordsOfSystematicCodesCheck : Obligations.GeneratedWordsOfSystematicCodesCheck := by
  intro D x hkn hD hx
  exact ⟨check_eq_true_iff.2 fun _ hj => syndromeBit_generate hkn hD hj, take_generate hkn hD hx⟩

/-! ### One error and two errors (rule R91) -/

section
variable {D : CodeDesc} {w : Bits} {i i' : Nat}

/-- One error in a codeword has its column as the syndrome. -/
theorem syndromeBit_flipBit_of_check (hw : w.length = D.n) (hc : check D w = true) (hi : i < D.n) {j : Nat}
    (hj : j < D.m) : syndromeBit D (flipBit w i) j = D.H j i := by
  rw [syndromeBit_flipBit hw hi, check_eq_true_iff.1 hc j hj, Bool.false_xor]

/-- Two errors in a codeword have the sum of their columns as the syndrome. -/
theorem syndrome_flipBit_flipBit_of_check (hw : w.length = D.n) (hc : check D w = true) (hi : i < D.n)
    (hi' : i' < D.n) :
    syndrome D (flipBit (flipBit w i) i') = (List.range D.m).map fun j => xor (D.H j i) (D.H j i') := by
  rw [syndrome_eq_map]
  refine List.map_congr_left fun j hj => ?_
  rw [syndromeBit_flipBit ((length_flipBit w i).trans hw) hi',
    syndromeBit_flipBit_of_check hw hc hi (List.mem_range.1 hj)]

/-- The sum of two distinct columns of odd weight is not zero, and is no column, since its weight is even. -/
theorem checkAndCorrect_of_doubleError (hD : D.ColumnsDistinct) (hodd : ∀ i < D.n, parity (D.column i) = true)
    (hw : w.length = D.n) (hc : check D w = true) (hi : i < D.n) (hi' : i' < D.n) (hne : i ≠ i') :
    checkAndCorrect D (flipBit (flipBit w i) i') = ⟨false, flipBit (flipBit w i) i', none⟩ := by
  have hsyn := syndrome_flipBit_flipBit_of_check hw hc hi hi'
  obtain ⟨_, hinj⟩ := hD
  apply checkAndCorrect_of_no_column
  · rw [← Bool.not_eq_true, check, hsyn, allZero_iff]
    intro hzero
    exact hne (hinj i hi i' hi' fun j hj => by simpa using hzero _ (List.mem_map_of_mem (List.mem_range.2 hj)))
  · intro l hl hcol
    have heven : parity (syndrome D (flipBit (flipBit w i) i')) = false := calc
      _ = xor (parity (D.column i)) (parity (D.column i')) := by rw [hsyn]; exact parity_map_xor _ _ _
      _ = false := by rw [hodd i hi, hodd i' hi', Bool.xor_self]
    simp [← hcol, hodd l hl] at heven

end

/-- Settles O23: the syndrome is the column of the flipped bit, which is not zero and no other column. -/
theorem singleErrorIsCorrected : Obligations.SingleErrorIsCorrected := by
  intro D w i hD hw hc hi
  obtain ⟨hnonzero, hinj⟩ := hD
  have hsyn {j : Nat} (hj : j < D.m) := syndromeBit_flipBit_of_check hw hc hi hj
  have hfail : check D (flipBit w i) = false := by
    obtain ⟨j, hj, hji⟩ := hnonzero i hi
    rw [← Bool.not_eq_true, check_eq_true_iff]
    intro hzero
    simp [← hsyn hj, hzero j hj] at hji
  have hcol : D.column i = syndrome D (flipBit w i) := column_eq_syndrome_iff.2 fun j hj => (hsyn hj).symm
  have hlow : ∀ i' < i, D.column i' ≠ syndrome D (flipBit w i) := by
    intro i' hlt hcol'
    have heq : i' = i := hinj i' (by omega) i hi fun j hj => (column_eq_syndrome_iff.1 hcol' j hj).trans (hsyn hj)
    omega
  rw [checkAndCorrect_of_lowest hfail hi hcol hlow, flipBit_flipBit]

/-! ### The Hamming descriptors (rules R83 to R87) -/

theorem systematic_is_systematic (n k d : Nat) (P : Nat → Nat → Nat) : (systematic n k d P).Systematic := by
  intro i _ j hj
  have hG : (systematic n k d P).G i j = if i = j then 1 else 0 := if_pos hj
  rw [CodeDesc.gHat, hG]
  split <;> simp [*]

/-- Settles O24: the five matrices are written out in the ROM, and their columns are compared one by one. -/
theorem hammingColumnsAreDistinct : Obligations.HammingColumnsAreDistinct := by
  intro c hc
  cases c with
  | ham743 | ham1393 | ham15113 | ham16114 | ham17123 =>
    refine ⟨systematic_is_systematic _ _ _ _, ?_⟩
    unfold CodeDesc.ColumnsDistinct
    decide
  | golay2087 | qr1676 | rs1294 => simp at hc

theorem parity_column_ham16114 :
    ∀ i < (codeDesc .ham16114).n, parity ((codeDesc .ham16114).column i) = true := by decide

/-- Settles O25: every column of HAM16114 has odd weight. -/
theorem ham16114DetectsEveryDoubleError : Obligations.Ham16114DetectsEveryDoubleError := by
  intro w i j hw hc hi hj hne
  obtain ⟨-, hdistinct⟩ := hammingColumnsAreDistinct .ham16114 (by simp)
  exact checkAndCorrect_of_doubleError hdistinct parity_column_ham16114 hw hc hi hj hne

end Sys2Proof.Machine
end

section
/-! PROOFS. The four BMC commands (rules R78 to R81) in the sums of rules R73 and R76 over IBUF. -/

namespace Sys2Proof.Machine

/-! ### Command words, refused lengths and completions with bit output -/

/-- A legal command decodes from the number its encoding is. -/
theorem encodedAs_of_encode {i : Instr} {opc sel unit flags : Nat} (hi : i.wellFormed = true)
    (h : encode i = BitVec.ofNat 32 (wordNumber opc sel unit flags)) : EncodedAs i opc sel unit flags :=
  (decodeInvertsEncodeBothWays _ _).2 ⟨hi, h⟩

/-- A command whose length guard p finds a wrong length ends with LENGTH (rules R158, R160). -/
theorem lengthGuard_fails {p : Prop} [Decidable p] {s : State} {o : Outcome} (h : p) :
    (if p then raiseError .length s else o) = .next (errored 2 s) :=
  (if_pos h).trans (raiseError_eq .length s)

/-- t is what s becomes when a command completes with flag b, bit output bs and RESULT r (rules R18, R22, R157). -/
structure CompletesWithOutput (b : Bool) (bs : Bits) (r : Word) (s t : State) : Prop where
  status : Completes b s t
  olen : t.olen.toNat = bs.length
  obuf : ∀ k (hk : k < bs.length), t.obufBit k = bs[k]
  result : t.result = r
  frame : KeepsAllButOutput s t

theorem complete_setOutput (b : Bool) (bs : Bits) (r : Word) (s : State) (hlen : bs.length < 2 ^ 32) :
    ∃ t, complete b ((s.setOutput bs).setResult r) = .next t ∧ CompletesWithOutput b bs r s t := by
  refine ⟨_, rfl, completedStatus_eq_okWord b s.status, ?_, fun k hk => ?_, rfl,
    keepsAllButOutput_output s bs r _ hlen⟩
  · exact Nat.mod_eq_of_lt hlen
  · simp [State.obufBit_setOutput, hk]

/-! ### Integers of bit sequences (rules R8, R10) -/

theorem intOf_map_range (f : Nat → Bool) (n : Nat) :
    intOf ((List.range n).map f) = ∑ j ∈ Finset.range n, (f j).toNat * 2 ^ (n - 1 - j) := by
  induction n with
  | zero => rfl
  | succ n ih =>
    have hshift : ∀ j ∈ Finset.range n,
        (f j).toNat * 2 ^ (n - 1 - j) * 2 = (f j).toNat * 2 ^ (n + 1 - 1 - j) := by
      intro j hj
      have hj := Finset.mem_range.1 hj
      rw [mul_assoc, ← pow_succ, show n - 1 - j + 1 = n + 1 - 1 - j by omega]
    rw [List.range_succ, List.map_append, intOf_append, ih, Finset.sum_range_succ, ← Finset.sum_congr rfl hshift,
      ← Finset.sum_mul]
    simp [intOf]

theorem toNat_wordOf {s : Bits} (h : s.length ≤ 32) : (wordOf s).toNat = intOf s := by
  rw [wordOf, BitVec.toNat_ofNat]
  exact Nat.mod_eq_of_lt ((intOf_lt s).trans_le (Nat.pow_le_pow_right (by decide) h))

/-! ### The sums of rules R73 and R76 over IBUF -/

section
variable {D : CodeDesc} {s : State}

/-- A syndrome reads the first n bits of its word only. -/
theorem synSum_input (h : s.inputLength = D.n) : synSum D (fun i => s.input.getD i false) = synSum D s.ibufBit := by
  funext j
  unfold synSum
  congr 1
  refine Finset.sum_congr rfl fun i hi => ?_
  simp only [s.getD_input i (h ▸ Finset.mem_range.1 hi)]

theorem toNat_syndromeBit_input (h : s.inputLength = D.n) {j : Nat} (hj : j < D.m) :
    (syndromeBit D s.input j).toNat = synSum D s.ibufBit j := by
  rw [← synSum_input h, ← getElem_syndrome D s.input j (by simpa using hj)]
  simp [syndrome_eq_map]

theorem check_input_iff (h : s.inputLength = D.n) :
    check D s.input = true ↔ ∀ j < D.m, synSum D s.ibufBit j = 0 := by
  rw [check_eq_true_iff]
  refine forall₂_congr fun j hj => ?_
  rw [← toNat_syndromeBit_input h hj, Bool.toNat_eq_zero]

theorem check_input_eq_false_iff (h : s.inputLength = D.n) :
    check D s.input = false ↔ ∃ j < D.m, synSum D s.ibufBit j ≠ 0 := by
  rw [← Bool.not_eq_true, check_input_iff h]
  simp only [not_forall, exists_prop, ne_eq]

theorem check_input_eq_decide (h : s.inputLength = D.n) :
    check D s.input = decide (∀ j < D.m, synSum D s.ibufBit j = 0) := by
  rw [Bool.eq_iff_iff, check_input_iff h, decide_eq_true_iff]

theorem column_eq_syndrome_input_iff (h : s.inputLength = D.n) {i : Nat} :
    D.column i = syndrome D s.input ↔ columnMatches D s.ibufBit i := by
  rw [column_eq_syndrome_iff]
  refine forall₂_congr fun j hj => ?_
  rw [← toNat_syndromeBit_input h hj, toNat_eq_toNat_iff]

/-- RESULT of BMC.SYN is the syndrome with its first bit most significant (rule R78). -/
theorem toNat_wordOf_syndrome_input (h : s.inputLength = D.n) (hm : D.m ≤ 32) :
    (wordOf (syndrome D s.input)).toNat = ∑ j ∈ Finset.range D.m, synSum D s.ibufBit j * 2 ^ (D.m - 1 - j) := by
  rw [toNat_wordOf (by simpa using hm), syndrome_eq_map, intOf_map_range]
  refine Finset.sum_congr rfl fun j hj => ?_
  rw [toNat_syndromeBit_input h (Finset.mem_range.1 hj)]

/-- Taking the entries of G mod 2 first changes no sum mod 2 (rule R77). -/
theorem toNat_generateBit_input (h : s.inputLength = D.k) (j : Nat) :
    (generateBit D s.input j).toNat = genSum D s.ibufBit j := by
  rw [generateBit, parity_map_range, genSum, Finset.sum_nat_mod,
    Finset.sum_nat_mod _ _ (fun i => D.G i j * (s.ibufBit i).toNat)]
  congr 1
  refine Finset.sum_congr rfl fun i hi => ?_
  rw [s.getD_input i (h ▸ Finset.mem_range.1 hi)]
  rcases Nat.mod_two_eq_zero_or_one (D.G i j) with hG | hG <;> cases s.ibufBit i <;> simp [CodeDesc.gHat, hG]

/-- The input is the first n bits of IBUF. -/
theorem State.getElem_input (s : State) {k : Nat} (hk : k < s.input.length) : s.input[k] = s.ibufBit k := by
  simp [State.input]

theorem getElem_flipBit_input {i k : Nat} (hi : i < s.inputLength) (hk : k < (flipBit s.input i).length) :
    (flipBit s.input i)[k] = if k = i then !s.ibufBit k else s.ibufBit k := by
  have hlen : k < s.inputLength := by simpa using hk
  rw [← List.getD_eq_getElem _ false, getD_flipBit (by simpa using hi), s.getD_input k hlen]
  by_cases h : k = i <;> simp [h]

end

theorem codeDesc_m_le (c : Code) : (codeDesc c).m ≤ 32 := by cases c <;> decide

/-! ### The commands -/

/-- Settles O18: the output bits, RESULT and OK are three readings of one syndrome. -/
theorem bmcSynWritesTheSyndrome : Obligations.BmcSynWritesTheSyndrome := by
  intro c s D
  refine ⟨encodedAs_of_encode rfl (by cases c <;> rfl), lengthGuard_fails, fun h => ?_⟩
  have hm : D.m ≤ 32 := codeDesc_m_le c
  obtain ⟨t, ht, hout⟩ := complete_setOutput (check D s.input) (syndrome D s.input) (wordOf (syndrome D s.input)) s
    (by rw [length_syndrome]; omega)
  refine ⟨t, (if_neg (not_not.2 h)).trans ht, ?_, ?_, fun j hj => ?_, ?_, hout.frame⟩
  · exact check_input_eq_decide h ▸ hout.status
  · rw [hout.olen, length_syndrome]
  · rw [hout.obuf j (by simpa using hj), getElem_syndrome, synSum_input h]
  · rw [hout.result, toNat_wordOf_syndrome_input h hm]

/-- Settles O19: OK is `check`, and there is no bit output. -/
theorem bmcChkReportsTheZeroSyndrome : Obligations.BmcChkReportsTheZeroSyndrome := by
  intro c s D
  refine ⟨encodedAs_of_encode rfl (by cases c <;> rfl), lengthGuard_fails, fun h => ?_⟩
  refine ⟨_, if_neg (not_not.2 h), ?_, rfl, rfl, keepsAllButOutput_noOutput s _ _ _⟩
  exact check_input_eq_decide h ▸ completedStatus_eq_okWord _ s.status

/-- Settles O20: the three cases are those of `checkAndCorrect`. -/
theorem bmcCorFlipsTheLowestMatchingColumn : Obligations.BmcCorFlipsTheLowestMatchingColumn := by
  intro c s D
  refine ⟨encodedAs_of_encode rfl (by cases c <;> rfl), lengthGuard_fails, fun h => ?_⟩
  have hn : D.n ≤ 196 := codeDesc_le c
  have hlen : (checkAndCorrect D s.input).word.length = D.n := by rw [length_checkAndCorrect, State.length_input, h]
  obtain ⟨t, ht, hout⟩ := complete_setOutput (checkAndCorrect D s.input).ok (checkAndCorrect D s.input).word
    (flipResult (checkAndCorrect D s.input).flip) s (by omega)
  refine ⟨t, (if_neg (not_not.2 h)).trans ht, hout.olen.trans hlen, hout.frame, fun hzero => ?_,
    fun i hi hsyn hcol hlow => ?_, fun hsyn hnone => ?_⟩
  · rw [checkAndCorrect_of_check ((check_input_iff h).2 hzero)] at hout hlen
    exact ⟨hout.status, hout.result, fun k hk => (hout.obuf k (hlen ▸ hk)).trans (s.getElem_input _)⟩
  · rw [checkAndCorrect_of_lowest ((check_input_eq_false_iff h).2 hsyn) hi ((column_eq_syndrome_input_iff h).2 hcol)
      fun i' hi' => mt (column_eq_syndrome_input_iff h).1 (hlow i' hi')] at hout hlen
    refine ⟨hout.status, ?_, fun k hk => ?_⟩
    · rw [hout.result]
      exact Nat.mod_eq_of_lt (by omega)
    · exact (hout.obuf k (hlen ▸ hk)).trans (getElem_flipBit_input (h ▸ hi) _)
  · rw [checkAndCorrect_of_no_column ((check_input_eq_false_iff h).2 hsyn)
      fun i hi => mt (column_eq_syndrome_input_iff h).1 (hnone i hi)] at hout hlen
    exact ⟨hout.status, hout.result, fun k hk => (hout.obuf k (hlen ▸ hk)).trans (s.getElem_input _)⟩

/-- Settles O21: output bit j is bit j of the codeword of the input. -/
theorem bmcGenWritesTheCodeword : Obligations.BmcGenWritesTheCodeword := by
  intro c s D
  refine ⟨encodedAs_of_encode rfl (by cases c <;> rfl), lengthGuard_fails, fun h => ?_⟩
  have hn : D.n ≤ 196 := codeDesc_le c
  obtain ⟨t, ht, hout⟩ := complete_setOutput true (generate D s.input) 0 s (by rw [length_generate]; omega)
  refine ⟨t, (if_neg (not_not.2 h)).trans ht, hout.status, ?_, hout.result, fun j hj => ?_, hout.frame⟩
  · rw [hout.olen, length_generate]
  · rw [hout.obuf j (by simpa using hj), ← toNat_generateBit_input h]
    simp [generate_eq_map]

end Sys2Proof.Machine
end

section
/-! PROOFS. Where the bits of a product code stand (rules R93 to R98, R104 to R108): gathering and scattering bit by
bit, the rows and columns of a variant's table, its codes, and the two inverse permutations interleave and
deinterleave. -/

namespace Sys2Proof.Machine

/-! ### gather and scatter, bit by bit -/

section
variable {xs ys : Bits} {idx : List Nat}

theorem getD_gather (xs : Bits) {j : Nat} (hj : j < idx.length) :
    (gather xs idx).getD j false = xs.getD (idx.getD j 0) false := by
  simp [gather, List.getD_eq_getElem?_getD, hj]

theorem gather_congr (h : ∀ i ∈ idx, xs.getD i false = ys.getD i false) : gather xs idx = gather ys idx :=
  List.map_congr_left h

theorem gather_map_range (xs : Bits) (f : Nat → Nat) (n : Nat) :
    gather xs ((List.range n).map f) = (List.range n).map fun i => xs.getD (f i) false := by
  rw [gather, List.map_map]
  rfl

theorem getD_scatter_of_notMem (xs vals : Bits) {p : Nat} (hp : p ∉ idx) :
    (scatter xs idx vals).getD p false = xs.getD p false := by
  simp only [List.getD_eq_getElem?_getD, getElem?_scatter_of_notMem idx xs vals hp]

/-- Writing into ys the bits of xs at idx makes it xs, when idx holds every index where the two differ. -/
theorem scatter_gather_of_agree : ∀ {ys : Bits}, ys.length = xs.length → (∀ p, p ∉ idx → ys[p]? = xs[p]?) →
    scatter ys idx (gather xs idx) = xs := by
  induction idx with
  | nil => exact fun _ h => List.ext_getElem? fun p => h p List.not_mem_nil
  | cons i idx ih =>
    intro ys hl h
    refine ih ((List.length_set ..).trans hl) fun p hp => ?_
    by_cases hpi : p = i
    · subst hpi
      by_cases hlt : p < xs.length
      · simp [hl, hlt]
      · simp [hl, hlt]
    · rw [List.getElem?_set_ne (Ne.symm hpi), h p (by simp [hpi, hp])]

@[simp] theorem scatter_gather_self (xs : Bits) (idx : List Nat) : scatter xs idx (gather xs idx) = xs :=
  scatter_gather_of_agree rfl fun _ _ => rfl

theorem gather_flipBit_of_notMem (xs : Bits) {p : Nat} (hp : p ∉ idx) : gather (flipBit xs p) idx = gather xs idx :=
  gather_scatter_disjoint (idx := [p]) (vals := [!xs.getD p false]) xs idx
    fun i hi => by rintro h; exact hp (List.mem_singleton.1 h ▸ hi)

/-- Writing at one of the gathered indices writes its bit of what is gathered. -/
theorem gather_set (xs : Bits) (hn : idx.Nodup) {j : Nat} (hj : j < idx.length) (hlt : idx[j] < xs.length) (b : Bool) :
    gather (xs.set idx[j] b) idx = (gather xs idx).set j b := by
  refine List.ext_getElem (by simp) fun i hi _ => ?_
  rw [length_gather] at hi
  by_cases hij : i = j
  · subst hij
    simp [gather, List.getD_eq_getElem?_getD, hlt]
  · have hne : idx[j] ≠ idx[i] := fun h => hij (hn.getElem_inj_iff.1 h).symm
    simp [gather, List.getD_eq_getElem?_getD, List.getElem?_set_ne hne, List.getElem_set_ne (Ne.symm hij)]

theorem gather_flipBit (xs : Bits) (hn : idx.Nodup) {j : Nat} (hj : j < idx.length) (hlt : idx[j] < xs.length) :
    gather (flipBit xs idx[j]) idx = flipBit (gather xs idx) j := by
  rw [flipBit, gather_set xs hn hj hlt, flipBit, getD_gather xs hj, List.getD_eq_getElem idx 0 hj]

end

/-! ### The table of a variant (rules R93, R97, R98) -/

/-- The rows that hold information: the rows the column code takes its data from (rules R93, R103). -/
def VariantDesc.infoRows (V : VariantDesc) : Nat :=
  match V.colCode with
  | .bmc code => (codeDesc code).k
  | .evenParity => V.R - 1

/-- The logical index lies in no row or column, or in a cell that no code fills in (rules R97, R103). -/
def VariantDesc.InfoIndex (V : VariantDesc) (L : Nat) : Prop :=
  ∀ r c, V.cell L = some (r, c) → r < V.infoRows ∧ c < (codeDesc V.rowCode).k

section
variable (v : Variant)

theorem rows_eq_range : (variantDesc v).rows = List.range (variantDesc v).infoRows := by cases v <;> rfl

theorem infoRows_lt : (variantDesc v).infoRows < (variantDesc v).R := by cases v <;> decide

theorem rowCode_n : (codeDesc (variantDesc v).rowCode).n = (variantDesc v).C := by cases v <;> rfl

theorem rowCode_k_lt : (codeDesc (variantDesc v).rowCode).k < (codeDesc (variantDesc v).rowCode).n := by
  cases v <;> decide

theorem rowCode_hamming : (codeDesc (variantDesc v).rowCode).Systematic ∧
    (codeDesc (variantDesc v).rowCode).ColumnsDistinct :=
  hammingColumnsAreDistinct _ (by cases v <;> decide)

/-- The one column code that is a BMC descriptor is HAM1393 on the 13 rows of BPTC19696 (rule R104). -/
theorem colCode_eq_bmc {v : Variant} {code : Code} (h : (variantDesc v).colCode = .bmc code) :
    code = .ham1393 ∧ (variantDesc v).R = 13 := by
  cases v with
  | bptc19696 => cases h; exact ⟨rfl, rfl⟩
  | vbptc12873 | vbptc3211 | vbptc6828 => nomatch h

theorem lof_lt {r c : Nat} (hr : r < (variantDesc v).R) (hc : c < (variantDesc v).C) :
    (variantDesc v).lof r c < (variantDesc v).N := by
  cases v <;> simp only [variantDesc, bptc19696, vbptc12873, vbptc3211With, vbptc6828] at hr hc ⊢ <;> omega

theorem lof_inj {r c r' c' : Nat} (hr : r < (variantDesc v).R) (hc : c < (variantDesc v).C)
    (hr' : r' < (variantDesc v).R) (hc' : c' < (variantDesc v).C)
    (h : (variantDesc v).lof r c = (variantDesc v).lof r' c') : r = r' ∧ c = c' := by
  have hcell := cell_of_lof v hr' hc'
  rw [← h, cell_of_lof v hr hc] at hcell
  simpa using hcell

end

section
variable {V : VariantDesc} {r c L : Nat}

@[simp] theorem length_rowCells (V : VariantDesc) (r : Nat) : (V.rowCells r).length = V.C := by
  simp [VariantDesc.rowCells]

@[simp] theorem length_colCells (V : VariantDesc) (c : Nat) : (V.colCells c).length = V.R := by
  simp [VariantDesc.colCells]

theorem mem_rowCells : L ∈ V.rowCells r ↔ ∃ c < V.C, V.lof r c = L := by simp [VariantDesc.rowCells]

theorem mem_colCells : L ∈ V.colCells c ↔ ∃ r < V.R, V.lof r c = L := by simp [VariantDesc.colCells]

theorem getElem_rowCells (hc : c < (V.rowCells r).length) : (V.rowCells r)[c] = V.lof r c := by
  simp [VariantDesc.rowCells]

theorem getElem_colCells (hr : r < (V.colCells c).length) : (V.colCells c)[r] = V.lof r c := by
  simp [VariantDesc.colCells]

theorem getD_gather_rowCells (T : Bits) (hc : c < V.C) :
    (gather T (V.rowCells r)).getD c false = T.getD (V.lof r c) false := by
  rw [getD_gather _ (by simpa), List.getD_eq_getElem (V.rowCells r) 0 (by simpa), getElem_rowCells]

theorem getD_gather_colCells (T : Bits) (hr : r < V.R) :
    (gather T (V.colCells c)).getD r false = T.getD (V.lof r c) false := by
  rw [getD_gather _ (by simpa), List.getD_eq_getElem (V.colCells c) 0 (by simpa), getElem_colCells]

end

/-- The index lists of a family are each without repetition and in range, and share no index (rule R98). -/
structure DisjointCells (N : Nat) (cells : Nat → List Nat) (l : List Nat) : Prop where
  nodup : ∀ r ∈ l, (cells r).Nodup
  lt : ∀ r ∈ l, ∀ i ∈ cells r, i < N
  disjoint : l.Pairwise fun r r' => ∀ i ∈ cells r', i ∉ cells r

theorem DisjointCells.tail {N r : Nat} {cells : Nat → List Nat} {l : List Nat} (h : DisjointCells N cells (r :: l)) :
    DisjointCells N cells l where
  nodup r' hr' := h.nodup r' (List.mem_cons_of_mem _ hr')
  lt r' hr' := h.lt r' (List.mem_cons_of_mem _ hr')
  disjoint := (List.pairwise_cons.1 h.disjoint).2

section
variable (v : Variant)

/-- "Rows are disjoint" (rule R99). -/
theorem disjoint_rowCells :
    DisjointCells (variantDesc v).N (variantDesc v).rowCells (List.range (variantDesc v).R) where
  nodup r hr := by
    rw [VariantDesc.rowCells, List.nodup_map_iff_inj_on List.nodup_range]
    intro c hc c' hc' h
    simp only [List.mem_range] at hr hc hc'
    exact (lof_inj v hr hc hr hc' h).2
  lt r hr i hi := by
    obtain ⟨c, hc, rfl⟩ := mem_rowCells.1 hi
    exact lof_lt v (List.mem_range.1 hr) hc
  disjoint := by
    refine List.nodup_range.imp_of_mem fun hr hr' hne i hi hi' => ?_
    simp only [List.mem_range] at hr hr'
    obtain ⟨c, hc, rfl⟩ := mem_rowCells.1 hi
    obtain ⟨c', hc', h⟩ := mem_rowCells.1 hi'
    exact hne (lof_inj v hr hc' hr' hc h).1

/-- "Columns are disjoint" (rule R99). -/
theorem disjoint_colCells :
    DisjointCells (variantDesc v).N (variantDesc v).colCells (List.range (variantDesc v).C) where
  nodup c hc := by
    rw [VariantDesc.colCells, List.nodup_map_iff_inj_on List.nodup_range]
    intro r hr r' hr' h
    simp only [List.mem_range] at hc hr hr'
    exact (lof_inj v hr hc hr' hc h).1
  lt c hc i hi := by
    obtain ⟨r, hr, rfl⟩ := mem_colCells.1 hi
    exact lof_lt v hr (List.mem_range.1 hc)
  disjoint := by
    refine List.nodup_range.imp_of_mem fun hc hc' hne i hi hi' => ?_
    simp only [List.mem_range] at hc hc'
    obtain ⟨r, hr, rfl⟩ := mem_colCells.1 hi
    obtain ⟨r', hr', h⟩ := mem_colCells.1 hi'
    exact hne (lof_inj v hr' hc hr hc' h).2

end

/-! ### interleave and deinterleave (rules R95, R96) -/

theorem getD_deinterleave {V : VariantDesc} {L : Nat} (hL : L < V.N) (y : Bits) :
    (deinterleave V y).getD L false = y.getD (V.il L) false := by
  rw [deinterleave, getD_gather _ (by simpa)]
  simp [VariantDesc.ilList, List.getD_eq_getElem?_getD, hL]

section
variable (v : Variant)

/-- IL_V is onto the on-air positions, since it is injective on as many logical indices. -/
theorem exists_il_eq {k : Nat} (hk : k < (variantDesc v).N) :
    ∃ L < (variantDesc v).N, (variantDesc v).il L = k := by
  have himage : (Finset.range (variantDesc v).N).image (variantDesc v).il = Finset.range (variantDesc v).N := by
    refine Finset.eq_of_subset_of_card_le (fun i hi => ?_) (Finset.card_image_of_injOn fun a ha b hb h => ?_).ge
    · obtain ⟨L, hL, rfl⟩ := Finset.mem_image.1 hi
      exact Finset.mem_range.2 (il_lt v L (Finset.mem_range.1 hL))
    · exact il_injective v a (Finset.mem_range.1 ha) b (Finset.mem_range.1 hb) h
  obtain ⟨L, hL, h⟩ := Finset.mem_image.1 (himage ▸ Finset.mem_range.2 hk)
  exact ⟨L, Finset.mem_range.1 hL, h⟩

theorem mem_ilList_iff {k : Nat} : k ∈ (variantDesc v).ilList ↔ k < (variantDesc v).N := by
  simp only [VariantDesc.ilList, List.mem_map, List.mem_range]
  exact ⟨by rintro ⟨L, hL, rfl⟩; exact il_lt v L hL, fun hk => exists_il_eq v hk⟩

theorem deinterleave_interleave {T : Bits} (hT : T.length = (variantDesc v).N) :
    deinterleave (variantDesc v) (interleave (variantDesc v) T) = T :=
  gather_scatter _ _ _ (nodup_ilList _ (il_injective v)) (by simp [hT]) fun i hi => by
    simpa using (mem_ilList_iff v).1 hi

theorem interleave_deinterleave {y : Bits} (hy : y.length = (variantDesc v).N) :
    interleave (variantDesc v) (deinterleave (variantDesc v) y) = y := by
  refine scatter_gather_of_agree (by simp [hy]) fun p hp => ?_
  rw [mem_ilList_iff, not_lt] at hp
  simp [hp, hy]

theorem getD_interleave {T : Bits} (hT : T.length = (variantDesc v).N) {L : Nat} (hL : L < (variantDesc v).N) :
    (interleave (variantDesc v) T).getD ((variantDesc v).il L) false = T.getD L false := by
  rw [← getD_deinterleave hL, deinterleave_interleave v hT]

/-- Settles O32: deinterleaving gathers along IL_V, interleaving scatters along it, and IL_V is a permutation. -/
theorem interleaveAndDeinterleaveAreInverse : Obligations.InterleaveAndDeinterleaveAreInverse := fun v _ hx =>
  ⟨fun _ hL => ⟨getD_deinterleave hL _, getD_interleave v hx hL⟩, interleave_deinterleave v hx,
    deinterleave_interleave v hx⟩

/-- An on-air bit that flips is a logical bit that flips. -/
theorem deinterleave_flipBit {y : Bits} (hy : y.length = (variantDesc v).N) {L : Nat} (hL : L < (variantDesc v).N) :
    deinterleave (variantDesc v) (flipBit y ((variantDesc v).il L)) = flipBit (deinterleave (variantDesc v) y) L := by
  have hj : L < (variantDesc v).ilList.length := by simpa
  have hil : (variantDesc v).ilList[L] = (variantDesc v).il L := by simp [VariantDesc.ilList]
  have h := gather_flipBit y (nodup_ilList _ (il_injective v)) hj (by rw [hil, hy]; exact il_lt v L hL)
  rwa [hil] at h

end

/-! ### Special fields (rules R101, R102) -/

theorem intOf_bitsOf {W n : Nat} (h : n < 2 ^ W) : intOf (bitsOf W n) = n := by
  have hlt : intOf (bitsOf W n) < 2 ^ W := by simpa using intOf_lt (bitsOf W n)
  refine Nat.eq_of_testBit_eq fun i => ?_
  by_cases hi : i < W
  · have hbit := testBit_intOf (bitsOf W n) (W - 1 - i) (by simp; omega)
    rwa [getElem_bitsOf, length_bitsOf, show W - 1 - (W - 1 - i) = i by omega] at hbit
  · have hle : 2 ^ W ≤ 2 ^ i := Nat.pow_le_pow_right (by decide) (not_lt.1 hi)
    rw [Nat.testBit_lt_two_pow (hlt.trans_le hle), Nat.testBit_lt_two_pow (h.trans_le hle)]

/-- A slice of a sequence, bit by bit. -/
theorem take_drop_eq_map {x : Bits} {a n : Nat} (h : a + n ≤ x.length) :
    (x.drop a).take n = (List.range n).map fun t => x.getD (a + t) false := by
  refine List.ext_getElem (by simp; omega) fun t h1 h2 => ?_
  have ht : t < n := by simpa using h2
  simp [List.getD_eq_getElem?_getD, show a + t < x.length by omega]

theorem cs5_eq_sum {x : Bits} (hx : x.length = 72) : cs5 x =
    (∑ j ∈ Finset.range 9, ∑ t ∈ Finset.range 8, (x.getD (8 * j + t) false).toNat * 2 ^ (7 - t)) % 31 := by
  have hbyte : ∀ j ∈ List.range 9, intOf ((x.drop (8 * j)).take 8) =
      ∑ t ∈ Finset.range 8, (x.getD (8 * j + t) false).toNat * 2 ^ (7 - t) := by
    intro j hj
    rw [List.mem_range] at hj
    rw [take_drop_eq_map (by omega), intOf_map_range]
  rw [cs5, List.map_congr_left hbyte]
  rfl

theorem updateSerial_map_range (W : Nat) (Q A : Word) (f : Nat → Bool) (n : Nat) :
    updateSerial W Q A ((List.range n).map f) = accAfter W Q A f n := by
  induction n with
  | zero => rfl
  | succ n ih =>
    rw [List.range_succ, List.map_append, updateSerial_append, ih]
    rfl

/-- Settles O31: each field is the bits of a number below the power of its length. -/
theorem specialFieldsAreByteSumAndCrc8 : Obligations.SpecialFieldsAreByteSumAndCrc8 := by
  refine ⟨fun x hx => ⟨length_bitsOf .., ?_⟩, fun x hx => ⟨length_bitsOf .., ?_⟩⟩
  · have hlt : cs5 x < 2 ^ 5 := (Nat.mod_lt _ (by decide)).trans (by decide)
    exact (intOf_bitsOf hlt).trans (cs5_eq_sum hx)
  · have hx' : x = (List.range 28).map fun i => x.getD i false := by
      simpa [← hx] using take_drop_eq_map (x := x) (a := 0) (n := 28) (by omega)
    have hlt := updateSerial_lt (W := 8) (Q := 0x9B#32) (by decide) (by decide) x 0#32 (by decide)
    calc intOf (crc8Field x) = (updateSerial 8 0x9B#32 0#32 x).toNat := intOf_bitsOf hlt
      _ = (accAfter 8 0x9B#32 0#32 (fun i => x.getD i false) 28).toNat := by
        rw [← updateSerial_map_range, ← hx']

end Sys2Proof.Machine
end

section
/-! PROOFS. The two passes over a product code's table (rules R98, R99, R103): an operation on every index list of a
family of disjoint lists, the correction of such a family, and the column pass of each kind of column code. -/

namespace Sys2Proof.Machine

/-! ### One operation on every list of a family (rules R98, R103) -/

/-- f applied to the bits at idx, written back. -/
def rewriteCells (f : Bits → Bits) (idx : List Nat) (T : Bits) : Bits := scatter T idx (f (gather T idx))

/-- f applied at every index list of a family, one after another. -/
def rewriteFamily (f : Bits → Bits) (cells : Nat → List Nat) (l : List Nat) (T : Bits) : Bits :=
  l.foldl (fun T r => rewriteCells f (cells r) T) T

section
variable {f : Bits → Bits} {cells : Nat → List Nat} {l : List Nat} {N n : Nat}

theorem rewriteFamily_cons (r : Nat) (T : Bits) :
    rewriteFamily f cells (r :: l) T = rewriteFamily f cells l (rewriteCells f (cells r) T) := rfl

@[simp] theorem length_rewriteCells (f : Bits → Bits) (idx : List Nat) (T : Bits) :
    (rewriteCells f idx T).length = T.length := by simp [rewriteCells]

@[simp] theorem length_rewriteFamily (f : Bits → Bits) (cells : Nat → List Nat) (l : List Nat) (T : Bits) :
    (rewriteFamily f cells l T).length = T.length := by
  induction l generalizing T with
  | nil => rfl
  | cons r l ih => rw [rewriteFamily_cons, ih, length_rewriteCells]

theorem getD_rewriteFamily_of_notMem {p : Nat} (hp : ∀ r ∈ l, p ∉ cells r) (T : Bits) :
    (rewriteFamily f cells l T).getD p false = T.getD p false := by
  induction l generalizing T with
  | nil => rfl
  | cons r l ih =>
    rw [List.forall_mem_cons] at hp
    rw [rewriteFamily_cons, ih hp.2, rewriteCells, getD_scatter_of_notMem _ _ hp.1]

/-- Each list of a disjoint family ends up holding f of what stood there. -/
theorem gather_rewriteFamily (h : DisjointCells N cells l) (hn : ∀ r, (cells r).length = n)
    (hf : ∀ w : Bits, w.length = n → (f w).length = n) {T : Bits} (hT : T.length = N) {r : Nat} (hr : r ∈ l) :
    gather (rewriteFamily f cells l T) (cells r) = f (gather T (cells r)) := by
  induction l generalizing T with
  | nil => cases hr
  | cons q l ih =>
    obtain ⟨hdisj, -⟩ := List.pairwise_cons.1 h.disjoint
    rw [rewriteFamily_cons]
    obtain rfl | hr := List.mem_cons.1 hr
    · calc gather (rewriteFamily f cells l (rewriteCells f (cells r) T)) (cells r)
          = gather (rewriteCells f (cells r) T) (cells r) :=
            gather_congr fun i hi => getD_rewriteFamily_of_notMem (fun q hq hiq => hdisj q hq i hiq hi) _
        _ = f (gather T (cells r)) := gather_scatter _ _ _ (h.nodup r (by simp))
            (by rw [hf _ (by simp [hn]), hn]) fun i hi => hT ▸ h.lt r (by simp) i hi
    · rw [ih h.tail (by simpa) hr, rewriteCells, gather_scatter_disjoint _ _ _ _ (hdisj r hr)]

end

/-! ### Correcting every list of a family (rule R99) -/

/-- One correction attempt at every index list of a family, one after another. -/
def correctFamily (D : CodeDesc) (cells : Nat → List Nat) (l : List Nat) (a : Repair) : Repair :=
  l.foldl (fun a r => correctCells D (cells r) a) a

theorem rowPass_eq (V : VariantDesc) (a : Repair) :
    rowPass V a = correctFamily (codeDesc V.rowCode) V.rowCells V.rows a := rfl

section
variable {D : CodeDesc} {cells : Nat → List Nat} {l : List Nat} {N : Nat}

theorem correctFamily_cons (r : Nat) (a : Repair) :
    correctFamily D cells (r :: l) a = correctFamily D cells l (correctCells D (cells r) a) := rfl

/-- What a pass gives: every attempt sees the bits from before the pass, because the lists are disjoint. -/
theorem correctFamily_eq (h : DisjointCells N cells l) (a : Repair) :
    correctFamily D cells l a =
      { ok := a.ok && l.all fun r => (checkAndCorrect D (gather a.bits (cells r))).ok
        bits := rewriteFamily (fun w => (checkAndCorrect D w).word) cells l a.bits
        flips := a.flips + l.countP fun r => (checkAndCorrect D (gather a.bits (cells r))).flip.isSome } := by
  induction l generalizing a with
  | nil => simp [correctFamily, rewriteFamily]
  | cons q l ih =>
    let b := correctCells D (cells q) a
    have hsame : ∀ r ∈ l, gather b.bits (cells r) = gather a.bits (cells r) := fun r hr =>
      gather_scatter_disjoint _ _ _ _ ((List.pairwise_cons.1 h.disjoint).1 r hr)
    have hok : (l.all fun r => (checkAndCorrect D (gather b.bits (cells r))).ok) =
        l.all fun r => (checkAndCorrect D (gather a.bits (cells r))).ok := by
      rw [Bool.eq_iff_iff, List.all_eq_true, List.all_eq_true]
      exact forall₂_congr fun r hr => by rw [hsame r hr]
    have hflips : (l.countP fun r => (checkAndCorrect D (gather b.bits (cells r))).flip.isSome) =
        l.countP fun r => (checkAndCorrect D (gather a.bits (cells r))).flip.isSome :=
      List.countP_congr fun r hr => by rw [hsame r hr]
    rw [correctFamily_cons, ih h.tail, hok, hflips, List.all_cons, List.countP_cons, rewriteFamily_cons]
    simp only [Repair.mk.injEq]
    exact ⟨Bool.and_assoc .., rfl, by simp only [correctCells]; omega⟩

@[simp] theorem length_correctFamily (D : CodeDesc) (cells : Nat → List Nat) (l : List Nat) (a : Repair) :
    (correctFamily D cells l a).bits.length = a.bits.length := by
  induction l generalizing a with
  | nil => rfl
  | cons r l ih => rw [correctFamily_cons, ih, length_correctCells]

theorem correctCells_of_check {idx : List Nat} {a : Repair} (hc : check D (gather a.bits idx) = true) :
    correctCells D idx a = a := by
  simp [correctCells, checkAndCorrect_of_check hc]

theorem correctFamily_of_checks {a : Repair} (hc : ∀ r ∈ l, check D (gather a.bits (cells r)) = true) :
    correctFamily D cells l a = a := by
  induction l with
  | nil => rfl
  | cons r l ih =>
    rw [List.forall_mem_cons] at hc
    rw [correctFamily_cons, correctCells_of_check hc.1, ih hc.2]

/-- A flipped bit among the cells of one codeword is put back (rule R91). -/
theorem correctCells_of_flip {idx : List Nat} {T : Bits} (hD : D.ColumnsDistinct) (hn : idx.Nodup)
    (hlen : idx.length = D.n) (hlt : ∀ i ∈ idx, i < T.length) (hc : check D (gather T idx) = true) {L : Nat}
    (hL : L ∈ idx) (ok : Bool) (flips : Nat) :
    correctCells D idx ⟨ok, flipBit T L, flips⟩ = ⟨ok, T, flips + 1⟩ := by
  obtain ⟨j, hj, rfl⟩ := List.getElem_of_mem hL
  have hback : scatter (flipBit T idx[j]) idx (gather T idx) = T :=
    scatter_gather_of_agree (by simp) fun p hp => List.getElem?_set_ne (by rintro rfl; exact hp hL)
  rw [correctCells, gather_flipBit T hn hj (hlt _ hL), singleErrorIsCorrected D _ j hD (by simpa) hc (hlen ▸ hj)]
  simp [hback]

/-- In a disjoint family of codewords one flipped bit is put back, by the one attempt whose list holds it. -/
theorem correctFamily_of_flip {T : Bits} (h : DisjointCells N cells l) (hD : D.ColumnsDistinct)
    (hlen : ∀ r, (cells r).length = D.n) (hT : T.length = N) (hc : ∀ r ∈ l, check D (gather T (cells r)) = true)
    {r L : Nat} (hr : r ∈ l) (hL : L ∈ cells r) (ok : Bool) (flips : Nat) :
    correctFamily D cells l ⟨ok, flipBit T L, flips⟩ = ⟨ok, T, flips + 1⟩ := by
  induction l with
  | nil => cases hr
  | cons q l ih =>
    have htail : ∀ q ∈ l, check D (gather T (cells q)) = true := fun q hq => hc q (List.mem_cons_of_mem _ hq)
    rw [correctFamily_cons]
    obtain rfl | hr := List.mem_cons.1 hr
    · rw [correctCells_of_flip hD (h.nodup r (by simp)) (hlen r) (fun i hi => hT ▸ h.lt r (by simp) i hi)
        (hc r (by simp)) hL, correctFamily_of_checks htail]
    · have hnot : L ∉ cells q := (List.pairwise_cons.1 h.disjoint).1 r hr L hL
      have hq : check D (gather (flipBit T L) (cells q)) = true := by
        rw [gather_flipBit_of_notMem T hnot, hc q (by simp)]
      rw [correctCells_of_check (a := ⟨ok, flipBit T L, flips⟩) hq, ih h.tail htail hr]

end

/-! ### The column pass (rule R99) -/

/-- The column is a codeword of the column code, or has even parity. -/
def VariantDesc.columnCheck (V : VariantDesc) (w : Bits) : Bool :=
  match V.colCode with
  | .bmc code => check (codeDesc code) w
  | .evenParity => !parity w

section
variable {V : VariantDesc} {code : Code}

theorem columnCheck_of_bmc (h : V.colCode = .bmc code) : V.columnCheck = check (codeDesc code) := by
  funext w
  simp [VariantDesc.columnCheck, h]

theorem columnCheck_of_evenParity (h : V.colCode = .evenParity) (w : Bits) : V.columnCheck w = !parity w := by
  simp [VariantDesc.columnCheck, h]

theorem columnPass_of_bmc (h : V.colCode = .bmc code) (a : Repair) :
    columnPass V a = correctFamily (codeDesc code) V.colCells (List.range V.C) a := by
  simp only [columnPass, columnAttempt, h]
  rfl

theorem columnPass_of_evenParity (h : V.colCode = .evenParity) (a : Repair) :
    columnPass V a =
      { a with ok := a.ok && (List.range V.C).all fun c => V.columnCheck (gather a.bits (V.colCells c)) } := by
  simp only [columnPass, columnAttempt, h, columnCheck_of_evenParity h]
  generalize List.range V.C = l
  induction l generalizing a with
  | nil => simp
  | cons c l ih => rw [List.foldl_cons, ih, List.all_cons, ← Bool.and_assoc]

@[simp] theorem length_columnPass (V : VariantDesc) (a : Repair) : (columnPass V a).bits.length = a.bits.length := by
  cases h : V.colCode with
  | bmc code => rw [columnPass_of_bmc h, length_correctFamily]
  | evenParity => rw [columnPass_of_evenParity h]

theorem columnPass_of_checks {a : Repair} (hc : ∀ c < V.C, V.columnCheck (gather a.bits (V.colCells c)) = true) :
    columnPass V a = a := by
  cases h : V.colCode with
  | bmc code =>
    rw [columnPass_of_bmc h]
    exact correctFamily_of_checks fun c hcC => columnCheck_of_bmc h ▸ hc c (List.mem_range.1 hcC)
  | evenParity =>
    have hall : ((List.range V.C).all fun c => V.columnCheck (gather a.bits (V.colCells c))) = true :=
      List.all_eq_true.2 fun c hcC => hc c (List.mem_range.1 hcC)
    rw [columnPass_of_evenParity h, hall, Bool.and_true]

end

section
variable (v : Variant)

theorem disjoint_rows : DisjointCells (variantDesc v).N (variantDesc v).rowCells (variantDesc v).rows := by
  have hsub : (variantDesc v).rows.Sublist (List.range (variantDesc v).R) := by
    rw [rows_eq_range]
    exact List.range_sublist.2 (infoRows_lt v).le
  exact ⟨fun r hr => (disjoint_rowCells v).nodup r (hsub.subset hr),
    fun r hr => (disjoint_rowCells v).lt r (hsub.subset hr), (disjoint_rowCells v).disjoint.sublist hsub⟩

theorem colCode_n {v : Variant} {code : Code} (h : (variantDesc v).colCode = .bmc code) :
    (codeDesc code).n = (variantDesc v).R := by
  obtain ⟨rfl, hR⟩ := colCode_eq_bmc h
  exact hR.symm

/-- A list of cells holds a codeword exactly when the sums of rule R73 over its cells are 0. -/
theorem check_gather_iff (D : CodeDesc) (T : Bits) (f : Nat → Nat) :
    check D (gather T ((List.range D.n).map f)) = true ↔ ∀ j < D.m, synSum D (fun i => T.getD (f i) false) j = 0 := by
  rw [check_eq_true_iff]
  refine forall₂_congr fun j hj => ?_
  rw [← Bool.toNat_eq_zero, syndromeBit, parity_map_range, synSum]
  refine Eq.congr_left (congrArg (· % 2) (Finset.sum_congr rfl fun i hi => ?_))
  have hbit : (gather T ((List.range D.n).map f)).getD i false = T.getD (f i) false := by
    have hlt := Finset.mem_range.1 hi
    rw [getD_gather T (by simpa)]
    simp [List.getD_eq_getElem?_getD, hlt]
  rw [hbit]
  cases D.H j i <;> simp

theorem rowCheck_iff {T : Bits} {r : Nat} :
    check (codeDesc (variantDesc v).rowCode) (gather T ((variantDesc v).rowCells r)) = true ↔
      RowOk (variantDesc v) (fun L => T.getD L false) r := by
  rw [VariantDesc.rowCells, ← rowCode_n v, check_gather_iff]
  rfl

theorem columnCheck_iff {T : Bits} {c : Nat} :
    (variantDesc v).columnCheck (gather T ((variantDesc v).colCells c)) = true ↔
      ColumnOk (variantDesc v) (fun L => T.getD L false) c := by
  cases h : (variantDesc v).colCode with
  | bmc code =>
    simp only [columnCheck_of_bmc h, ColumnOk, h]
    rw [VariantDesc.colCells, ← colCode_n h, check_gather_iff]
  | evenParity =>
    simp only [columnCheck_of_evenParity h, ColumnOk, h]
    rw [Bool.not_eq_true', ← Bool.toNat_eq_zero, VariantDesc.colCells, gather_map_range, parity_map_range]

/-! ### repair (rule R99) -/

theorem repair_eq (V : VariantDesc) (y : Bits) : repair V y =
    { columnPass V (rowPass V ⟨true, deinterleave V y, 0⟩) with
      bits := interleave V (columnPass V (rowPass V ⟨true, deinterleave V y, 0⟩)).bits } := rfl

theorem deinterleave_repair (y : Bits) : deinterleave (variantDesc v) (repair (variantDesc v) y).bits =
    (columnPass (variantDesc v) (rowPass (variantDesc v) ⟨true, deinterleave (variantDesc v) y, 0⟩)).bits := by
  rw [repair_eq]
  exact deinterleave_interleave v (by simp [rowPass_eq])

/-- The table between the two passes: every corrected row after its attempt. -/
def VariantDesc.rowsCorrected (V : VariantDesc) (T : Bits) : Bits :=
  rewriteFamily (fun w => (checkAndCorrect (codeDesc V.rowCode) w).word) V.rowCells V.rows T

theorem rowPass_eq_rowsCorrected (T : Bits) : rowPass (variantDesc v) ⟨true, T, 0⟩ =
    { ok := (variantDesc v).rows.all fun r =>
        (checkAndCorrect (codeDesc (variantDesc v).rowCode) (gather T ((variantDesc v).rowCells r))).ok
      bits := (variantDesc v).rowsCorrected T
      flips := (variantDesc v).rows.countP fun r =>
        (checkAndCorrect (codeDesc (variantDesc v).rowCode) (gather T ((variantDesc v).rowCells r))).flip.isSome } := by
  rw [rowPass_eq, correctFamily_eq (disjoint_rows v), Bool.true_and, Nat.zero_add]
  rfl

/-- Settles O29: M is the table between the passes, and every attempt of a pass sees the bits from before the pass. -/
theorem repairIsARowPassThenAColumnPass : Obligations.RepairIsARowPassThenAColumnPass := by
  intro v y V T out T' row _
  have hT : T.length = V.N := length_deinterleave V y
  have hM : (V.rowsCorrected T).length = V.N := (length_rewriteFamily _ _ _ T).trans hT
  have hword (D : CodeDesc) (n : Nat) : ∀ w : Bits, w.length = n → (checkAndCorrect D w).word.length = n :=
    fun w hw => (length_checkAndCorrect D w).trans hw
  have hrows : (V.rows.all fun r => (row r).ok) = true ↔ ∀ r ∈ V.rows, (row r).ok = true := List.all_eq_true
  have hT' : T' = (columnPass V (rowPass V ⟨true, T, 0⟩)).bits := deinterleave_repair v y
  have hok : out.ok = (columnPass V (rowPass V ⟨true, T, 0⟩)).ok := rfl
  have hflips : out.flips = (columnPass V (rowPass V ⟨true, T, 0⟩)).flips := rfl
  rw [rowPass_eq_rowsCorrected] at hT' hok hflips
  refine ⟨length_repair V y, V.rowsCorrected T, hM, fun r hr => ?_, fun L _ hL => getD_rewriteFamily_of_notMem hL T, ?_⟩
  · exact gather_rewriteFamily (disjoint_rows v) (length_rowCells V) (hword _ _) hT hr
  split
  case h_1 code hcol =>
    rw [columnPass_of_bmc hcol, correctFamily_eq (disjoint_colCells v)] at hT' hok hflips
    refine ⟨fun c hc => ?_, fun L _ hL => ?_, ?_, ?_⟩
    · rw [hT']
      exact gather_rewriteFamily (disjoint_colCells v) (length_colCells V) (hword _ _) hM (List.mem_range.2 hc)
    · rw [hT']
      refine getD_rewriteFamily_of_notMem (fun c hc hmem => ?_) _
      obtain ⟨r, hr, rfl⟩ := mem_colCells.1 hmem
      exact absurd hL (by rw [cell_of_lof v hr (List.mem_range.1 hc)]; simp)
    · rw [hok, Bool.and_eq_true, hrows, List.all_eq_true]
      exact and_congr_right' (forall_congr' fun c => imp_congr List.mem_range Iff.rfl)
    · rw [hflips, List.countP_eq_length_filter, List.countP_eq_length_filter]
  case h_2 hcol =>
    rw [columnPass_of_evenParity hcol] at hT' hok hflips
    refine ⟨hT', ?_, ?_⟩
    · rw [hok, Bool.and_eq_true, hrows, List.all_eq_true]
      exact and_congr_right' (forall_congr' fun c => imp_congr List.mem_range (columnCheck_iff v))
    · rw [hflips, List.countP_eq_length_filter]

end

end Sys2Proof.Machine
end

section
/-! PROOFS. What encode makes (rules R100, R103): the table it fills, whose rows and columns its two passes complete
into a product codeword without touching the information bits, and the round trip of rule R114. -/

namespace Sys2Proof.Machine

/-! ### The table filled with the two fields (rules R94, R103) -/

section
variable (V : VariantDesc)

theorem nodup_dataCells : V.dataCells.Nodup := List.nodup_range.filter _

theorem nodup_specialCells : V.specialCells.Nodup := List.nodup_range.filter _

theorem mem_dataCells_iff {L : Nat} : L ∈ V.dataCells ↔ L < V.N ∧ V.cls L = .data := by
  simp [VariantDesc.dataCells]

theorem mem_specialCells_iff {L : Nat} : L ∈ V.specialCells ↔ L < V.N ∧ V.cls L = .special := by
  simp [VariantDesc.specialCells]

@[simp] theorem length_filledTable (d sp : Bits) : (filledTable V d sp).length = V.N := by simp [filledTable]

end

section
variable {V : VariantDesc} {d sp : Bits}

theorem dataBits_filledTable (hd : d.length = V.dataCells.length) : dataBits V (filledTable V d sp) = d := by
  have hdisj : ∀ i ∈ V.dataCells, i ∉ V.specialCells := by
    intro i hi hi'
    rw [mem_dataCells_iff] at hi
    rw [mem_specialCells_iff, hi.2] at hi'
    exact absurd hi'.2 (by decide)
  rw [dataBits, filledTable, gather_scatter_disjoint _ _ _ _ hdisj]
  exact gather_scatter _ _ _ (nodup_dataCells V) hd.symm fun i hi => by
    simpa using ((mem_dataCells_iff V).1 hi).1

theorem specialBits_filledTable (hsp : sp.length = V.specialCells.length) : specialBits V (filledTable V d sp) = sp :=
  gather_scatter _ _ _ (nodup_specialCells V) hsp.symm fun i hi => by simpa using ((mem_specialCells_iff V).1 hi).1

/-- "Every RESERVED cell is 0" (rule R103). -/
theorem getD_filledTable_of_reserved {L : Nat} (hL : V.cls L = .reserved) :
    (filledTable V d sp).getD L false = false := by
  rw [filledTable, getD_scatter_of_notMem _ _ (by simp [mem_specialCells_iff, hL]),
    getD_scatter_of_notMem _ _ (by simp [mem_dataCells_iff, hL])]
  simp [List.getD_eq_getElem?_getD, List.getElem?_replicate]
  split <;> rfl

end

/-! ### One row and one column (rules R76, R103) -/

/-- What encode writes back over a column. -/
def VariantDesc.encodedColumn (V : VariantDesc) (w : Bits) : Bits :=
  match V.colCode with
  | .bmc code => generate (codeDesc code) (w.take (codeDesc code).k)
  | .evenParity => w.set (V.R - 1) (parity (w.take (V.R - 1)))

/-- The codeword of the first k bits of w starts with them. -/
theorem getD_generate_take {D : CodeDesc} (hD : D.Systematic) (hkn : D.k < D.n) {j : Nat} (hj : j < D.k) (w : Bits) :
    (generate D (w.take D.k)).getD j false = w.getD j false := by
  rw [getD_generate (hj.trans hkn), generateBit_of_systematic hD hj]
  simp [List.getD_eq_getElem?_getD, hj]

theorem check_generate {D : CodeDesc} (hD : D.Systematic) (hkn : D.k < D.n) (x : Bits) :
    check D (generate D x) = true :=
  check_eq_true_iff.2 fun _ hj => syndromeBit_generate hkn hD hj

theorem set_last_eq_append {w : Bits} {m : Nat} (hw : w.length = m + 1) (b : Bool) : w.set m b = w.take m ++ [b] := by
  rw [List.set_eq_take_append_cons_drop, if_pos (by omega), List.drop_of_length_le (by omega)]

section
variable {v : Variant} {w : Bits} {code : Code}

theorem colCode_systematic (h : (variantDesc v).colCode = .bmc code) :
    (codeDesc code).Systematic ∧ (codeDesc code).k < (codeDesc code).n := by
  obtain ⟨rfl, -⟩ := colCode_eq_bmc h
  exact ⟨(hammingColumnsAreDistinct .ham1393 (by decide)).1, by decide⟩

theorem encodedColumn_of_bmc {V : VariantDesc} (h : V.colCode = .bmc code) (w : Bits) :
    V.encodedColumn w = generate (codeDesc code) (w.take (codeDesc code).k) := by
  simp [VariantDesc.encodedColumn, h]

theorem encodedColumn_of_evenParity {V : VariantDesc} (h : V.colCode = .evenParity) (w : Bits) :
    V.encodedColumn w = w.set (V.R - 1) (parity (w.take (V.R - 1))) := by
  simp [VariantDesc.encodedColumn, h]

theorem length_encodedColumn (hw : w.length = (variantDesc v).R) :
    ((variantDesc v).encodedColumn w).length = (variantDesc v).R := by
  cases h : (variantDesc v).colCode with
  | bmc code => rw [encodedColumn_of_bmc h, length_generate, colCode_n h]
  | evenParity => rw [encodedColumn_of_evenParity h, List.length_set, hw]

/-- Encoding a column keeps its information bits. -/
theorem getD_encodedColumn {r : Nat} (hr : r < (variantDesc v).infoRows) :
    ((variantDesc v).encodedColumn w).getD r false = w.getD r false := by
  cases h : (variantDesc v).colCode with
  | bmc code =>
    simp only [VariantDesc.infoRows, h] at hr
    rw [encodedColumn_of_bmc h, getD_generate_take (colCode_systematic h).1 (colCode_systematic h).2 hr]
  | evenParity =>
    simp only [VariantDesc.infoRows, h] at hr
    rw [encodedColumn_of_evenParity h, List.getD_eq_getElem?_getD, List.getElem?_set_ne (by omega),
      List.getD_eq_getElem?_getD]

theorem columnCheck_encodedColumn (hw : w.length = (variantDesc v).R) :
    (variantDesc v).columnCheck ((variantDesc v).encodedColumn w) = true := by
  cases h : (variantDesc v).colCode with
  | bmc code =>
    rw [columnCheck_of_bmc h, encodedColumn_of_bmc h, check_generate (colCode_systematic h).1 (colCode_systematic h).2]
  | evenParity =>
    have hR := infoRows_lt v
    rw [columnCheck_of_evenParity h, encodedColumn_of_evenParity h,
      set_last_eq_append (m := (variantDesc v).R - 1) (by omega)]
    simp

end

/-! ### The two passes (rule R103) -/

theorem encodeRows_eq (V : VariantDesc) (T : Bits) : encodeRows V T =
    rewriteFamily (fun w => generate (codeDesc V.rowCode) (w.take (codeDesc V.rowCode).k)) V.rowCells V.rows T := rfl

section
variable {v : Variant} {T : Bits}

theorem encodeColumn_eq (hT : T.length = (variantDesc v).N) {c : Nat} (hc : c < (variantDesc v).C) :
    encodeColumn (variantDesc v) c T =
      rewriteCells (variantDesc v).encodedColumn ((variantDesc v).colCells c) T := by
  cases h : (variantDesc v).colCode with
  | bmc code =>
    simp only [encodeColumn, h, generateCells, rewriteCells, encodedColumn_of_bmc h]
  | evenParity =>
    have hR := infoRows_lt v
    have hlast : (variantDesc v).R - 1 < ((variantDesc v).colCells c).length := by rw [length_colCells]; omega
    have hlt : ((variantDesc v).colCells c)[(variantDesc v).R - 1] < T.length := by
      rw [getElem_colCells, hT]
      exact lof_lt v (by omega) hc
    have hnodup := (disjoint_colCells v).nodup c (List.mem_range.2 hc)
    simp only [encodeColumn, h, rewriteCells, encodedColumn_of_evenParity h]
    rw [← gather_set T hnodup hlast hlt, getElem_colCells]
    refine (scatter_gather_of_agree (List.length_set ..).symm fun p hp => ?_).symm
    rw [List.getElem?_set_ne]
    rintro rfl
    exact hp (mem_colCells.2 ⟨_, by omega, rfl⟩)

theorem encodeColumns_eq (hT : T.length = (variantDesc v).N) : encodeColumns (variantDesc v) T =
    rewriteFamily (variantDesc v).encodedColumn (variantDesc v).colCells (List.range (variantDesc v).C) T := by
  have hlist (l : List Nat) (hl : ∀ c ∈ l, c < (variantDesc v).C) :
      l.foldl (fun T c => encodeColumn (variantDesc v) c T) T =
        rewriteFamily (variantDesc v).encodedColumn (variantDesc v).colCells l T := by
    induction l generalizing T with
    | nil => rfl
    | cons c l ih =>
      rw [List.forall_mem_cons] at hl
      rw [List.foldl_cons, encodeColumn_eq hT hl.1, ih (by simpa) hl.2, rewriteFamily_cons]
  exact hlist _ fun c hc => List.mem_range.1 hc

@[simp] theorem length_encodeRows (V : VariantDesc) (T : Bits) : (encodeRows V T).length = T.length := by
  rw [encodeRows_eq, length_rewriteFamily]

theorem gather_encodeRows (hT : T.length = (variantDesc v).N) {r : Nat} (hr : r ∈ (variantDesc v).rows) :
    gather (encodeRows (variantDesc v) T) ((variantDesc v).rowCells r) = generate (codeDesc (variantDesc v).rowCode)
      ((gather T ((variantDesc v).rowCells r)).take (codeDesc (variantDesc v).rowCode).k) := by
  rw [encodeRows_eq]
  exact gather_rewriteFamily (f := fun w => generate (codeDesc (variantDesc v).rowCode) (w.take _)) (disjoint_rows v)
    (length_rowCells _) (fun _ _ => by rw [length_generate, rowCode_n]) hT hr

theorem gather_encodeColumns (hT : T.length = (variantDesc v).N) {c : Nat} (hc : c < (variantDesc v).C) :
    gather (encodeColumns (variantDesc v) T) ((variantDesc v).colCells c) =
      (variantDesc v).encodedColumn (gather T ((variantDesc v).colCells c)) := by
  rw [encodeColumns_eq hT]
  exact gather_rewriteFamily (disjoint_colCells v) (length_colCells _) (fun _ => length_encodedColumn) hT
    (List.mem_range.2 hc)

/-- The column pass keeps the bits of the information rows. -/
theorem getD_encodeColumns_lof (hT : T.length = (variantDesc v).N) {r c : Nat} (hr : r < (variantDesc v).infoRows)
    (hc : c < (variantDesc v).C) : (encodeColumns (variantDesc v) T).getD ((variantDesc v).lof r c) false =
      T.getD ((variantDesc v).lof r c) false := by
  have hrR := hr.trans (infoRows_lt v)
  rw [← getD_gather_colCells _ hrR, gather_encodeColumns hT hc, getD_encodedColumn hr, getD_gather_colCells _ hrR]

/-- Every corrected row is a codeword of the row code and every column passes the column check (rules R93, R99). -/
structure ProductCodeword (V : VariantDesc) (T : Bits) : Prop where
  length : T.length = V.N
  rows : ∀ r ∈ V.rows, check (codeDesc V.rowCode) (gather T (V.rowCells r)) = true
  columns : ∀ c < V.C, V.columnCheck (gather T (V.colCells c)) = true

/-- The two passes complete any table into a product codeword: the column pass comes second and keeps the rows. -/
theorem productCodeword_encode (hT : T.length = (variantDesc v).N) :
    ProductCodeword (variantDesc v) (encodeColumns (variantDesc v) (encodeRows (variantDesc v) T)) where
  length := by rw [encodeColumns_eq (by simpa)]; simpa
  rows r hr := by
    have hkeep : gather (encodeColumns (variantDesc v) (encodeRows (variantDesc v) T)) ((variantDesc v).rowCells r) =
        gather (encodeRows (variantDesc v) T) ((variantDesc v).rowCells r) := by
      refine gather_congr fun i hi => ?_
      obtain ⟨c, hc, rfl⟩ := mem_rowCells.1 hi
      rw [rows_eq_range, List.mem_range] at hr
      exact getD_encodeColumns_lof (by simpa) hr hc
    rw [hkeep, gather_encodeRows hT hr, check_generate (rowCode_hamming v).1 (rowCode_k_lt v)]
  columns c hc := by
    rw [gather_encodeColumns (by simpa) hc, columnCheck_encodedColumn (by simp)]

/-- The two passes keep every bit that no code fills in. -/
theorem getD_encode_of_infoIndex (hT : T.length = (variantDesc v).N) {L : Nat} (hL : (variantDesc v).InfoIndex L) :
    (encodeColumns (variantDesc v) (encodeRows (variantDesc v) T)).getD L false = T.getD L false := by
  have hcells {r c : Nat} (hr : r < (variantDesc v).R) (hc : c < (variantDesc v).C) (h : (variantDesc v).lof r c = L) :
      r < (variantDesc v).infoRows ∧ c < (codeDesc (variantDesc v).rowCode).k := hL r c (h ▸ cell_of_lof v hr hc)
  have hrows : (encodeRows (variantDesc v) T).getD L false = T.getD L false := by
    by_cases hmem : ∃ r ∈ (variantDesc v).rows, L ∈ (variantDesc v).rowCells r
    · obtain ⟨r, hr, hmem⟩ := hmem
      obtain ⟨c, hc, rfl⟩ := mem_rowCells.1 hmem
      have hrR : r < (variantDesc v).R := (List.mem_range.1 (rows_eq_range v ▸ hr)).trans (infoRows_lt v)
      rw [← getD_gather_rowCells _ hc, gather_encodeRows hT hr,
        getD_generate_take (rowCode_hamming v).1 (rowCode_k_lt v) (hcells hrR hc rfl).2, getD_gather_rowCells _ hc]
    · rw [encodeRows_eq, getD_rewriteFamily_of_notMem fun r hr hmem' => hmem ⟨r, hr, hmem'⟩]
  rw [← hrows]
  by_cases hmem : ∃ c < (variantDesc v).C, L ∈ (variantDesc v).colCells c
  · obtain ⟨c, hc, hmem⟩ := hmem
    obtain ⟨r, hr, rfl⟩ := mem_colCells.1 hmem
    exact getD_encodeColumns_lof (by simpa) (hcells hr hc rfl).1 hc
  · rw [encodeColumns_eq (by simpa),
      getD_rewriteFamily_of_notMem fun c hc hmem' => hmem ⟨c, List.mem_range.1 hc, hmem'⟩]

end

/-! ### encode (rule R103) -/

section
variable {v : Variant} {x d sp y : Bits}

/-- DATA, SPECIAL and RESERVED indices are filled in by no code (rules R94, R105 to R108). -/
theorem infoIndex_of_cls {L : Nat}
    (h : (variantDesc v).cls L = .data ∨ (variantDesc v).cls L = .special ∨ (variantDesc v).cls L = .reserved) :
    (variantDesc v).InfoIndex L := by
  intro r c hcell
  obtain ⟨rfl, hr, hc⟩ := lof_of_cell v hcell
  cases v with
  | bptc19696 | vbptc12873 | vbptc3211 | vbptc6828 =>
    simp only [variantDesc, bptc19696, vbptc12873, vbptc3211With, vbptc6828] at h hr hc
    simp only [variantDesc, bptc19696, vbptc12873, vbptc3211With, vbptc6828, VariantDesc.infoRows, codeDesc, systematic]
    split_ifs at h <;> simp at h <;> omega

theorem length_specialValue (v : Variant) (d : Bits) : ((variantDesc v).specialValue d).length = (variantDesc v).S := by
  cases v with
  | bptc19696 | vbptc3211 => rfl
  | vbptc12873 | vbptc6828 => exact length_bitsOf ..

/-- The three input forms of rule R103. -/
theorem encodeFields_cases {V : VariantDesc} (h : encodeFields V x = some (d, sp)) :
    (x.length = V.D ∧ d = x ∧ sp = V.specialValue x) ∨
    (x.length = V.D + V.S ∧ 0 < V.S ∧ d = x.take V.D ∧ sp = x.drop V.D) ∨
    (x.length = V.N ∧ d = dataBits V x ∧ sp = specialBits V x) := by
  rw [encodeFields] at h
  split_ifs at h with hD hS hN <;> cases h
  · exact .inl ⟨hD, rfl, rfl⟩
  · exact .inr (.inl ⟨hS.2, hS.1, rfl, rfl⟩)
  · exact .inr (.inr ⟨hN, rfl, rfl⟩)

theorem length_fields (h : encodeFields (variantDesc v) x = some (d, sp)) :
    d.length = (variantDesc v).D ∧ sp.length = (variantDesc v).S := by
  obtain ⟨hx, rfl, rfl⟩ | ⟨hx, -, rfl, rfl⟩ | ⟨hx, rfl, rfl⟩ := encodeFields_cases h
  · exact ⟨hx, length_specialValue v _⟩
  · simp [hx]
  · exact ⟨(length_dataBits ..).trans (length_dataCells v), (length_specialBits ..).trans (length_specialCells v)⟩

theorem encodeFields_isSome_iff (V : VariantDesc) (x : Bits) :
    (encodeFields V x).isSome = true ↔ EncodeLength V x.length := by
  rw [encodeFields, EncodeLength]
  split_ifs <;> simp [*]

/-- The table encode makes of the fields d and sp (rule R103). -/
structure EncodedTable (V : VariantDesc) (d sp T : Bits) : Prop where
  codeword : ProductCodeword V T
  data : dataBits V T = d
  special : specialBits V T = sp
  reserved : ∀ L, V.cls L = .reserved → T.getD L false = false

/-- The two passes make the filled table a codeword and keep its data, special and reserved bits. -/
theorem encodedTable_of_encodeProduct (h : encodeProduct (variantDesc v) x = some y) :
    ∃ d sp, encodeFields (variantDesc v) x = some (d, sp) ∧
      EncodedTable (variantDesc v) d sp (deinterleave (variantDesc v) y) := by
  obtain ⟨⟨d, sp⟩, hfields, rfl⟩ := Option.map_eq_some_iff.1 h
  obtain ⟨hd, hsp⟩ := length_fields hfields
  have hfilled := length_filledTable (variantDesc v) d sp
  have hword := productCodeword_encode hfilled
  rw [deinterleave_interleave v hword.length]
  refine ⟨d, sp, hfields, hword, ?_, ?_, fun L hL => ?_⟩
  · refine Eq.trans (gather_congr fun L hL => getD_encode_of_infoIndex hfilled (infoIndex_of_cls (.inl ?_)))
      (dataBits_filledTable (sp := sp) (hd.trans (length_dataCells v).symm))
    exact ((mem_dataCells_iff _).1 hL).2
  · refine Eq.trans (gather_congr fun L hL => getD_encode_of_infoIndex hfilled (infoIndex_of_cls (.inr (.inl ?_))))
      (specialBits_filledTable (d := d) (hsp.trans (length_specialCells v).symm))
    exact ((mem_specialCells_iff _).1 hL).2
  · rw [getD_encode_of_infoIndex hfilled (infoIndex_of_cls (.inr (.inr hL))), getD_filledTable_of_reserved hL]

end

end Sys2Proof.Machine
end

section
/-! PROOFS. The laws of rule R114: an encoded block repairs to itself and gives its fields back, and what repair does
with one flipped bit of a product codeword, by the cell of the table it stands in. -/

namespace Sys2Proof.Machine

/-! ### Round trip -/

section
variable {v : Variant} {x y y' : Bits}

/-- What repair answers, from what its two passes make of the logical table. -/
theorem repair_of_passes {b : Bool} {n : Nat} (hy : y.length = (variantDesc v).N)
    (h : columnPass (variantDesc v) (rowPass (variantDesc v) ⟨true, deinterleave (variantDesc v) y', 0⟩) =
      ⟨b, deinterleave (variantDesc v) y, n⟩) : repair (variantDesc v) y' = ⟨b, y, n⟩ := by
  rw [repair_eq, h, interleave_deinterleave v hy]

theorem rowPass_of_productCodeword {V : VariantDesc} {T : Bits} (h : ProductCodeword V T) (ok : Bool) (n : Nat) :
    rowPass V ⟨ok, T, n⟩ = ⟨ok, T, n⟩ :=
  correctFamily_of_checks h.rows

theorem columnPass_of_productCodeword {V : VariantDesc} {T : Bits} (h : ProductCodeword V T) (ok : Bool) (n : Nat) :
    columnPass V ⟨ok, T, n⟩ = ⟨ok, T, n⟩ :=
  columnPass_of_checks h.columns

theorem repair_of_productCodeword (hy : y.length = (variantDesc v).N)
    (h : ProductCodeword (variantDesc v) (deinterleave (variantDesc v) y)) : repair (variantDesc v) y = ⟨true, y, 0⟩ :=
  repair_of_passes hy (by rw [rowPass_of_productCodeword h, columnPass_of_productCodeword h])

/-- Settles O33: an encoded block is a product codeword, whose information bits the passes leave as they were filled
in. -/
theorem productCodeRoundTrip : Obligations.ProductCodeRoundTrip := by
  intro v d V hd
  have hfields : encodeFields V d = some (d, V.specialValue d) := if_pos hd
  have hy : encodeProduct V d = some _ := congrArg (Option.map _) hfields
  obtain ⟨d', sp, hfields', htable⟩ := encodedTable_of_encodeProduct hy
  cases hfields.symm.trans hfields'
  exact ⟨_, hy, repair_of_productCodeword (length_encodeProduct hy) htable.codeword, htable.data, htable.special⟩

end

/-! ### One flipped bit -/

section
variable {v : Variant} {y : Bits} {L r c : Nat}

theorem lt_N_of_cell (h : (variantDesc v).cell L = some (r, c)) : L < (variantDesc v).N := by
  obtain ⟨rfl, hr, hc⟩ := lof_of_cell v h
  exact lof_lt v hr hc

theorem notMem_rowCells_of_cell (h : (variantDesc v).cell L = some (r, c)) {q : Nat} (hq : q < (variantDesc v).R)
    (hne : q ≠ r) : L ∉ (variantDesc v).rowCells q := by
  intro hmem
  obtain ⟨c', hc', rfl⟩ := mem_rowCells.1 hmem
  rw [cell_of_lof v hq hc'] at h
  cases h
  exact hne rfl

/-- A flip outside the corrected rows is not seen by the row pass. -/
theorem rowPass_flipBit_of_notMem {V : VariantDesc} {T : Bits} (h : ProductCodeword V T)
    (hL : ∀ q ∈ V.rows, L ∉ V.rowCells q) : rowPass V ⟨true, flipBit T L, 0⟩ = ⟨true, flipBit T L, 0⟩ :=
  correctFamily_of_checks fun q hq => by rw [gather_flipBit_of_notMem T (hL q hq), h.rows q hq]

/-- The row code puts a flip in a corrected row back, and the columns are then as they were. -/
theorem repair_flipBit_of_row (hy : y.length = (variantDesc v).N)
    (h : ProductCodeword (variantDesc v) (deinterleave (variantDesc v) y))
    (hcell : (variantDesc v).cell L = some (r, c)) (hr : r < (variantDesc v).infoRows) :
    repair (variantDesc v) (flipBit y ((variantDesc v).il L)) = ⟨true, y, 1⟩ := by
  obtain ⟨hlof, -, hc⟩ := lof_of_cell v hcell
  refine repair_of_passes hy ?_
  rw [deinterleave_flipBit v hy (lt_N_of_cell hcell), rowPass_eq, correctFamily_of_flip (disjoint_rows v)
    (rowCode_hamming v).2 (fun r => by rw [length_rowCells, rowCode_n]) h.length h.rows (r := r)
    (by rwa [rows_eq_range, List.mem_range]) (mem_rowCells.2 ⟨c, hc, hlof⟩), columnPass_of_productCodeword h]

/-- A cell below the information rows is in no corrected row. -/
theorem notMem_rowCells_of_infoRows_le (hcell : (variantDesc v).cell L = some (r, c))
    (hr : (variantDesc v).infoRows ≤ r) : ∀ q ∈ (variantDesc v).rows, L ∉ (variantDesc v).rowCells q := by
  intro q hq
  rw [rows_eq_range, List.mem_range] at hq
  exact notMem_rowCells_of_cell hcell (hq.trans (infoRows_lt v)) (by omega)

/-- The column code of BPTC19696 puts a flip in a column FEC row back. -/
theorem repair_flipBit_of_columnFec {code : Code} (hcode : (variantDesc v).colCode = .bmc code)
    (hy : y.length = (variantDesc v).N) (h : ProductCodeword (variantDesc v) (deinterleave (variantDesc v) y))
    (hcell : (variantDesc v).cell L = some (r, c)) (hr : (variantDesc v).infoRows ≤ r) :
    repair (variantDesc v) (flipBit y ((variantDesc v).il L)) = ⟨true, y, 1⟩ := by
  obtain ⟨hlof, hrR, hc⟩ := lof_of_cell v hcell
  have hcolumns : ∀ c ∈ List.range (variantDesc v).C, check (codeDesc code)
      (gather (deinterleave (variantDesc v) y) ((variantDesc v).colCells c)) = true := by
    intro c hc
    rw [← columnCheck_of_bmc hcode, h.columns c (List.mem_range.1 hc)]
  have hdistinct : (codeDesc code).ColumnsDistinct := by
    obtain ⟨rfl, -⟩ := colCode_eq_bmc hcode
    exact (hammingColumnsAreDistinct .ham1393 (by decide)).2
  refine repair_of_passes hy ?_
  rw [deinterleave_flipBit v hy (lt_N_of_cell hcell), rowPass_flipBit_of_notMem h (notMem_rowCells_of_infoRows_le hcell hr),
    columnPass_of_bmc hcode, correctFamily_of_flip (disjoint_colCells v) hdistinct
    (fun c => by rw [length_colCells, colCode_n hcode]) h.length hcolumns (List.mem_range.2 hc)
    (mem_colCells.2 ⟨r, hrR, hlof⟩)]

theorem parity_flipBit {w : Bits} {i : Nat} (hi : i < w.length) : parity (flipBit w i) = !parity w := by
  have hw : w.take i ++ w[i] :: w.drop (i + 1) = w := by simp
  rw [flipBit, List.set_eq_take_append_cons_drop, if_pos hi, List.getD_eq_getElem _ _ hi]
  conv_rhs => rw [← hw]
  simp only [parity_append, parity_cons, Bool.not_xor, Bool.xor_not]

/-- An even-parity column shows a flip in its parity row, and cannot put it back. -/
theorem repair_flipBit_of_parityRow (hparity : (variantDesc v).colCode = .evenParity)
    (hy : y.length = (variantDesc v).N) (h : ProductCodeword (variantDesc v) (deinterleave (variantDesc v) y))
    (hcell : (variantDesc v).cell L = some (r, c)) (hr : (variantDesc v).infoRows ≤ r) :
    repair (variantDesc v) (flipBit y ((variantDesc v).il L)) = ⟨false, flipBit y ((variantDesc v).il L), 0⟩ := by
  obtain ⟨hlof, hrR, hc⟩ := lof_of_cell v hcell
  have hLN := lt_N_of_cell hcell
  have hcolumn : (variantDesc v).columnCheck
      (gather (flipBit (deinterleave (variantDesc v) y) L) ((variantDesc v).colCells c)) = false := by
    have hr' : r < ((variantDesc v).colCells c).length := by simpa
    have hget : ((variantDesc v).colCells c)[r] = L := (getElem_colCells hr').trans hlof
    have hflip := gather_flipBit (deinterleave (variantDesc v) y)
      ((disjoint_colCells v).nodup c (List.mem_range.2 hc)) hr' (by rwa [hget, length_deinterleave])
    have heven := h.columns c hc
    rw [columnCheck_of_evenParity hparity] at heven
    rw [← hget, hflip, columnCheck_of_evenParity hparity, parity_flipBit (by simpa), heven]
    rfl
  refine repair_of_passes (by simpa) ?_
  rw [deinterleave_flipBit v hy hLN, rowPass_flipBit_of_notMem h (notMem_rowCells_of_infoRows_le hcell hr),
    columnPass_of_evenParity hparity]
  have hall : ((List.range (variantDesc v).C).all fun c => (variantDesc v).columnCheck
      (gather (flipBit (deinterleave (variantDesc v) y) L) ((variantDesc v).colCells c))) = false := by
    rw [List.all_eq_false]
    exact ⟨c, List.mem_range.2 hc, by simp [hcolumn]⟩
  simp [hall]

/-- A logical index with no cell is in no row and no column, so repair does not see its bit (rules R97, R105). -/
theorem repair_flipBit_of_no_cell (hL : L < (variantDesc v).N) (hy : y.length = (variantDesc v).N)
    (h : ProductCodeword (variantDesc v) (deinterleave (variantDesc v) y)) (hcell : (variantDesc v).cell L = none) :
    repair (variantDesc v) (flipBit y ((variantDesc v).il L)) = ⟨true, flipBit y ((variantDesc v).il L), 0⟩ := by
  have hlof {r c : Nat} (hr : r < (variantDesc v).R) (hc : c < (variantDesc v).C) : (variantDesc v).lof r c ≠ L := by
    rintro rfl
    simp [cell_of_lof v hr hc] at hcell
  refine repair_of_passes (by simpa) ?_
  rw [deinterleave_flipBit v hy hL, rowPass_flipBit_of_notMem h, columnPass_of_checks]
  · intro c hc
    rw [gather_flipBit_of_notMem _ _, h.columns c hc]
    intro hmem
    obtain ⟨r, hr, hrL⟩ := mem_colCells.1 hmem
    exact hlof hr hc hrL
  · intro q hq hmem
    rw [rows_eq_range, List.mem_range] at hq
    obtain ⟨c, hc, hcL⟩ := mem_rowCells.1 hmem
    exact hlof (hq.trans (infoRows_lt v)) hc hcL

end

/-- Settles O34: on-air position 0 is logical index 0, the one without a cell; every other bit is in a row or a column
of a code that corrects one error. -/
theorem bptcRepairsEverySingleErrorButR3 : Obligations.BptcRepairsEverySingleErrorButR3 := by
  intro d y k _ hy hk
  change repair (variantDesc .bptc19696) _ = _
  have hlen : y.length = (variantDesc .bptc19696).N := length_encodeProduct hy
  obtain ⟨_, _, _, hword, -⟩ := encodedTable_of_encodeProduct (v := .bptc19696) hy
  obtain ⟨L, hL, rfl⟩ := exists_il_eq .bptc19696 hk
  have hzero : (variantDesc .bptc19696).il L = 0 ↔ L = 0 := by
    simp only [variantDesc, bptc19696] at hL ⊢
    omega
  by_cases hL0 : L = 0
  · rw [if_pos (hzero.2 hL0)]
    exact repair_flipBit_of_no_cell hL hlen hword (by subst hL0; rfl)
  · rw [if_neg (mt hzero.1 hL0)]
    have hcell : (variantDesc .bptc19696).cell L = some ((L - 1) / 15, (L - 1) % 15) := if_pos (by
      simp only [variantDesc, bptc19696] at hL; omega)
    by_cases hr : (L - 1) / 15 < (variantDesc .bptc19696).infoRows
    · exact repair_flipBit_of_row hlen hword hcell hr
    · exact repair_flipBit_of_columnFec rfl hlen hword hcell (not_lt.1 hr)

/-- In a VBPTC variant every logical index has a cell, and the parity row is the one row that is not corrected (rules
R106 to R108). -/
theorem exists_cell_of_vbptc {v : Variant} (hv : v ≠ .bptc19696) {L : Nat} (hL : L < (variantDesc v).N) :
    (variantDesc v).colCode = .evenParity ∧ ∃ r c, (variantDesc v).cell L = some (r, c) ∧
      ((variantDesc v).cls L = .colPar ↔ (variantDesc v).infoRows ≤ r) := by
  cases v with
  | bptc19696 => exact absurd rfl hv
  | vbptc12873 | vbptc3211 | vbptc6828 =>
    refine ⟨rfl, _, _, if_pos hL, ?_⟩
    simp only [variantDesc, vbptc12873, vbptc3211With, vbptc6828, VariantDesc.infoRows] at hL ⊢
    split_ifs <;> simp only [false_iff, true_iff] <;> omega

/-- Settles O35: the row code corrects the flip outside the parity row, and the column parity shows it inside. -/
theorem vbptcRepairsSingleErrorsOutsideParityRow : Obligations.VbptcRepairsSingleErrorsOutsideParityRow := by
  intro v d y L V hv _ hy hL
  have hlen : y.length = V.N := length_encodeProduct hy
  obtain ⟨_, _, _, hword, -⟩ := encodedTable_of_encodeProduct hy
  obtain ⟨hparity, r, c, hcell, hrow⟩ := exists_cell_of_vbptc hv hL
  by_cases hr : V.infoRows ≤ r
  · rw [if_pos (hrow.2 hr)]
    exact repair_flipBit_of_parityRow hparity hlen hword hcell hr
  · rw [if_neg (mt hrow.1 hr)]
    exact repair_flipBit_of_row hlen hword hcell (not_le.1 hr)

end Sys2Proof.Machine
end

section
/-! PROOFS. The four PC commands (rules R110 to R113): their outputs as the bits of the interleaved table. -/

namespace Sys2Proof.Machine

theorem CompletesWithOutput.obufBit {b : Bool} {bs : Bits} {r : Word} {s t : State} (h : CompletesWithOutput b bs r s t)
    {k : Nat} (hk : k < bs.length) : t.obufBit k = bs.getD k false := by
  rw [h.obuf k hk, List.getD_eq_getElem]

/-- Settles O26: output bit L is logical bit L of the input. -/
theorem pcDiaDeinterleaves : Obligations.PcDiaDeinterleaves := by
  intro v s V
  refine ⟨encodedAs_of_encode rfl (by cases v <;> rfl), lengthGuard_fails, fun h => ?_⟩
  have hN : V.N ≤ 196 := (variantDesc_le v).1
  have hlen : (deinterleave V s.input).length = V.N := length_deinterleave V s.input
  obtain ⟨t, ht, hout⟩ := complete_setOutput true (deinterleave V s.input) 0 s (by omega)
  refine ⟨t, (if_neg (not_not.2 h)).trans ht, hout.status, hout.olen.trans hlen, hout.result, fun L hL => ?_,
    hout.frame⟩
  rw [hout.obufBit (by omega), getD_deinterleave hL, s.getD_input _ (h ▸ il_lt v L hL)]

/-! ### The flips of a repair (rules R99, R112) -/

/-- The correction attempts one repair makes (rule R99). -/
def VariantDesc.attempts (V : VariantDesc) : Nat :=
  match V.colCode with
  | .bmc _ => V.rows.length + V.C
  | .evenParity => V.rows.length

theorem attempts_of_bmc {V : VariantDesc} {code : Code} (h : V.colCode = .bmc code) :
    V.attempts = V.rows.length + V.C := by
  simp [VariantDesc.attempts, h]

theorem attempts_of_evenParity {V : VariantDesc} (h : V.colCode = .evenParity) : V.attempts = V.rows.length := by
  simp [VariantDesc.attempts, h]

/-- An attempt flips at most one bit. -/
theorem flips_repair_le (v : Variant) {y : Bits} (hy : y.length = (variantDesc v).N) :
    (repair (variantDesc v) y).flips ≤ (variantDesc v).attempts := by
  obtain ⟨-, M, -, -, -, h⟩ := repairIsARowPassThenAColumnPass v y hy
  split at h
  case h_1 hcol =>
    obtain ⟨-, -, -, hflips⟩ := h
    rw [hflips, attempts_of_bmc hcol]
    exact Nat.add_le_add (List.length_filter_le ..) ((List.length_filter_le ..).trans List.length_range.le)
  case h_2 hcol =>
    obtain ⟨-, -, hflips⟩ := h
    rw [hflips, attempts_of_evenParity hcol]
    exact List.length_filter_le ..

theorem toNat_ofNat_flips (v : Variant) {y : Bits} (hy : y.length = (variantDesc v).N) :
    (BitVec.ofNat 32 (repair (variantDesc v) y).flips).toNat = (repair (variantDesc v) y).flips := by
  have hle := flips_repair_le v hy
  have hattempts : (variantDesc v).attempts ≤ 24 := by cases v <;> decide
  exact Nat.mod_eq_of_lt (by omega)

/-- Settles O28: RESULT is repair's count of flips, at most one per attempt. -/
theorem pcRepWritesTheRepairedBlock : Obligations.PcRepWritesTheRepairedBlock := by
  intro v s V a
  refine ⟨encodedAs_of_encode rfl (by cases v <;> rfl), lengthGuard_fails, fun h => ?_⟩
  have hN : V.N ≤ 196 := (variantDesc_le v).1
  have hlen : a.bits.length = V.N := length_repair V s.input
  have hinput : s.input.length = V.N := s.length_input.trans h
  obtain ⟨t, ht, hout⟩ := complete_setOutput a.ok a.bits (BitVec.ofNat 32 a.flips) s (by omega)
  have hresult : t.result.toNat = a.flips := by rw [hout.result, toNat_ofNat_flips v hinput]
  refine ⟨t, (if_neg (not_not.2 h)).trans ht, hout.status, hout.olen.trans hlen, hresult,
    fun k hk => hout.obufBit (by omega), hout.frame, ?_⟩
  rw [hresult]
  exact (flips_repair_le v hinput).trans_eq (by cases v <;> rfl)

/-! ### Data and special bits (rules R100, R111) -/

section
variable (v : Variant) (y : Bits) {j : Nat}

theorem getD_mem {l : List Nat} (hj : j < l.length) : l.getD j 0 ∈ l := by
  rw [List.getD_eq_getElem l 0 hj]
  exact List.getElem_mem hj

theorem dataCells_getD_lt (hj : j < (variantDesc v).D) : (variantDesc v).dataCells.getD j 0 < (variantDesc v).N :=
  ((mem_dataCells_iff _).1 (getD_mem (by rwa [length_dataCells]))).1

theorem specialCells_getD_lt (hj : j < (variantDesc v).S) : (variantDesc v).specialCells.getD j 0 < (variantDesc v).N :=
  ((mem_specialCells_iff _).1 (getD_mem (by rwa [length_specialCells]))).1

theorem getD_dataBits (T : Bits) (hj : j < (variantDesc v).D) :
    (dataBits (variantDesc v) T).getD j false = T.getD ((variantDesc v).dataCells.getD j 0) false :=
  getD_gather T (by rwa [length_dataCells])

theorem getD_specialBits (T : Bits) (hj : j < (variantDesc v).S) :
    (specialBits (variantDesc v) T).getD j false = T.getD ((variantDesc v).specialCells.getD j 0) false :=
  getD_gather T (by rwa [length_specialCells])

/-- What PC.DID writes from an on-air block (rule R111). -/
def didOutput (V : VariantDesc) (wantSpecial : Bool) (y : Bits) : Bits :=
  dataBits V (deinterleave V y) ++ if wantSpecial then specialBits V (deinterleave V y) else []

theorem length_didOutput (wantSpecial : Bool) : (didOutput (variantDesc v) wantSpecial y).length =
    (variantDesc v).D + if wantSpecial then (variantDesc v).S else 0 := by
  cases wantSpecial <;> simp [didOutput, length_dataCells, length_specialCells]

theorem getD_didOutput_data (wantSpecial : Bool) (hj : j < (variantDesc v).D) :
    (didOutput (variantDesc v) wantSpecial y).getD j false =
      y.getD ((variantDesc v).il ((variantDesc v).dataCells.getD j 0)) false := by
  rw [didOutput, List.getD_append _ _ _ _ (by rwa [length_dataBits, length_dataCells]), getD_dataBits v _ hj,
    getD_deinterleave (dataCells_getD_lt v hj)]

theorem getD_didOutput_special (hj : j < (variantDesc v).S) :
    (didOutput (variantDesc v) true y).getD ((variantDesc v).D + j) false =
      y.getD ((variantDesc v).il ((variantDesc v).specialCells.getD j 0)) false := by
  have hlen : (dataBits (variantDesc v) (deinterleave (variantDesc v) y)).length = (variantDesc v).D :=
    (length_dataBits ..).trans (length_dataCells v)
  rw [didOutput, if_pos rfl, List.getD_append_right _ _ _ _ (by omega), hlen, Nat.add_sub_cancel_left,
    getD_specialBits v _ hj, getD_deinterleave (specialCells_getD_lt v hj)]

end

/-- Settles O27: the output is the data and special cells of the input, or of its repair, read through IL. -/
theorem pcDidExtractsDataAndSpecialBits : Obligations.PcDidExtractsDataAndSpecialBits := by
  intro v wantRepair wantSpecial s V i a hi
  refine ⟨encodedAs_of_encode hi (by cases v <;> cases wantRepair <;> cases wantSpecial <;> rfl), lengthGuard_fails,
    fun h => ?_⟩
  have hinput : s.input.length = V.N := s.length_input.trans h
  let b : Repair := if wantRepair then a else { ok := true, bits := s.input, flips := 0 }
  have hlen : (didOutput V wantSpecial b.bits).length = V.D + if wantSpecial then V.S else 0 :=
    length_didOutput v b.bits wantSpecial
  have hle : V.D + V.S ≤ 196 := (variantDesc_le v).2
  obtain ⟨t, ht, hout⟩ := complete_setOutput b.ok (didOutput V wantSpecial b.bits) (BitVec.ofNat 32 b.flips) s
    (by rw [hlen]; split <;> omega)
  have hdata : ∀ j < V.D, t.obufBit j = b.bits.getD (V.il (V.dataCells.getD j 0)) false := fun j hj => by
    rw [hout.obufBit (by rw [hlen]; omega), getD_didOutput_data v b.bits wantSpecial hj]
  have hspecial : wantSpecial = true →
      ∀ j < V.S, t.obufBit (V.D + j) = b.bits.getD (V.il (V.specialCells.getD j 0)) false := by
    rintro rfl j hj
    rw [hout.obufBit (by rw [hlen]; simpa), getD_didOutput_special v b.bits hj]
  refine ⟨t, (if_neg (not_not.2 h)).trans ht, hout.olen.trans hlen, hout.frame, ?_, ?_⟩
  · rintro rfl
    refine ⟨hout.status, hout.result, fun j hj => ?_, fun hsp j hj => ?_⟩
    · rw [hdata j hj]
      exact s.getD_input _ (h ▸ il_lt v _ (dataCells_getD_lt v hj))
    · rw [hspecial hsp j hj]
      exact s.getD_input _ (h ▸ il_lt v _ (specialCells_getD_lt v hj))
  · rintro rfl
    exact ⟨hout.status, by rw [hout.result]; exact toNat_ofNat_flips v hinput, hdata, hspecial⟩

/-! ### PC.ENC (rules R103, R113) -/

section
variable {v : Variant} {s : State} {j : Nat} {d sp y : Bits}

theorem inputTooLong_of_encodeLength (h : EncodeLength (variantDesc v) s.inputLength) : s.inputTooLong = false := by
  have hle := variantDesc_le v
  have hbits : s.inputLength ≤ Config.ibufBits := by
    simp only [Config.ibufBits]
    rcases h with h | ⟨-, h⟩ | h <;> omega
  exact decide_eq_false (not_lt.2 hbits)

theorem execPcEnc_of_not_encodeLength (h : ¬ EncodeLength (variantDesc v) s.inputLength) :
    execPcEnc v s = .next (errored 2 s) := by
  have hnone : encodeProduct (variantDesc v) s.input = none := by
    rw [← State.length_input, ← encodeFields_isSome_iff, Option.not_isSome_iff_eq_none] at h
    rw [encodeProduct, h, Option.map_none]
  rw [execPcEnc, hnone, ite_self]
  exact raiseError_eq .length s

theorem exists_encodeProduct (h : EncodeLength (variantDesc v) s.inputLength) :
    ∃ y, encodeProduct (variantDesc v) s.input = some y ∧
      execPcEnc v s = complete true ((s.setOutput y).setResult 0) := by
  have hsome := h
  rw [← State.length_input, ← encodeFields_isSome_iff, Option.isSome_iff_exists] at hsome
  obtain ⟨f, hf⟩ := hsome
  have hy : encodeProduct (variantDesc v) s.input = some _ := congrArg (Option.map _) hf
  exact ⟨_, hy, by rw [execPcEnc, inputTooLong_of_encodeLength h, hy]; rfl⟩

theorem lengths_ordered (v : Variant) :
    (variantDesc v).D < (variantDesc v).N ∧ (variantDesc v).D + (variantDesc v).S < (variantDesc v).N := by
  cases v <;> decide

/-- The data field of each input form, bit by bit. -/
theorem getD_dataField (h : encodeFields (variantDesc v) s.input = some (d, sp)) (hj : j < (variantDesc v).D) :
    d.getD j false = if s.inputLength = (variantDesc v).N then s.ibufBit ((variantDesc v).dataCells.getD j 0)
      else s.ibufBit j := by
  have hord := lengths_ordered v
  rcases encodeFields_cases h with ⟨hx, rfl, -⟩ | ⟨hx, -, rfl, -⟩ | ⟨hx, rfl, -⟩ <;> rw [State.length_input] at hx
  · rw [if_neg (by omega), s.getD_input j (by omega)]
  · rw [if_neg (by omega), ← s.getD_input j (by omega)]
    simp [List.getD_eq_getElem?_getD, hj]
  · rw [if_pos hx, getD_dataBits v _ hj, s.getD_input _ (hx ▸ dataCells_getD_lt v hj)]

/-- The special field of each input form, bit by bit. -/
theorem getD_specialField (h : encodeFields (variantDesc v) s.input = some (d, sp)) (hj : j < (variantDesc v).S) :
    sp.getD j false = if s.inputLength = (variantDesc v).D then ((variantDesc v).specialValue s.input).getD j false
      else if s.inputLength = (variantDesc v).N then s.ibufBit ((variantDesc v).specialCells.getD j 0)
      else s.ibufBit ((variantDesc v).D + j) := by
  have hord := lengths_ordered v
  rcases encodeFields_cases h with ⟨hx, -, rfl⟩ | ⟨hx, hS, -, rfl⟩ | ⟨hx, -, rfl⟩ <;> rw [State.length_input] at hx
  · rw [if_pos hx]
  · rw [if_neg (by omega), if_neg (by omega), ← s.getD_input _ (by omega)]
    simp [List.getD_eq_getElem?_getD]
  · rw [if_neg (by omega), if_pos hx, getD_specialBits v _ hj, s.getD_input _ (hx ▸ specialCells_getD_lt v hj)]

end

section
variable {v : Variant} {T T' : Nat → Bool}

theorem synSum_congr {D : CodeDesc} {w w' : Nat → Bool} (h : ∀ i < D.n, w i = w' i) (j : Nat) :
    synSum D w j = synSum D w' j := by
  unfold synSum
  congr 1
  exact Finset.sum_congr rfl fun i hi => by rw [h i (Finset.mem_range.1 hi)]

theorem RowOk.congr (h : ∀ L < (variantDesc v).N, T L = T' L) {r : Nat} (hr : r < (variantDesc v).R)
    (hT : RowOk (variantDesc v) T r) : RowOk (variantDesc v) T' r := by
  intro j hj
  rw [← hT j hj]
  exact (synSum_congr (fun c hc => h _ (lof_lt v hr (rowCode_n v ▸ hc))) j).symm

theorem ColumnOk.congr (h : ∀ L < (variantDesc v).N, T L = T' L) {c : Nat} (hc : c < (variantDesc v).C)
    (hT : ColumnOk (variantDesc v) T c) : ColumnOk (variantDesc v) T' c := by
  cases hcol : (variantDesc v).colCode with
  | bmc code =>
    simp only [ColumnOk, hcol] at hT ⊢
    intro j hj
    rw [← hT j hj]
    exact (synSum_congr (fun r hr => h _ (lof_lt v (colCode_n hcol ▸ hr) hc)) j).symm
  | evenParity =>
    simp only [ColumnOk, hcol] at hT ⊢
    rw [← hT]
    congr 1
    exact Finset.sum_congr rfl fun r hr => by rw [h _ (lof_lt v (Finset.mem_range.1 hr) hc)]

end

/-- Settles O30: the output, read through IL, is the table that encode makes of the fields of the input. -/
theorem pcEncWritesTheProductCodeword : Obligations.PcEncWritesTheProductCodeword := by
  intro v s V len
  refine ⟨encodedAs_of_encode rfl (by cases v <;> rfl), execPcEnc_of_not_encodeLength, fun h => ?_⟩
  obtain ⟨y, hy, hexec⟩ := exists_encodeProduct h
  obtain ⟨d, sp, hfields, htable⟩ := encodedTable_of_encodeProduct hy
  have hlen : y.length = V.N := length_encodeProduct hy
  have hN : V.N ≤ 196 := (variantDesc_le v).1
  obtain ⟨t, ht, hout⟩ := complete_setOutput true y 0 s (by omega)
  have hbit : ∀ L < V.N, (deinterleave V y).getD L false = t.obufBit (V.il L) := fun L hL => by
    rw [getD_deinterleave hL, hout.obufBit (hlen ▸ il_lt v L hL)]
  refine ⟨t, hexec.trans ht, hout.status, hout.olen.trans hlen, hout.result, hout.frame, fun j hj => ?_, fun j hj => ?_,
    fun L hL hcls => ?_, fun r hr => ?_, fun c hc => ?_⟩
  · rw [← hbit _ (dataCells_getD_lt v hj), ← getD_dataBits v _ hj, htable.data]
    exact getD_dataField hfields hj
  · rw [← hbit _ (specialCells_getD_lt v hj), ← getD_specialBits v _ hj, htable.special]
    exact getD_specialField hfields hj
  · rw [← hbit L hL, htable.reserved L hcls]
  · have hrR : r < V.R := (List.mem_range.1 (rows_eq_range v ▸ hr)).trans (infoRows_lt v)
    exact ((rowCheck_iff v).1 (htable.codeword.rows r hr)).congr hbit hrR
  · exact ((columnCheck_iff v).1 (htable.codeword.columns c hc)).congr hbit hc

end Sys2Proof.Machine
end

section
/-! PROOFS. The stages of Trellis34 (rules R116 to R126): each pair of stages is inverse, the on-air points are read bit
by bit, and the two state machines invert each other; from them the two laws of rule R131. -/

namespace Sys2Proof.Machine

/-! ### Stages that read pairs (rules R116, R117, R121) -/

/-- g makes `h a b` of every two neighbours a, b: the shape of `bitsToDibits` and of `dibitsToPoints`. -/
structure ReadsPairs {α β : Type} (g : List α → List β) (h : α → α → β) : Prop where
  nil : g [] = []
  cons : ∀ a b rest, g (a :: b :: rest) = h a b :: g rest

theorem bitsToDibits_readsPairs : ReadsPairs bitsToDibits dibitOf := ⟨rfl, fun _ _ _ => rfl⟩

theorem dibitsToPoints_readsPairs : ReadsPairs dibitsToPoints pointOf := ⟨rfl, fun _ _ _ => rfl⟩

namespace ReadsPairs

variable {α β : Type} {g : List α → List β} {h : α → α → β} {e : β → List α}

theorem eq_map_range (hg : ReadsPairs g h) (d : α) : ∀ {n : Nat} {xs : List α}, xs.length = 2 * n →
    g xs = (List.range n).map fun i => h (xs.getD (2 * i) d) (xs.getD (2 * i + 1) d)
  | 0, [], _ => hg.nil
  | n + 1, a :: b :: xs, hlen => by
    rw [hg.cons, hg.eq_map_range d (n := n) (by simpa [Nat.mul_add] using hlen), List.range_succ_eq_map,
      List.map_cons, List.map_map]
    rfl

theorem flatMap_apply (hg : ReadsPairs g h) (he : ∀ a b, e (h a b) = [a, b]) : ∀ {n : Nat} {xs : List α},
    xs.length = 2 * n → (g xs).flatMap e = xs
  | 0, [], _ => by rw [hg.nil, List.flatMap_nil]
  | n + 1, a :: b :: xs, hlen => by
    rw [hg.cons, List.flatMap_cons, he, hg.flatMap_apply he (n := n) (by simpa [Nat.mul_add] using hlen)]
    rfl

theorem apply_flatMap (hg : ReadsPairs g h) : ∀ {ys : List β}, (∀ y ∈ ys, ∃ a b, e y = [a, b] ∧ h a b = y) →
    g (ys.flatMap e) = ys
  | [], _ => hg.nil
  | y :: ys, hys => by
    obtain ⟨⟨a, b, hy, hab⟩, hrest⟩ := List.forall_mem_cons.1 hys
    rw [List.flatMap_cons, hy, List.cons_append, List.singleton_append, hg.cons, hab, hg.apply_flatMap hrest]

end ReadsPairs

theorem dibitBits_dibitOf (a b : Bool) : dibitBits (dibitOf a b) = [a, b] := by cases a <;> cases b <;> rfl

theorem dibitOf_dibitBits (d : Dibit) : ∃ a b, dibitBits d = [a, b] ∧ dibitOf a b = d := by
  cases d <;> exact ⟨_, _, rfl, rfl⟩

theorem pointDibits_pointOf (a b : Dibit) : pointDibits (pointOf a b) = [a, b] := by
  rw [pointDibits, List.getD_eq_getElem?_getD, cpt_pointOf]
  rfl

theorem pointOf_cpt : ∀ p < 16, pointOf (cpt.getD p default).1 (cpt.getD p default).2 = p := by decide

/-- The point of a dibit pair is the one CPT maps to it (rules R120, R121). -/
theorem cpt_eq_some_iff {p : Nat} {a b : Dibit} : cpt[p]? = some (a, b) ↔ p = pointOf a b := by
  constructor
  · intro h
    obtain ⟨hp, hab⟩ := List.getElem?_eq_some_iff.1 h
    rw [pointOf, ← hab, cpt_nodup.1.idxOf_getElem]
  · rintro rfl
    exact cpt_pointOf a b

/-! ### The dibit interleave (rules R118, R119) -/

theorem mem_til : ∀ p < 98, p ∈ til := by decide +kernel

theorem idxOf_til_lt {p : Nat} (hp : p < 98) : til.idxOf p < 98 := by
  rw [← til_perm.2.1]
  exact List.idxOf_lt_length_of_mem (mem_til p hp)

theorem getD_til_idxOf {p : Nat} (hp : p < 98) : til.getD (til.idxOf p) 0 = p := by
  rw [List.getD_eq_getElem _ _ (List.idxOf_lt_length_of_mem (mem_til p hp)), List.getElem_idxOf]

section
variable {ds : List Dibit}

theorem length_deinterleaveDibits : (deinterleaveDibits ds).length = 98 := by
  rw [deinterleaveDibits, length_scatter, List.length_replicate]

theorem length_interleaveDibits : (interleaveDibits ds).length = 98 := by
  rw [interleaveDibits, length_gather, til_perm.2.1]

/-- Logical dibit p is the on-air dibit that TIL sends there. -/
theorem getD_deinterleaveDibits (hds : ds.length = 98) {p : Nat} (hp : p < 98) :
    (deinterleaveDibits ds).getD p default = ds.getD (til.idxOf p) default := by
  obtain ⟨hnodup, hlen, hlt⟩ := til_perm
  have hscatter := getElem?_scatter_of_nodup til (List.replicate 98 default) ds hnodup (hlen.trans hds.symm)
    (by simpa using hlt) (til.idxOf p) (List.idxOf_lt_length_of_mem (mem_til p hp))
  rw [List.getElem_idxOf] at hscatter
  rw [List.getD_eq_getElem?_getD, deinterleaveDibits, hscatter, List.getD_eq_getElem?_getD]

theorem interleaveDibits_deinterleaveDibits (hds : ds.length = 98) :
    interleaveDibits (deinterleaveDibits ds) = ds :=
  gather_scatter _ til ds til_perm.1 (til_perm.2.1.trans hds.symm) (by simpa using til_perm.2.2)

theorem deinterleaveDibits_interleaveDibits (hds : ds.length = 98) :
    deinterleaveDibits (interleaveDibits ds) = ds := by
  refine List.ext_getElem (length_deinterleaveDibits.trans hds.symm) fun p h1 h2 => ?_
  have hp : p < 98 := hds ▸ h2
  have hidx : til.idxOf p < til.length := til_perm.2.1 ▸ idxOf_til_lt hp
  rw [← List.getD_eq_getElem _ default h1, getD_deinterleaveDibits length_interleaveDibits hp,
    ← List.getD_eq_getElem _ default h2, interleaveDibits, List.getD_eq_getElem _ _ (by simpa using hidx),
    getElem_gather, List.getElem_idxOf]

end

/-! ### On-air bits and constellation points (rules R116 to R121) -/

/-- The points of an on-air block: the first stages of decode (rule R127). -/
def pointsOfAir (b : Bits) : List Nat := dibitsToPoints (deinterleaveDibits (bitsToDibits b))

/-- The on-air block of points: the last stages of encode (rule R128). -/
def airOfPoints (ps : List Nat) : Bits := dibitsToBits (interleaveDibits (pointsToDibits ps))

/-- Point j of an on-air bit sequence. -/
def pointAt (y : Nat → Bool) (j : Nat) : Nat := pointOf (logicalDibit y (2 * j)) (logicalDibit y (2 * j + 1))

theorem logicalDibit_congr {y y' : Nat → Bool} (h : ∀ k < 196, y k = y' k) {p : Nat} (hp : p < 98) :
    logicalDibit y p = logicalDibit y' p := by
  have hidx := idxOf_til_lt hp
  rw [logicalDibit, logicalDibit, h _ (by omega), h _ (by omega)]

theorem pointAt_congr {y y' : Nat → Bool} (h : ∀ k < 196, y k = y' k) {j : Nat} (hj : j < 49) :
    pointAt y j = pointAt y' j := by
  rw [pointAt, pointAt, logicalDibit_congr h (by omega), logicalDibit_congr h (by omega)]

section
variable {b : Bits} {ps : List Nat}

theorem length_bitsToDibits (hb : b.length = 196) : (bitsToDibits b).length = 98 := by
  rw [bitsToDibits_readsPairs.eq_map_range false (n := 98) hb, List.length_map, List.length_range]

theorem getD_deinterleaveDibits_bitsToDibits (hb : b.length = 196) {p : Nat} (hp : p < 98) :
    (deinterleaveDibits (bitsToDibits b)).getD p default = logicalDibit (fun k => b.getD k false) p := by
  have hidx := idxOf_til_lt hp
  rw [getD_deinterleaveDibits (length_bitsToDibits hb) hp, bitsToDibits_readsPairs.eq_map_range false (n := 98) hb,
    List.getD_eq_getElem _ _ (by simpa using hidx), List.getElem_map, List.getElem_range, logicalDibit]

theorem pointsOfAir_eq_map (hb : b.length = 196) :
    pointsOfAir b = (List.range 49).map (pointAt fun k => b.getD k false) := by
  rw [pointsOfAir, dibitsToPoints_readsPairs.eq_map_range default (n := 49) length_deinterleaveDibits]
  refine List.map_congr_left fun j hj => ?_
  rw [List.mem_range] at hj
  rw [getD_deinterleaveDibits_bitsToDibits hb (by omega), getD_deinterleaveDibits_bitsToDibits hb (by omega), pointAt]

theorem length_pointsToDibits (ps : List Nat) : (pointsToDibits ps).length = 2 * ps.length := by
  simp [pointsToDibits, pointDibits, Nat.mul_comm]

theorem pointsOfAir_airOfPoints (hlen : ps.length = 49) (hps : ∀ p ∈ ps, p < 16) :
    pointsOfAir (airOfPoints ps) = ps := by
  have hdibits : bitsToDibits (airOfPoints ps) = interleaveDibits (pointsToDibits ps) :=
    bitsToDibits_readsPairs.apply_flatMap fun d _ => dibitOf_dibitBits d
  rw [pointsOfAir, hdibits, deinterleaveDibits_interleaveDibits (by rw [length_pointsToDibits, hlen])]
  exact dibitsToPoints_readsPairs.apply_flatMap fun p hp => ⟨_, _, rfl, pointOf_cpt p (hps p hp)⟩

theorem airOfPoints_pointsOfAir (hb : b.length = 196) : airOfPoints (pointsOfAir b) = b := by
  have hdibits : pointsToDibits (pointsOfAir b) = deinterleaveDibits (bitsToDibits b) :=
    dibitsToPoints_readsPairs.flatMap_apply pointDibits_pointOf (n := 49) length_deinterleaveDibits
  rw [airOfPoints, hdibits, interleaveDibits_deinterleaveDibits (length_bitsToDibits hb)]
  exact bitsToDibits_readsPairs.flatMap_apply dibitBits_dibitOf (n := 98) hb

end

/-! ### The state machines (rules R123, R124) -/

theorem tribitOf_eq_some_iff {s p t : Nat} (hs : s < 8) : tribitOf s p = some t ↔ t < 8 ∧ transition s t = p := by
  refine ⟨tribitOf_some, ?_⟩
  rintro ⟨ht, rfl⟩
  exact tribitOf_transition s hs t ht

theorem length_tribitsToPoints (ts : List Nat) : ∀ s, (tribitsToPoints s ts).length = ts.length := by
  induction ts with
  | nil => exact fun _ => rfl
  | cons t ts ih => exact fun s => congrArg (· + 1) (ih t)

theorem tribitsToPoints_lt {ts : List Nat} : ∀ {s : Nat}, s < 8 → (∀ t ∈ ts, t < 8) →
    ∀ p ∈ tribitsToPoints s ts, p < 16 := by
  induction ts with
  | nil => exact fun _ _ p hp => absurd hp List.not_mem_nil
  | cons t ts ih =>
    intro s hs hts
    obtain ⟨ht, hts⟩ := List.forall_mem_cons.1 hts
    exact List.forall_mem_cons.2 ⟨transition_lt s hs t ht, ih ht hts⟩

theorem pointsToTribits_cons_eq_ok_iff {s j p : Nat} {ps us : List Nat} :
    pointsToTribits s j (p :: ps) = .ok us ↔
      ∃ t ts, tribitOf s p = some t ∧ pointsToTribits t (j + 1) ps = .ok ts ∧ t :: ts = us := by
  rw [pointsToTribits]
  cases tribitOf s p with
  | none => simp
  | some t => cases hrest : pointsToTribits t (j + 1) ps <;> simp [hrest]

/-- The state machine of decode accepts exactly the points that the forward machine makes of its answer. -/
theorem pointsToTribits_eq_ok_iff {ps : List Nat} : ∀ {s j : Nat} {ts : List Nat}, s < 8 →
    (pointsToTribits s j ps = .ok ts ↔ (∀ t ∈ ts, t < 8) ∧ tribitsToPoints s ts = ps) := by
  induction ps with
  | nil =>
    intro s j ts _
    cases ts <;> simp [pointsToTribits, tribitsToPoints]
  | cons p ps ih =>
    intro s j us hs
    rw [pointsToTribits_cons_eq_ok_iff]
    constructor
    · rintro ⟨t, ts, ht, hrest, rfl⟩
      obtain ⟨hlt, rfl⟩ := tribitOf_some ht
      obtain ⟨hts, rfl⟩ := (ih hlt).1 hrest
      exact ⟨List.forall_mem_cons.2 ⟨hlt, hts⟩, rfl⟩
    · rintro ⟨hus, hpoints⟩
      cases us with
      | nil => cases hpoints
      | cons t ts =>
        obtain ⟨ht, hts⟩ := List.forall_mem_cons.1 hus
        obtain ⟨rfl, rfl⟩ := List.cons.inj hpoints
        exact ⟨t, ts, tribitOf_transition s hs t ht, (ih ht).2 ⟨hts, rfl⟩, rfl⟩

/-- Points explained by ts and then one that no tribit explains are a miss there. -/
theorem pointsToTribits_of_miss {ts : List Nat} {p : Nat} {rest : List Nat} : ∀ {s j : Nat}, s < 8 →
    (∀ t ∈ ts, t < 8) → tribitOf (ts.getLastD s) p = none →
    pointsToTribits s j (tribitsToPoints s ts ++ p :: rest) = .error (j + ts.length) := by
  induction ts with
  | nil =>
    intro s j _ _ hp
    have hp : tribitOf s p = none := hp
    simp [tribitsToPoints, pointsToTribits, hp]
  | cons t ts ih =>
    intro s j hs hts hp
    obtain ⟨ht, hts⟩ := List.forall_mem_cons.1 hts
    rw [List.getLastD_cons] at hp
    simp only [tribitsToPoints, List.cons_append, pointsToTribits, tribitOf_transition s hs t ht, ih ht hts hp,
      List.length_cons]
    congr 1
    omega

theorem tribitsToPoints_append (ts : List Nat) (t : Nat) : ∀ s,
    tribitsToPoints s (ts ++ [t]) = tribitsToPoints s ts ++ [transition (ts.getLastD s) t] := by
  induction ts with
  | nil => exact fun _ => rfl
  | cons t' ts ih =>
    intro s
    rw [List.getLastD_cons, List.cons_append, tribitsToPoints, ih, tribitsToPoints, List.cons_append]

theorem getLastD_map_range (τ : Nat → Nat) (j : Nat) : ((List.range j).map τ).getLastD 0 = trellisState τ j := by
  cases j with
  | zero => rfl
  | succ j => simp [List.range_succ, trellisState]

/-- Point i is the transition of tribit i in the state before it. -/
theorem tribitsToPoints_map_range (τ : Nat → Nat) (n : Nat) : tribitsToPoints 0 ((List.range n).map τ) =
    (List.range n).map fun i => transition (trellisState τ i) (τ i) := by
  induction n with
  | zero => rfl
  | succ n ih => simp only [List.range_succ, List.map_append, List.map_singleton, tribitsToPoints_append, ih,
      getLastD_map_range]

/-! ### Tribits and bits (rules R125, R126) -/

theorem take_drop_tribitsToBits {ts : List Nat} : ∀ {j : Nat} (hj : j < ts.length),
    ((tribitsToBits ts).drop (3 * j)).take 3 = bitsOf 3 ts[j] := by
  induction ts with
  | nil => exact fun hj => absurd hj (Nat.not_lt_zero _)
  | cons t ts ih =>
    intro j hj
    have hcons : tribitsToBits (t :: ts) = bitsOf 3 t ++ tribitsToBits ts := rfl
    cases j with
    | zero => rw [hcons]; exact List.take_left' (length_bitsOf 3 t)
    | succ j =>
      rw [hcons, Nat.mul_succ, Nat.add_comm, ← List.drop_drop, List.drop_left' (length_bitsOf 3 t)]
      exact ih (Nat.lt_of_succ_lt_succ hj)

/-- Bit b of tribit j, the most significant first. -/
theorem getD_tribitsToBits {ts : List Nat} {j b : Nat} (hj : j < ts.length) (hb : b < 3) :
    (tribitsToBits ts).getD (3 * j + b) false = ts[j].testBit (2 - b) := by
  have hslice := congrArg (fun l => l.getD b false) (take_drop_tribitsToBits hj)
  have hbit : (bitsOf 3 ts[j]).getD b false = ts[j].testBit (2 - b) := by
    rw [List.getD_eq_getElem _ _ (by simpa using hb), getElem_bitsOf]
  rw [← hbit, ← hslice]
  simp [List.getD_eq_getElem?_getD, hb]

theorem flatMap_slices (x : Bits) (n : Nat) :
    ((List.range n).flatMap fun j => (x.drop (3 * j)).take 3) = x.take (3 * n) := by
  induction n with
  | zero => rfl
  | succ n ih => rw [List.range_succ, List.flatMap_append, ih, List.flatMap_singleton, Nat.mul_succ, List.take_add]

theorem length_bitsToTribits (x : Bits) : (bitsToTribits x).length = 49 := by simp [bitsToTribits]

theorem bitsToTribits_lt (x : Bits) : ∀ t ∈ bitsToTribits x, t < 8 := by
  intro t ht
  simp only [bitsToTribits, List.mem_append, List.mem_map, List.mem_singleton] at ht
  rcases ht with ⟨j, -, rfl⟩ | rfl
  · exact (intOf_lt _).trans_le (Nat.pow_le_pow_right (by decide) (List.length_take_le ..))
  · decide

theorem tribitsToBits_bitsToTribits {x : Bits} (hx : x.length = 144) :
    tribitsToBits ((bitsToTribits x).take 48) = x := by
  have htake : (bitsToTribits x).take 48 = (List.range 48).map fun j => intOf ((x.drop (3 * j)).take 3) :=
    List.take_left' (by simp)
  have hslice : ∀ j ∈ List.range 48, bitsOf 3 (intOf ((x.drop (3 * j)).take 3)) = (x.drop (3 * j)).take 3 := by
    intro j hj
    rw [List.mem_range] at hj
    have hlen : ((x.drop (3 * j)).take 3).length = 3 := by simp; omega
    simpa only [hlen] using bitsOf_intOf ((x.drop (3 * j)).take 3)
  calc tribitsToBits ((bitsToTribits x).take 48)
      = (List.range 48).flatMap fun j => bitsOf 3 (intOf ((x.drop (3 * j)).take 3)) := by
        rw [htake, tribitsToBits, List.flatMap_map]
    _ = (List.range 48).flatMap fun j => (x.drop (3 * j)).take 3 := List.flatMap_congr hslice
    _ = x := by rw [flatMap_slices, List.take_of_length_le hx.le]

theorem bitsToTribits_tribitsToBits {ts : List Nat} (hlen : ts.length = 48) (hts : ∀ t ∈ ts, t < 8) :
    bitsToTribits (tribitsToBits ts) = ts ++ [0] := by
  rw [bitsToTribits]
  congr 1
  refine List.ext_getElem (by simpa using hlen.symm) fun j _ hj => ?_
  rw [List.getElem_map, List.getElem_range, take_drop_tribitsToBits hj, intOf_bitsOf (hts _ (List.getElem_mem hj))]

/-! ### decode and encode (rules R127, R128, R131) -/

section
variable {b x y : Bits} {ts : List Nat} {j : Nat}

theorem trellisDecode_of_ok (h : pointsToTribits 0 0 (pointsOfAir b) = .ok ts) :
    trellisDecode b = .ok (tribitsToBits (ts.take 48)) := by
  rw [pointsOfAir] at h
  rw [trellisDecode, h]

theorem trellisDecode_of_error (h : pointsToTribits 0 0 (pointsOfAir b) = .error j) : trellisDecode b = .error j := by
  rw [pointsOfAir] at h
  rw [trellisDecode, h]

theorem pointsOfAir_trellisEncode (x : Bits) :
    pointsOfAir (trellisEncode x) = tribitsToPoints 0 (bitsToTribits x) :=
  pointsOfAir_airOfPoints (by rw [length_tribitsToPoints, length_bitsToTribits])
    (tribitsToPoints_lt (by decide) (bitsToTribits_lt x))

theorem pointsToTribits_trellisEncode (x : Bits) :
    pointsToTribits 0 0 (pointsOfAir (trellisEncode x)) = .ok (bitsToTribits x) :=
  (pointsToTribits_eq_ok_iff (by decide)).2 ⟨bitsToTribits_lt x, (pointsOfAir_trellisEncode x).symm⟩

/-- A block is the encoding of x exactly when its tribits are those of x. -/
theorem trellisEncode_eq_iff (hy : y.length = 196) (h : pointsToTribits 0 0 (pointsOfAir y) = .ok ts) :
    trellisEncode x = y ↔ bitsToTribits x = ts := by
  constructor
  · rintro rfl
    exact Except.ok.inj ((pointsToTribits_trellisEncode x).symm.trans h)
  · rintro rfl
    obtain ⟨-, hpoints⟩ := (pointsToTribits_eq_ok_iff (by decide)).1 h
    exact (congrArg airOfPoints hpoints).trans (airOfPoints_pointsOfAir hy)

end

/-- Settles O38: every stage of decode undoes its stage of encode. -/
theorem trellisDecodeInvertsEncode : Obligations.TrellisDecodeInvertsEncode := by
  intro x hx
  rw [trellisDecode_of_ok (pointsToTribits_trellisEncode x), tribitsToBits_bitsToTribits hx]

/-- Settles O39: the tribits of the re-encoding are the first 48 of the block and a 0. -/
theorem trellisReencodesExactlyZero49thTribit : Obligations.TrellisReencodesExactlyZero49thTribit := by
  intro y x ts hy hdecode hts
  obtain ⟨hlt, hpoints⟩ := (pointsToTribits_eq_ok_iff (by decide)).1 hts
  have hlen : ts.length = 49 := by
    rw [← length_tribitsToPoints ts 0, hpoints]
    change (pointsOfAir y).length = 49
    rw [pointsOfAir_eq_map hy, List.length_map, List.length_range]
  have hx : x = tribitsToBits (ts.take 48) := Except.ok.inj (hdecode.symm.trans (trellisDecode_of_ok hts))
  have htribits : bitsToTribits x = ts.take 48 ++ [0] := by
    rw [hx, bitsToTribits_tribitsToBits (by simp [hlen]) fun t ht => hlt t (List.mem_of_mem_take ht)]
  have hsplit : ts.take 48 ++ [ts[48]] = ts := by
    rw [List.take_append_getElem, List.take_of_length_le hlen.le]
  calc trellisEncode x = y
      ↔ ts.take 48 ++ [0] = ts := by rw [trellisEncode_eq_iff hy hts, htribits]
    _ ↔ ts.take 48 ++ [0] = ts.take 48 ++ [ts[48]] := by rw [hsplit]
    _ ↔ 0 = ts[48] := by rw [List.append_right_inj, List.singleton_inj]
    _ ↔ ts[48]? = some 0 := by rw [List.getElem?_eq_getElem (by omega), Option.some_inj, eq_comm]

end Sys2Proof.Machine
end

section
/-! PROOFS. The two TR commands (rules R129, R130) in the relation `Explains` between tribits and on-air points. -/

namespace Sys2Proof.Machine

/-! ### The tribits that explain points (rules R120 to R124) -/

section
variable {y : Nat → Bool} {τ : Nat → Nat} {st t j n : Nat}

theorem explains_iff : Explains y st t j ↔ t < 8 ∧ transition st t = pointAt y j := by
  rw [Explains, cpt_eq_some_iff, pointAt]

/-- What explains a point is what the state machine of decode finds for it. -/
theorem explains_iff_tribitOf (hst : st < 8) : Explains y st t j ↔ tribitOf st (pointAt y j) = some t := by
  rw [explains_iff, tribitOf_eq_some_iff hst]

theorem ExplainsUpTo.lt (h : ExplainsUpTo y τ n) (hj : j < n) : τ j < 8 := (h j hj).1

theorem ExplainsUpTo.mem_map_range_lt (h : ExplainsUpTo y τ n) : ∀ t ∈ (List.range n).map τ, t < 8 := by
  intro t ht
  obtain ⟨j, hj, rfl⟩ := List.mem_map.1 ht
  exact h.lt (List.mem_range.1 hj)

theorem ExplainsUpTo.trellisState_lt (h : ExplainsUpTo y τ n) : trellisState τ n < 8 := by
  cases n with
  | zero => exact Nat.zero_lt_succ 7
  | succ n => exact h.lt n.lt_succ_self

theorem ExplainsUpTo.tribitsToPoints_eq (h : ExplainsUpTo y τ n) :
    tribitsToPoints 0 ((List.range n).map τ) = (List.range n).map (pointAt y) := by
  rw [tribitsToPoints_map_range]
  exact List.map_congr_left fun i hi => (explains_iff.1 (h i (List.mem_range.1 hi))).2

/-- A tribit that explains the next point extends the tribits before it. -/
theorem ExplainsUpTo.extend (h : ExplainsUpTo y τ n) (ht : Explains y (trellisState τ n) t n) :
    ExplainsUpTo y (Function.update τ n t) (n + 1) := by
  have hstate : ∀ i ≤ n, trellisState (Function.update τ n t) i = trellisState τ i := by
    intro i hi
    cases i with
    | zero => rfl
    | succ i => exact Function.update_of_ne (by omega) ..
  intro i hi
  rw [hstate i (by omega)]
  rcases Nat.lt_succ_iff_lt_or_eq.1 hi with hlt | rfl
  · rw [Function.update_of_ne hlt.ne]
    exact h i hlt
  · rwa [Function.update_self]

/-- Either tribits explain the first n points or there is a first point that none explains. -/
theorem explainsUpTo_or_miss (y : Nat → Bool) (n : Nat) : (∃ τ, ExplainsUpTo y τ n) ∨
    ∃ τ, ∃ j < n, ExplainsUpTo y τ j ∧ ∀ o, ¬ Explains y (trellisState τ j) o j := by
  induction n with
  | zero => exact .inl ⟨fun _ => 0, fun _ hi => absurd hi (Nat.not_lt_zero _)⟩
  | succ n ih =>
    rcases ih with ⟨τ, h⟩ | ⟨τ, j, hj, hmiss⟩
    · by_cases ht : ∃ t, Explains y (trellisState τ n) t n
      · obtain ⟨t, ht⟩ := ht
        exact .inl ⟨_, h.extend ht⟩
      · exact .inr ⟨τ, n, n.lt_succ_self, h, not_exists.1 ht⟩
    · exact .inr ⟨τ, j, hj.trans n.lt_succ_self, hmiss⟩

end

/-! ### TR.DEC (rule R129) -/

section
variable {s : State} {τ : Nat → Nat} {j : Nat}

theorem pointsOfAir_input (h : s.inputLength = 196) :
    pointsOfAir s.input = (List.range 49).map (pointAt s.ibufBit) := by
  rw [pointsOfAir_eq_map (s.length_input.trans h)]
  refine List.map_congr_left fun j hj => ?_
  exact pointAt_congr (fun k hk => s.getD_input k (h ▸ hk)) (List.mem_range.1 hj)

theorem trellisDecode_input_of_explains (h : s.inputLength = 196) (hτ : ExplainsUpTo s.ibufBit τ 49) :
    trellisDecode s.input = .ok (tribitsToBits ((List.range 48).map τ)) := by
  have hok : pointsToTribits 0 0 (pointsOfAir s.input) = .ok ((List.range 49).map τ) :=
    (pointsToTribits_eq_ok_iff (by decide)).2
      ⟨hτ.mem_map_range_lt, hτ.tribitsToPoints_eq.trans (pointsOfAir_input h).symm⟩
  rw [trellisDecode_of_ok hok, ← List.map_take, List.take_range]
  rfl

theorem trellisDecode_input_of_miss (h : s.inputLength = 196) (hj : j < 49) (hτ : ExplainsUpTo s.ibufBit τ j)
    (hmiss : ∀ o, ¬ Explains s.ibufBit (trellisState τ j) o j) : trellisDecode s.input = .error j := by
  have hnone : tribitOf (((List.range j).map τ).getLastD 0) (pointAt s.ibufBit j) = none := by
    rw [getLastD_map_range, Option.eq_none_iff_forall_ne_some]
    exact fun o ho => hmiss o ((explains_iff_tribitOf hτ.trellisState_lt).2 ho)
  have hsplit : pointsOfAir s.input = tribitsToPoints 0 ((List.range j).map τ) ++
      pointAt s.ibufBit j :: (pointsOfAir s.input).drop (j + 1) := by
    have hlen : j < (pointsOfAir s.input).length := by simpa [pointsOfAir_input h] using hj
    have hhead : (pointsOfAir s.input)[j] = pointAt s.ibufBit j := by simp [pointsOfAir_input h]
    have hbefore : (pointsOfAir s.input).take j = (List.range j).map (pointAt s.ibufBit) := by
      rw [pointsOfAir_input h, ← List.map_take, List.take_range, Nat.min_eq_left hj.le]
    rw [hτ.tribitsToPoints_eq, ← hbefore, ← hhead, ← List.drop_eq_getElem_cons hlen, List.take_append_drop]
  apply trellisDecode_of_error
  rw [hsplit, pointsToTribits_of_miss (by decide) hτ.mem_map_range_lt hnone, List.length_map, List.length_range,
    Nat.zero_add]

theorem execTrDec_of_ok {r : Bits} (h : s.inputLength = 196) (hr : trellisDecode s.input = .ok r) :
    execTrDec s = complete true ((s.setOutput r).setResult 0) := by
  rw [execTrDec, if_neg (not_not.2 h), hr]

theorem execTrDec_of_error (h : s.inputLength = 196) (hj : trellisDecode s.input = .error j) :
    execTrDec s = complete false ((s.setOlen 0).setResult (BitVec.ofNat 32 j)) := by
  rw [execTrDec, if_neg (not_not.2 h), hj]

end

/-- Settles O36: `Explains` is what the state machine of decode tests at each point. -/
theorem trDecFollowsTheStateMachine : Obligations.TrDecFollowsTheStateMachine := by
  intro s
  refine ⟨encodedAs_of_encode rfl rfl, lengthGuard_fails, fun h => ⟨fun τ hτ => ?_, fun τ j hj hτ hmiss => ?_,
    explainsUpTo_or_miss s.ibufBit 49⟩⟩
  · have hexec := execTrDec_of_ok h (trellisDecode_input_of_explains h hτ)
    have hlen : (tribitsToBits ((List.range 48).map τ)).length = 144 := by simp [length_tribitsToBits]
    obtain ⟨t, ht, hout⟩ := complete_setOutput true (tribitsToBits ((List.range 48).map τ)) 0 s (by omega)
    refine ⟨t, hexec.trans ht, hout.status, BitVec.eq_of_toNat_eq (hout.olen.trans hlen), hout.result, hout.frame,
      fun j hj b hb => ?_⟩
    rw [hout.obufBit (by omega), getD_tribitsToBits (by simpa using hj) hb, List.getElem_map, List.getElem_range]
  · have hexec := execTrDec_of_error h (trellisDecode_input_of_miss h hj hτ hmiss)
    exact ⟨_, hexec, completedStatus_eq_okWord false s.status, rfl, Nat.mod_eq_of_lt (by omega),
      keepsAllButOutput_noOutput s _ _ _⟩

/-! ### TR.ENC (rule R130) -/

/-- The j-th tribit of a 144-bit sequence, and a zero 49th (rule R126). -/
def tribitAt (x : Nat → Bool) (j : Nat) : Nat :=
  if j < 48 then 4 * (x (3 * j)).toNat + 2 * (x (3 * j + 1)).toNat + (x (3 * j + 2)).toNat else 0

section
variable {s : State}

theorem bitsToTribits_input (h : s.inputLength = 144) :
    bitsToTribits s.input = (List.range 49).map (tribitAt s.ibufBit) := by
  have htribit : ∀ j ∈ List.range 48, intOf ((s.input.drop (3 * j)).take 3) = tribitAt s.ibufBit j := by
    intro j hj
    rw [List.mem_range] at hj
    rw [take_drop_eq_map (by rw [State.length_input]; omega), intOf_map_range, Finset.sum_range_succ,
      Finset.sum_range_succ, Finset.sum_range_one, Nat.add_zero, s.getD_input _ (by omega), s.getD_input _ (by omega),
      s.getD_input _ (by omega), tribitAt, if_pos hj]
    omega
  rw [bitsToTribits, List.map_congr_left htribit, List.range_succ (n := 48), List.map_append]
  rfl

/-- The points of an encoded block are explained by the tribits of its input. -/
theorem explainsUpTo_trellisEncode_input (h : s.inputLength = 144) :
    ExplainsUpTo (fun k => (trellisEncode s.input).getD k false) (tribitAt s.ibufBit) 49 := by
  have hpoints : (List.range 49).map (pointAt fun k => (trellisEncode s.input).getD k false) =
      (List.range 49).map fun i => transition (trellisState (tribitAt s.ibufBit) i) (tribitAt s.ibufBit i) := by
    rw [← pointsOfAir_eq_map (length_trellisEncode _), pointsOfAir_trellisEncode, bitsToTribits_input h,
      tribitsToPoints_map_range]
  intro j hj
  refine explains_iff.2 ⟨?_, (List.map_inj_left.1 hpoints j (List.mem_range.2 hj)).symm⟩
  refine bitsToTribits_lt s.input _ ?_
  rw [bitsToTribits_input h]
  exact List.mem_map_of_mem (List.mem_range.2 hj)

theorem ExplainsUpTo.congr {y y' : Nat → Bool} {τ : Nat → Nat} (h : ∀ k < 196, y k = y' k)
    (hτ : ExplainsUpTo y τ 49) : ExplainsUpTo y' τ 49 := by
  intro j hj
  rw [explains_iff, ← pointAt_congr h hj, ← explains_iff]
  exact hτ j hj

end

/-- Settles O37: the points of the output are those the forward machine makes of the input's tribits. -/
theorem trEncWritesTheTribitsPoints : Obligations.TrEncWritesTheTribitsPoints := by
  intro s τ
  refine ⟨encodedAs_of_encode rfl rfl, lengthGuard_fails, fun h => ?_⟩
  have hlen : (trellisEncode s.input).length = 196 := length_trellisEncode s.input
  obtain ⟨t, ht, hout⟩ := complete_setOutput true (trellisEncode s.input) 0 s (by omega)
  refine ⟨t, (if_neg (not_not.2 h)).trans ht, hout.status, BitVec.eq_of_toNat_eq (hout.olen.trans hlen), hout.result,
    hout.frame, ?_⟩
  exact (explainsUpTo_trellisEncode_input h).congr fun k hk => (hout.obufBit (hlen ▸ hk)).symm

end Sys2Proof.Machine
end

section
/-! PROOFS. The CRC engine (rules R133 to R138, R156): the bit step as arithmetic, its linearity over GF(2), and the one
fact the table engine rests on: input bits can be XORed into the top of the accumulator before zero bits are fed. -/

namespace Sys2Proof.Machine

/-! ### The bit step (rule R133) -/

theorem toNat_shiftLeft_and_maskW {W : Nat} (hW : W ≤ 32) (A : Word) :
    ((A <<< 1) &&& maskW W).toNat = 2 * A.toNat % 2 ^ W := by
  rw [BitVec.toNat_and, toNat_maskW hW, Nat.and_two_pow_sub_one_eq_mod, BitVec.toNat_shiftLeft, Nat.shiftLeft_eq,
    Nat.mod_mod_of_dvd _ (Nat.pow_dvd_pow 2 hW), pow_one, Nat.mul_comm]

/-- Settles O40: the feedback bit is the parity of the top bit and the input bit. -/
theorem crcStepDividesMsbFirst : Obligations.CrcStepDividesMsbFirst := by
  intro W Q A b _ hW _ _
  have hshift := toNat_shiftLeft_and_maskW hW A
  have hfeedback : (A.getLsbD (W - 1) ^^ b) = true ↔ (A.toNat / 2 ^ (W - 1) + b.toNat) % 2 = 1 := by
    rw [BitVec.getLsbD, Nat.testBit_eq_decide_div_mod_eq]
    cases b <;> simp [Nat.succ_mod_two_eq_one_iff]
  simp only [crcStep, hfeedback]
  split
  · rw [BitVec.toNat_xor, hshift]
  · exact hshift

theorem getLsbD_maskW (W : Nat) {k : Nat} (hk : k < 32) : (maskW W).getLsbD k = decide (k < W) := by
  rw [maskW, BitVec.getLsbD_ofNat, Nat.testBit_two_pow_sub_one, decide_eq_true hk, Bool.true_and]

/-- The bit step, bit by bit: each bit moves up within W bits, and the feedback adds Q. -/
theorem getLsbD_crcStep (W : Nat) (Q A : Word) (b : Bool) {k : Nat} (hk : k < 32) :
    (crcStep W Q A b).getLsbD k =
      ((decide (0 < k ∧ k < W) && A.getLsbD (k - 1)) ^^ ((A.getLsbD (W - 1) ^^ b) && Q.getLsbD k)) := by
  have hshift : ((A <<< 1) &&& maskW W).getLsbD k = (decide (0 < k ∧ k < W) && A.getLsbD (k - 1)) := by
    rw [BitVec.getLsbD_and, BitVec.getLsbD_shiftLeft, getLsbD_maskW W hk]
    cases k <;> simp [hk, Bool.and_comm]
  cases hfeedback : A.getLsbD (W - 1) ^^ b <;> simp [crcStep, hfeedback, hshift]

/-- The bit step is linear in the accumulator and the input bit together. -/
theorem crcStep_xor (W : Nat) (Q A B : Word) (a b : Bool) :
    crcStep W Q (A ^^^ B) (a ^^ b) = crcStep W Q A a ^^^ crcStep W Q B b := by
  refine BitVec.eq_of_getLsbD_eq fun k hk => ?_
  simp only [BitVec.getLsbD_xor, getLsbD_crcStep _ _ _ _ hk, Bool.and_xor_distrib_left, Bool.and_xor_distrib_right,
    Bool.xor_assoc, Bool.xor_left_comm]

/-! ### The serial update (rules R135, R156) -/

/-- The serial update is linear in the accumulator and the input together. -/
theorem updateSerial_xor (W : Nat) (Q : Word) : ∀ {x z : Bits} (A B : Word), x.length = z.length →
    updateSerial W Q (A ^^^ B) (List.zipWith xor x z) = updateSerial W Q A x ^^^ updateSerial W Q B z
  | [], [], _, _, _ => rfl
  | a :: x, b :: z, A, B, h => by
    have ih := updateSerial_xor W Q (crcStep W Q A a) (crcStep W Q B b) (Nat.succ.inj h)
    rwa [← crcStep_xor] at ih

/-- Settles O51: linearity from the accumulator 0. -/
theorem serialUpdateIsLinear : Obligations.SerialUpdateIsLinear := fun W Q _ _ _ _ h => updateSerial_xor W Q 0 0 h

/-! ### Input bits at the top of the accumulator (rule R138) -/

/-- The bits x at the top of a W-bit accumulator, zeros below them. -/
def topAligned (W : Nat) (x : Bits) : Word := wordOf (x ++ List.replicate (W - x.length) false)

theorem wordOf_lt (x : Bits) (hx : x.length ≤ 32) : (wordOf x).toNat < 2 ^ x.length := toNat_wordOf hx ▸ intOf_lt x

/-- A sequence of at most 32 bits can be read off its word. -/
theorem wordOf_injective {x z : Bits} (hx : x.length ≤ 32) (hz : z.length = x.length) (h : wordOf x = wordOf z) :
    x = z := by
  have hint := congrArg BitVec.toNat h
  rw [toNat_wordOf hx, toNat_wordOf (hz ▸ hx)] at hint
  rw [← bitsOf_intOf x, hint, ← hz, bitsOf_intOf]

theorem wordOf_zeros (n : Nat) : wordOf (List.replicate n false) = 0 := by
  have hint : intOf (List.replicate n false) = 0 := by
    induction n with
    | zero => rfl
    | succ n ih => rw [List.replicate_succ, intOf_cons, ih, Bool.toNat_false, Nat.zero_mul]
  rw [wordOf, hint]
  rfl

/-- Feeding the top bit of the accumulator cancels the feedback: the step only shifts that bit out. -/
theorem crcStep_wordOf_cons {W : Nat} {x : Bits} (hW : W ≤ 32) (hx : x.length + 1 = W) (Q : Word) (b : Bool) :
    crcStep W Q (wordOf (b :: x)) b = wordOf (x ++ [false]) := by
  subst hx
  have hcons : (wordOf (b :: x)).toNat = 2 ^ x.length * b.toNat + intOf x := by
    rw [toNat_wordOf (by simpa using hW), intOf_cons, Nat.mul_comm]
  have hfeedback : (wordOf (b :: x)).getLsbD (x.length + 1 - 1) = b := by
    rw [BitVec.getLsbD, hcons, Nat.add_sub_cancel, Nat.testBit_two_pow_mul_add _ (intOf_lt x)]
    cases b <;> simp
  have hlt : 2 * intOf x < 2 ^ (x.length + 1) := by have := intOf_lt x; omega
  simp only [crcStep, hfeedback, Bool.xor_self, Bool.false_eq_true, if_false]
  refine BitVec.eq_of_toNat_eq ?_
  calc ((wordOf (b :: x)) <<< 1 &&& maskW (x.length + 1)).toNat
      = (2 ^ (x.length + 1) * b.toNat + 2 * intOf x) % 2 ^ (x.length + 1) := by
        rw [toNat_shiftLeft_and_maskW hW, hcons, pow_succ', Nat.mul_add, Nat.mul_assoc]
    _ = 2 * intOf x := by rw [Nat.mul_add_mod, Nat.mod_eq_of_lt hlt]
    _ = (wordOf (x ++ [false])).toNat := by
        rw [toNat_wordOf (by simpa using hW), intOf_append, Nat.mul_comm]
        rfl

/-- Feeding the bits that stand at the top of an otherwise empty accumulator empties it. -/
theorem updateSerial_wordOf_self {W : Nat} (hW : W ≤ 32) (Q : Word) : ∀ {x : Bits} {n : Nat}, x.length + n = W →
    updateSerial W Q (wordOf (x ++ List.replicate n false)) x = 0
  | [], n, _ => wordOf_zeros n
  | b :: x, n, h => by
    have hlen : (x ++ List.replicate n false).length + 1 = W := by simpa [Nat.add_right_comm] using h
    have hstep := crcStep_wordOf_cons hW hlen Q b
    rw [List.append_assoc, ← List.replicate_succ'] at hstep
    calc updateSerial W Q (wordOf (b :: x ++ List.replicate n false)) (b :: x)
        = updateSerial W Q (wordOf (x ++ List.replicate (n + 1) false)) x := congrArg (updateSerial W Q · x) hstep
      _ = 0 := updateSerial_wordOf_self hW Q (by simpa [Nat.add_right_comm, Nat.add_assoc] using h)

section
variable {W : Nat} {x z : Bits}

theorem topAligned_of_length_eq (h : x.length = W) : topAligned W x = wordOf x := by
  simp [topAligned, h]

theorem length_append_zeros (hx : x.length ≤ W) : (x ++ List.replicate (W - x.length) false).length = W := by
  simp [hx]

theorem topAligned_lt (hW : W ≤ 32) (hx : x.length ≤ W) : (topAligned W x).toNat < 2 ^ W := by
  have hlt := wordOf_lt (x ++ List.replicate (W - x.length) false) (by rwa [length_append_zeros hx])
  rwa [length_append_zeros hx] at hlt

/-- Sequences of one length that read the same at the top are the same. -/
theorem eq_of_topAligned_eq (hW : W ≤ 32) (hx : x.length ≤ W) (hz : z.length = x.length)
    (h : topAligned W x = topAligned W z) : x = z := by
  rw [topAligned, topAligned, hz] at h
  exact List.append_cancel_right (wordOf_injective (by rwa [length_append_zeros hx]) (by simp [hz]) h)

/-- Feeding at most W bits is XORing them into the top of the accumulator and feeding as many zeros. -/
theorem updateSerial_eq_zeros (hW : W ≤ 32) (hx : x.length ≤ W) (Q A : Word) :
    updateSerial W Q A x = updateSerial W Q (A ^^^ topAligned W x) (List.replicate x.length false) := by
  have hzeros : List.zipWith xor x x = List.replicate x.length false := by
    simp [List.zipWith_self, List.map_const']
  rw [← hzeros, updateSerial_xor W Q A _ rfl, topAligned,
    updateSerial_wordOf_self hW Q (Nat.add_sub_cancel' hx)]
  exact BitVec.xor_zero.symm

end

/-! ### The table update (rules R136 to R138) -/

/-- One look-up is the serial update by the W bits of a chunk. -/
theorem crcTable_chunk {W : Nat} {x : Bits} (hW : W ≤ 32) (hx : x.length = W) (Q A : Word) :
    crcTable W Q (A ^^^ wordOf x) = updateSerial W Q A x := by
  rw [updateSerial_eq_zeros hW hx.le, topAligned_of_length_eq hx, hx, crcTable]

theorem tableChunks_eq_updateSerial {W : Nat} (hW : W ≤ 32) (Q : Word) : ∀ {count : Nat} (A : Word) {x : Bits},
    count * W ≤ x.length → tableChunks W Q count A x = updateSerial W Q A x
  | 0, _, _, _ => rfl
  | count + 1, A, x, h => by
    rw [Nat.succ_mul] at h
    have htake : (x.take W).length = W := List.length_take_of_le (by omega)
    have hdrop : count * W ≤ (x.drop W).length := by rw [List.length_drop]; omega
    rw [tableChunks, tableChunks_eq_updateSerial hW Q _ hdrop, crcTable_chunk hW htake, ← updateSerial_append,
      List.take_append_drop]

theorem updateTable_eq_updateSerial {W : Nat} (hW : W ≤ 32) (Q A : Word) (x : Bits) :
    updateTable W Q A x = updateSerial W Q A x :=
  tableChunks_eq_updateSerial hW Q A (Nat.div_mul_le_self _ _)

/-- Settles O41: chunk by chunk, a look-up is the serial update by that chunk. -/
theorem tableUpdateEqualsSerialUpdate : Obligations.TableUpdateEqualsSerialUpdate :=
  fun _ Q A x _ hW _ _ => updateTable_eq_updateSerial hW Q A x

end Sys2Proof.Machine
end

section
/-! PROOFS. What the CRC commands compute from their operands (rules R134, R139, R140, R142 to R146, R151): input
reflection and the byte swap as indexed families, digest and reverse bit by bit, the presets' checksums, and the update
of one unit. -/

namespace Sys2Proof.Machine

/-! ### The order of the fed bits (rules R134, R146) -/

theorem gather_map_range_of_lt (f : Nat → Bool) (g : Nat → Nat) {n : Nat} (hg : ∀ i < n, g i < n) :
    gather ((List.range n).map f) ((List.range n).map g) = (List.range n).map fun i => f (g i) := by
  rw [gather_map_range]
  refine List.map_congr_left fun i hi => ?_
  simp [List.getD_eq_getElem?_getD, hg i (List.mem_range.1 hi)]

theorem reflectInput_map_range {refin : Bool} {n : Nat} (f : Nat → Bool) (hn : refin = true → n % 8 = 0) :
    reflectInput refin ((List.range n).map f) = (List.range n).map (fedBit refin f) := by
  cases refin with
  | false => rfl
  | true =>
    have hlen := hn rfl
    simp only [reflectInput, if_true, List.length_map, List.length_range]
    rw [gather_map_range_of_lt f _ fun i hi => by omega]
    refine List.map_congr_left fun i _ => congrArg f ?_
    omega

theorem swapBytePairs_map_range {n : Nat} (f : Nat → Bool) (hn : n % 16 = 0) :
    swapBytePairs ((List.range n).map f) = (List.range n).map (swappedBit f) := by
  rw [swapBytePairs, List.length_map, List.length_range, gather_map_range_of_lt f _ fun i hi => by omega]
  refine List.map_congr_left fun i _ => ?_
  rw [swappedBit, ← apply_ite f]
  refine congrArg f ?_
  split <;> omega

/-- Whole bytes are reflected apart from what follows them (rule R134). -/
theorem reflectInput_append {refin : Bool} {x : Bits} (z : Bits) (h : refin = false ∨ x.length % 8 = 0) :
    reflectInput refin (x ++ z) = reflectInput refin x ++ reflectInput refin z := by
  cases refin with
  | false => rfl
  | true =>
    have hlen : x.length % 8 = 0 := by simpa using h
    simp only [reflectInput, if_true, List.length_append, List.range_add, List.map_append, gather, List.map_map]
    congr 1
    · refine List.map_congr_left fun i hi => ?_
      have hi := List.mem_range.1 hi
      exact List.getD_append _ _ _ _ (show 8 * (i / 8) + (7 - i % 8) < x.length by omega)
    · refine List.map_congr_left fun i _ => ?_
      simp only [Function.comp_apply]
      rw [List.getD_append_right _ _ _ _ (by omega)]
      congr 1
      omega

/-! ### Digest and reverse (rules R139, R140) -/

section
variable {W : Nat}

theorem getLsbD_of_lt_two_pow {A : Word} (hA : A.toNat < 2 ^ W) {k : Nat} (hk : W ≤ k) : A.getLsbD k = false :=
  Nat.testBit_lt_two_pow (hA.trans_le (Nat.pow_le_pow_right (by decide) hk))

theorem getLsbD_revW (hW : W ≤ 32) (A : Word) {k : Nat} :
    (revW W A).getLsbD k = (decide (k < W) && A.getLsbD (W - 1 - k)) := by
  by_cases hk : k < W
  · have hbit := testBit_intOf (bitsOf W A.toNat).reverse (W - 1 - k) (by simp; omega)
    rw [List.getElem_reverse, getElem_bitsOf] at hbit
    simp only [List.length_reverse, length_bitsOf, show W - 1 - (W - 1 - k) = k by omega] at hbit
    rw [BitVec.getLsbD, revW, toNat_wordOf (by simpa using hW), hbit, decide_eq_true hk, Bool.true_and]
    rfl
  · rw [getLsbD_of_lt_two_pow (revW_lt A) (not_lt.1 hk), decide_eq_false hk, Bool.false_and]

/-- Two reverses restore a W-bit value (rule R140). -/
theorem revW_revW (hW : W ≤ 32) {A : Word} (hA : A.toNat < 2 ^ W) : revW W (revW W A) = A := by
  refine BitVec.eq_of_getLsbD_eq fun k _ => ?_
  rw [getLsbD_revW hW, getLsbD_revW hW]
  by_cases hk : k < W
  · simp [hk, show W - 1 - k < W by omega, show W - 1 - (W - 1 - k) = k by omega]
  · simp [hk, getLsbD_of_lt_two_pow hA (not_lt.1 hk)]

theorem revW_eq_reverse (A : Word) : revW 32 A = A.reverse := by
  refine BitVec.eq_of_getLsbD_eq fun k hk => ?_
  rw [getLsbD_revW le_rfl, BitVec.getLsbD_reverse, BitVec.getMsbD]

theorem getLsbD_digest (hW : W ≤ 32) (refout : Bool) (X : Word) {A : Word} (hA : A.toNat < 2 ^ W) {k : Nat}
    (hk : k < 32) : (digest W refout X A).getLsbD k =
      (decide (k < W) && ((if refout then A.getLsbD (W - 1 - k) else A.getLsbD k) ^^ X.getLsbD k)) := by
  have hout : (if refout then revW W A else A).getLsbD k =
      (decide (k < W) && if refout then A.getLsbD (W - 1 - k) else A.getLsbD k) := by
    cases refout with
    | true => exact getLsbD_revW hW A
    | false =>
      by_cases hkW : k < W
      · simp [hkW]
      · simp [hkW, getLsbD_of_lt_two_pow hA (not_lt.1 hkW)]
  rw [digest, BitVec.getLsbD_xor, hout, BitVec.getLsbD_and, getLsbD_maskW W hk, Bool.and_comm (X.getLsbD k),
    Bool.and_xor_distrib_left]

end

/-! ### The checksums of the presets (rules R142 to R147) -/

theorem presetLengthOk_iff {p : Preset} {len : Nat} : presetLengthOk p len = true ↔ CalcLength p len := by
  cases p <;> simp [presetLengthOk, CalcLength]

@[simp] theorem fedBit_false (f : Nat → Bool) : fedBit false f = f := rfl

/-- The digest of the first n bits of a family, one bit step per fed bit. -/
theorem presetDigest_map_range (P : CrcParams) {n : Nat} (f : Nat → Bool) (hn : P.refin = true → n % 8 = 0) :
    presetDigest P ((List.range n).map f) =
      digest P.width P.refout P.xorout (accAfter P.width P.poly P.init (fedBit P.refin f) n) := by
  rw [presetDigest, reflectInput_map_range f hn, updateSerial_map_range]

/-- The model's formula of a preset over the first n bits of a family is that of rules R142 to R146. -/
theorem presetValue_map_range {p : Preset} {n : Nat} (f : Nat → Bool) (mask : Word) (hn : CalcLength p n) :
    presetValue p ((List.range n).map f) mask = calcValue p f n mask := by
  cases p with
  | crc32 =>
    have h16 : n % 16 = 0 := hn
    have h8 : n % 8 = 0 := by omega
    rw [presetValue, swapBytePairs_map_range f h16, presetDigest_map_range _ _ fun _ => h8]
    simp [presetParams, digest, revW_eq_reverse, maskW, calcValue]
  | _ =>
    rw [presetValue, presetDigest_map_range _ f (by simp [presetParams])]
    simp [presetParams, digest, maskW, calcValue]

theorem calculate_input {p : Preset} {s : State} (h : CalcLength p s.inputLength) (mask : Word) :
    calculate p s.input mask = some (calcValue p s.ibufBit s.inputLength mask) := by
  rw [calculate, State.length_input, if_pos (presetLengthOk_iff.2 h)]
  exact congrArg some (presetValue_map_range _ _ h)

theorem calculate_input_eq_none {p : Preset} {s : State} (h : ¬ CalcLength p s.inputLength) (mask : Word) :
    calculate p s.input mask = none := by
  rw [calculate, State.length_input, if_neg (mt presetLengthOk_iff.1 h)]

/-! ### The update of one unit (rules R135, R137, R138, R151) -/

section
variable {c : CrcUnit}

/-- Both engine modes are the serial update. -/
theorem CrcUnit.updated_eq_updateSerial (hW : c.width ≤ 32) (x : Bits) :
    c.updated x = updateSerial c.width c.q c.acc (reflectInput (refinOf c.cfg) x) := by
  rw [CrcUnit.updated, updateTable_eq_updateSerial hW, ite_self]

/-- The update by the input of a state, one bit step per fed bit. -/
theorem CrcUnit.updated_input {s : State} (hW : c.width ≤ 32)
    (hlen : refinOf c.cfg = true → s.inputLength % 8 = 0) :
    c.updated s.input = accAfter c.width c.q c.acc (fedBit (refinOf c.cfg) s.ibufBit) s.inputLength := by
  rw [CrcUnit.updated_eq_updateSerial hW, ← updateSerial_map_range, ← reflectInput_map_range _ hlen]
  rfl

/-- Settles O49: the fed bits of x then z are those of x followed by those of z. -/
theorem crcUpdatesCompose : Obligations.CrcUpdatesCompose := by
  intro c x z hc hlife hx
  have hW : c.width ≤ 32 := hc.width_le hlife
  rw [CrcUnit.updated_eq_updateSerial (c := c.withAcc (c.updated x)) hW, CrcUnit.updated_eq_updateSerial hW (x ++ z),
    CrcUnit.updated_eq_updateSerial hW x, reflectInput_append z hx, updateSerial_append]
  rfl

end

end Sys2Proof.Machine
end

section
/-! PROOFS. The seven CRC commands (rules R149 to R155): how each of them completes, and the statements about it. -/

namespace Sys2Proof.Machine

/-! ### How a CRC command completes (decision D48) -/

/-- t is what s becomes when a CRC command completes with OK 1, unit u equal to c and RESULT r. -/
structure CompletesWithUnit (u : UnitId) (c : CrcUnit) (r : Word) (s t : State) : Prop where
  status : Completes true s t
  olen : t.olen = 0
  result : t.result = r
  crcUnit : t.crcUnit u = c
  frame : KeepsAllButUnit u s t

section
variable {u : UnitId} {c : CrcUnit} {s t : State}

theorem crcComplete_setUnit (u : UnitId) (c : CrcUnit) (r : Word) (s : State) :
    ∃ t, crcComplete true r (s.setUnit u c) = .next t ∧ CompletesWithUnit u c r s t := by
  refine ⟨_, rfl, completedStatus_eq_okWord true s.status, rfl, rfl, ?_, rfl, rfl, rfl, fun _ => rfl, fun _ => rfl,
    fun v hv => ?_, rfl, rfl, rfl⟩
  · simp
  · simp [State.setUnit_crcUnit_ne, hv]

theorem KeepsAllButUnit.inputLength (h : KeepsAllButUnit u s t) : t.inputLength = s.inputLength :=
  congrArg BitVec.toNat h.ilen

theorem KeepsAllButUnit.input (h : KeepsAllButUnit u s t) : t.input = s.input := by
  rw [State.input, State.input, h.inputLength, funext h.ibuf]

theorem execCrcCfg_completes (p : Preset) (u : UnitId) (s : State) : ∃ t, exec (.crcCfg p u) s = .next t ∧
    CompletesWithUnit u ((s.crcUnit u).configured (presetParams p)) 0 s t :=
  crcComplete_setUnit u _ 0 s

theorem execCrcInit_completes (hc : s.crcUnit u = c) (hpos : 1 ≤ c.width) (hW : c.width ≤ 32) :
    ∃ t, exec (.crcInit u) s = .next t ∧ CompletesWithUnit u c.initialised c.initialised.acc s t := by
  subst hc
  obtain ⟨t, ht, hout⟩ := crcComplete_setUnit u (s.crcUnit u).initialised (s.crcUnit u).initialised.acc s
  exact ⟨t, (if_pos ⟨hpos, hW⟩).trans ht, hout⟩

theorem execCrcUpd_completes (hc : s.crcUnit u = c) (hlife : lifeOf c.cfg = true)
    (hlen : s.inputLength ≤ Config.ibufBits) (hrefin : refinOf c.cfg = true → s.inputLength % 8 = 0) :
    ∃ t, exec (.crcUpd u) s = .next t ∧
      CompletesWithUnit u (c.withAcc (c.updated s.input)) (c.updated s.input) s t := by
  subst hc
  obtain ⟨t, ht, hout⟩ := crcComplete_setUnit u ((s.crcUnit u).withAcc ((s.crcUnit u).updated s.input))
    ((s.crcUnit u).updated s.input) s
  have hshort : ¬ s.inputTooLong = true := by simpa [State.inputTooLong] using hlen
  have hbytes : ¬ (refinOf (s.crcUnit u).cfg = true ∧ s.inputLength % 8 ≠ 0) := fun h => h.2 (hrefin h.1)
  exact ⟨t, (if_neg (by simp [hlife])).trans ((if_neg hshort).trans ((if_neg hbytes).trans ht)), hout⟩

theorem execCrcDig_completes (hc : s.crcUnit u = c) (hlife : lifeOf c.cfg = true) :
    ∃ t, exec (.crcDig u) s = .next t ∧ CompletesWithUnit u c c.digest s t := by
  subst hc
  obtain ⟨t, ht, hout⟩ := crcComplete_setUnit u (s.crcUnit u) (s.crcUnit u).digest s
  rw [State.setUnit_crcUnit_self] at ht
  exact ⟨t, (if_neg (by simp [hlife])).trans ht, hout⟩

theorem execCrcRev_completes (hc : s.crcUnit u = c) (hlife : lifeOf c.cfg = true) :
    ∃ t, exec (.crcRev u) s = .next t ∧
      CompletesWithUnit u (c.withAcc (revW c.width c.acc)) (revW c.width c.acc) s t := by
  subst hc
  obtain ⟨t, ht, hout⟩ := crcComplete_setUnit u
    ((s.crcUnit u).withAcc (revW (s.crcUnit u).width (s.crcUnit u).acc)) (revW (s.crcUnit u).width (s.crcUnit u).acc) s
  exact ⟨t, (if_neg (by simp [hlife])).trans ht, hout⟩

/-- A command on a unit that is not ACCUMULATING ends with UNINIT (rules R132, R158, R160). -/
theorem lifeGuard_fails {o : Outcome} (h : lifeOf c.cfg = false) :
    (if lifeOf c.cfg = false then raiseError .uninit s else o) = .next (errored 3 s) :=
  (if_pos h).trans (raiseError_eq .uninit s)

end

/-! ### CRC.CFG and CRC.INIT (rules R149, R150) -/

/-- Settles O42: the preset table against the rows of rule R141, and the fields of a CFG word built from fields. -/
theorem crcCfgLoadsThePreset : Obligations.CrcCfgLoadsThePreset := by
  intro p u s
  refine ⟨encodedAs_of_encode rfl (by cases p <;> revert u <;> decide), ?_⟩
  obtain ⟨t, ht, hout⟩ := execCrcCfg_completes p u s
  refine ⟨t, ht, hout.status, hout.olen, hout.result, hout.frame, ?_⟩
  rw [hout.crcUnit]
  cases p <;> simp [CrcUnit.configured, presetParams, cfgWord_reserved]

theorem cfgWord_life (w : Nat) (ri ro mode : Bool) :
    cfgWord w ri ro mode true = cfgWord w ri ro mode false ||| 0x80000000#32 := by
  unfold cfgWord
  generalize BitVec.ofNat 6 w = x
  revert x ri ro mode
  decide +kernel

/-- Setting LIFE keeps bits 10:8 and 5:0 of a CFG word and sets bit 31 (rule R24). -/
theorem withLife_true_eq_or (cfg : Word) : withLife true cfg = (cfg &&& 0x73F#32) ||| 0x80000000#32 := by
  rw [← withLife_false_eq_and]
  exact cfgWord_life _ _ _ _

/-- Settles O43: WIDTH alone decides; INIT is cut to W bits. -/
theorem crcInitStartsAccumulating : Obligations.CrcInitStartsAccumulating := by
  intro u s c W
  refine ⟨encodedAs_of_encode rfl (by revert u; decide), fun hW => ?_, fun hpos hW => ?_⟩
  · exact (if_neg (by change ¬ (1 ≤ W ∧ W ≤ 32); omega)).trans (raiseError_eq .config s)
  · obtain ⟨t, ht, hout⟩ := execCrcInit_completes (c := c) rfl hpos hW
    refine ⟨t, ht, hout.status, hout.olen, ?_, hout.frame, ?_⟩
    · rw [hout.result, hout.crcUnit]
    · rw [hout.crcUnit]
      refine ⟨?_, rfl, rfl, rfl, withLife_true_eq_or _⟩
      change (c.init &&& maskW W).toNat = _
      rw [BitVec.toNat_and, toNat_maskW hW, Nat.and_two_pow_sub_one_eq_mod]

/-! ### CRC.UPD, CRC.DIG and CRC.REV (rules R151 to R153) -/

/-- Settles O44: LIFE is tested before the length, and both engines feed one bit at a time. -/
theorem crcUpdFeedsTheInputBits : Obligations.CrcUpdFeedsTheInputBits := by
  intro u s c W len a
  refine ⟨encodedAs_of_encode rfl (by revert u; decide), lifeGuard_fails, fun hlife hlen => ?_,
    fun hlife hc hlen hrefin => ?_⟩
  · refine (if_neg (by simp [c, hlife])).trans ?_
    by_cases hlong : s.inputTooLong = true
    · exact lengthGuard_fails hlong
    · refine (if_neg hlong).trans (lengthGuard_fails (hlen.resolve_left ?_))
      simpa [State.inputTooLong] using hlong
  · obtain ⟨t, ht, hout⟩ := execCrcUpd_completes (c := c) rfl hlife hlen hrefin
    rw [CrcUnit.updated_input (hc.width_le hlife) hrefin] at hout
    exact ⟨t, ht, hout.status, hout.olen, hout.result, hout.frame, hout.crcUnit⟩

/-- Settles O45: RESULT is the digest, read bit by bit. -/
theorem crcDigReadsTheDigest : Obligations.CrcDigReadsTheDigest := by
  intro u s c W
  refine ⟨encodedAs_of_encode rfl (by revert u; decide), lifeGuard_fails, fun hlife hc => ?_⟩
  obtain ⟨t, ht, hout⟩ := execCrcDig_completes (c := c) rfl hlife
  refine ⟨t, ht, hout.status, hout.olen, hout.frame, hout.crcUnit, fun k hk => ?_⟩
  rw [hout.result]
  exact getLsbD_digest (hc.width_le hlife) _ _ (hc.acc_lt hlife) hk

/-- Settles O46: `revW` bit by bit, and its own inverse on W-bit values. -/
theorem crcRevReversesTheAccumulator : Obligations.CrcRevReversesTheAccumulator := by
  intro u s c W
  refine ⟨encodedAs_of_encode rfl (by revert u; decide), lifeGuard_fails, fun hlife hc => ?_⟩
  have hW : W ≤ 32 := hc.width_le hlife
  obtain ⟨t, ht, hout⟩ := execCrcRev_completes (c := c) rfl hlife
  obtain ⟨t', ht', hout'⟩ := execCrcRev_completes hout.crcUnit hlife
  refine ⟨t, ht, hout.status, hout.olen, hout.frame, ?_, ?_, fun k _ => ?_, t', ht', ?_⟩
  · rw [hout.result, hout.crcUnit, CrcUnit.withAcc]
  · rw [hout.crcUnit, CrcUnit.withAcc]
  · rw [hout.crcUnit]
    exact getLsbD_revW hW c.acc
  · rw [hout'.crcUnit]
    exact congrArg (c.withAcc ·) (revW_revW hW (hc.acc_lt hlife))

/-! ### CRC.CALC and CRC.VER (rules R154, R155) -/

/-- What CRC.CALC and CRC.VER share: f on the checksum of the input, or LENGTH. -/
def withChecksum (p : Preset) (f : Word → Outcome) (s : State) : Outcome :=
  if s.inputTooLong then raiseError .length s
  else
    match calculate p s.input s.maskOperand with
    | none => raiseError .length s
    | some v => f v

section
variable {p : Preset} {s : State}

theorem exec_crcCalc : exec (.crcCalc p) s = withChecksum p (crcComplete true · s) s := rfl

theorem exec_crcVer :
    exec (.crcVer p) s = withChecksum p (fun v => crcComplete (verify v s.expectedOperand) v s) s := rfl

theorem withChecksum_fails {f : Word → Outcome}
    (h : Config.ibufBits < s.inputLength ∨ ¬ CalcLength p s.inputLength) :
    withChecksum p f s = .next (errored 2 s) := by
  by_cases hlong : s.inputTooLong = true
  · exact lengthGuard_fails hlong
  · have hlen := h.resolve_left (by simpa [State.inputTooLong] using hlong)
    rw [withChecksum, if_neg hlong, calculate_input_eq_none hlen]
    exact raiseError_eq .length s

theorem withChecksum_passes {f : Word → Outcome} (h : s.inputLength ≤ Config.ibufBits)
    (hlen : CalcLength p s.inputLength) :
    withChecksum p f s = f (calcValue p s.ibufBit s.inputLength s.aux0) := by
  rw [withChecksum, if_neg (by simpa [State.inputTooLong] using h), calculate_input hlen]
  rfl

end

/-- Settles O47: the length guard, then the preset's value with the mask AUX0. -/
theorem crcCalcComputesThePresetChecksum : Obligations.CrcCalcComputesThePresetChecksum := by
  intro p s len
  refine ⟨encodedAs_of_encode rfl (by cases p <;> rfl), withChecksum_fails, fun h hlen => ?_⟩
  exact ⟨_, exec_crcCalc.trans (withChecksum_passes h hlen), completedStatus_eq_okWord true s.status, rfl, rfl,
    keepsAllButOutput_noOutput s _ _ _⟩

/-- Settles O48: as CRC.CALC, with OK the comparison with AUX1. -/
theorem crcVerComparesWithTheExpectedValue : Obligations.CrcVerComparesWithTheExpectedValue := by
  intro p s len
  refine ⟨encodedAs_of_encode rfl (by cases p <;> rfl), withChecksum_fails, fun h hlen => ?_⟩
  exact ⟨_, exec_crcVer.trans (withChecksum_passes h hlen), completedStatus_eq_okWord _ s.status, rfl, rfl,
    keepsAllButOutput_noOutput s _ _ _⟩

/-! ### A unit loaded with a preset (rule R149) -/

section
variable (p : Preset) (c : CrcUnit)

/-- Unit c loaded with a preset and initialised. -/
def CrcUnit.loaded : CrcUnit := (c.configured (presetParams p)).initialised

theorem width_configured : (c.configured (presetParams p)).width = (presetParams p).width := by
  rw [CrcUnit.width, CrcUnit.configured, widthOf_cfgWord]
  cases p <;> rfl

theorem width_loaded : (c.loaded p).width = (presetParams p).width :=
  (widthOf_withLife true _).trans (width_configured p c)

theorem presetParams_width : 1 ≤ (presetParams p).width ∧ (presetParams p).width ≤ 32 := by cases p <;> decide

/-- POLY and INIT of a preset have W bits (rule R141). -/
theorem presetParams_and_maskW : (presetParams p).poly &&& maskW (presetParams p).width = (presetParams p).poly ∧
    (presetParams p).init &&& maskW (presetParams p).width = (presetParams p).init := by cases p <;> decide

theorem lifeOf_loaded : lifeOf (c.loaded p).cfg = true := lifeOf_withLife true _

theorem refinOf_loaded : refinOf (c.loaded p).cfg = (presetParams p).refin :=
  (refinOf_withLife true _).trans (refinOf_cfgWord _ _ _ _ _)

theorem refoutOf_loaded : refoutOf (c.loaded p).cfg = (presetParams p).refout :=
  (refoutOf_withLife true _).trans (refoutOf_cfgWord _ _ _ _ _)

theorem q_loaded : (c.loaded p).q = (presetParams p).poly := by
  rw [CrcUnit.q, width_loaded]
  exact (presetParams_and_maskW p).1

theorem acc_loaded : (c.loaded p).acc = (presetParams p).init := by
  rw [CrcUnit.loaded, CrcUnit.initialised, width_configured]
  exact (presetParams_and_maskW p).2

/-- A loaded unit after the input x digests to the preset's digest of x. -/
theorem digest_loaded_updated (x : Bits) :
    ((c.loaded p).withAcc ((c.loaded p).updated x)).digest = presetDigest (presetParams p) x := by
  have hW : (c.loaded p).width ≤ 32 := width_loaded p c ▸ (presetParams_width p).2
  calc ((c.loaded p).withAcc ((c.loaded p).updated x)).digest
      = digest (c.loaded p).width (refoutOf (c.loaded p).cfg) (presetParams p).xorout ((c.loaded p).updated x) := rfl
    _ = presetDigest (presetParams p) x := by
      rw [CrcUnit.updated_eq_updateSerial hW, width_loaded, q_loaded, acc_loaded, refinOf_loaded, refoutOf_loaded,
        presetDigest]

end

theorem presetValue_zero {p : Preset} (hp : p ≠ .crc32) (x : Bits) :
    presetValue p x 0 = presetDigest (presetParams p) x := by
  cases p with
  | crc32 => exact absurd rfl hp
  | _ => simp [presetValue]

theorem refin_presetParams {p : Preset} (hp : p ≠ .crc32) : (presetParams p).refin = false := by
  cases p with
  | crc32 => exact absurd rfl hp
  | _ => rfl

/-- Settles O50: the four commands hand the unit on to one another, and its digest is the preset's value with mask 0. -/
theorem loadedUnitGivesTheCalcResult : Obligations.LoadedUnitGivesTheCalcResult := by
  intro p u s hp h hlen sCalc
  obtain ⟨hpos, hW⟩ := presetParams_width p
  obtain ⟨t₁, hexec₁, hcfg⟩ := execCrcCfg_completes p u s
  obtain ⟨t₂, hexec₂, hinit⟩ := execCrcInit_completes hcfg.crcUnit (width_configured p _ ▸ hpos)
    (width_configured p _ ▸ hW)
  obtain ⟨t₃, hexec₃, hupd⟩ := execCrcUpd_completes hinit.crcUnit (lifeOf_loaded p _)
    (by rwa [hinit.frame.inputLength, hcfg.frame.inputLength])
    (fun hr => absurd ((refinOf_loaded p _).symm.trans hr) (by simp [refin_presetParams hp]))
  obtain ⟨t₄, hexec₄, hdig⟩ := execCrcDig_completes hupd.crcUnit (lifeOf_loaded p _)
  obtain ⟨t, hexec, hcalc, -, hresult, -⟩ := (crcCalcComputesThePresetChecksum p sCalc).2.2 h hlen
  refine ⟨t₁, t₂, t₃, t₄, t, ⟨hexec₁, hcfg.status⟩, ⟨hexec₂, hinit.status⟩, ⟨hexec₃, hupd.status⟩,
    ⟨hexec₄, hdig.status⟩, ⟨hexec, hcalc⟩, ?_⟩
  have hinput : t₂.input = s.input := by rw [hinit.frame.input, hcfg.frame.input]
  calc t₄.result = presetDigest (presetParams p) s.input := by
        rw [hdig.result, hinput]
        exact digest_loaded_updated p _ _
    _ = presetValue p s.input 0 := (presetValue_zero hp _).symm
    _ = t.result := (presetValue_map_range _ _ hlen).trans hresult.symm

end Sys2Proof.Machine
end

section
/-! PROOFS. A changed byte changes the checksum (rule R156): with a polynomial whose lowest bit is 1 the bit step loses
nothing of the accumulator, so a burst of at most W bits is still seen after any further input. -/

namespace Sys2Proof.Machine

/-! ### The serial update is injective -/

section
variable {W : Nat} {Q : Word}

theorem crcStep_injective (hW : W ≤ 32) (hQ : Q.getLsbD 0 = true) {A B : Word} (hA : A.toNat < 2 ^ W)
    (hB : B.toNat < 2 ^ W) {b : Bool} (h : crcStep W Q A b = crcStep W Q B b) : A = B := by
  have hbit (k : Nat) : (crcStep W Q A b).getLsbD k = (crcStep W Q B b).getLsbD k := congrArg (·.getLsbD k) h
  have hfeedback : (A.getLsbD (W - 1) ^^ b) = (B.getLsbD (W - 1) ^^ b) := by
    have hlow := hbit 0
    rw [getLsbD_crcStep _ _ _ _ (by decide), getLsbD_crcStep _ _ _ _ (by decide), hQ] at hlow
    simpa using hlow
  refine BitVec.eq_of_getLsbD_eq fun i hi => ?_
  rcases lt_trichotomy (i + 1) W with hlt | heq | hgt
  · simpa [getLsbD_crcStep _ _ _ _ (show i + 1 < 32 by omega), hlt, hfeedback] using hbit (i + 1)
  · simpa [← heq] using hfeedback
  · rw [getLsbD_of_lt_two_pow hA (by omega), getLsbD_of_lt_two_pow hB (by omega)]

variable (hW : W ≤ 32) (hQ : Q.getLsbD 0 = true) (hQlt : Q.toNat < 2 ^ W)
include hW hQ hQlt

theorem updateSerial_injective : ∀ {x : Bits} {A B : Word}, A.toNat < 2 ^ W → B.toNat < 2 ^ W →
    updateSerial W Q A x = updateSerial W Q B x → A = B
  | [], _, _, _, _, h => h
  | b :: _, _, _, hA, hB, h =>
    crcStep_injective hW hQ hA hB
      (updateSerial_injective (crcStep_lt hW hQlt b) (crcStep_lt hW hQlt b) h)

/-- At most W bits can be told from the accumulator they leave. -/
theorem eq_of_updateSerial_eq {A : Word} (hA : A.toNat < 2 ^ W) {x z : Bits} (hx : x.length ≤ W)
    (hz : z.length = x.length) (h : updateSerial W Q A x = updateSerial W Q A z) : x = z := by
  have hlt {y : Bits} (hy : y.length ≤ W) : (A ^^^ topAligned W y).toNat < 2 ^ W := by
    rw [BitVec.toNat_xor]
    exact Nat.xor_lt_two_pow hA (topAligned_lt hW hy)
  rw [updateSerial_eq_zeros hW hx, updateSerial_eq_zeros (x := z) hW (hz ▸ hx), hz] at h
  have htop := updateSerial_injective hW hQ hQlt (hlt hx) (hlt (hz ▸ hx)) h
  exact eq_of_topAligned_eq hW hx hz ((BitVec.xor_right_inj A).1 htop)

end

/-! ### Sequences that differ in one byte -/

/-- x and z differ, and in byte j only. -/
structure DifferInByte (j : Nat) (x z : Bits) : Prop where
  length_eq : z.length = x.length
  agree : ∀ i, i / 8 ≠ j → x[i]? = z[i]?
  ne : x ≠ z

section
variable {j : Nat} {x z : Bits}

/-- The accumulators after two sequences that differ in one byte are different. -/
theorem DifferInByte.updateSerial_ne (h : DifferInByte j x z) {W : Nat} (h8 : 8 ≤ W) (hW : W ≤ 32) {Q A : Word}
    (hQ : Q.getLsbD 0 = true) (hQlt : Q.toNat < 2 ^ W) (hA : A.toNat < 2 ^ W) :
    updateSerial W Q A x ≠ updateSerial W Q A z := by
  have hlen := h.length_eq
  have hbefore : x.take (8 * j) = z.take (8 * j) := List.ext_getElem? fun i => by
    rw [List.getElem?_take, List.getElem?_take]
    split
    · exact h.agree i (by omega)
    · rfl
  have hafter : (x.drop (8 * j)).drop 8 = (z.drop (8 * j)).drop 8 := List.ext_getElem? fun i => by
    simp only [List.getElem?_drop]
    exact h.agree _ (by omega)
  have hsplit (y : Bits) : y = y.take (8 * j) ++ ((y.drop (8 * j)).take 8 ++ (y.drop (8 * j)).drop 8) := by
    rw [List.take_append_drop, List.take_append_drop]
  intro heq
  rw [hsplit x, hsplit z, hbefore, hafter] at heq
  simp only [updateSerial_append] at heq
  have hlt : (updateSerial W Q A (z.take (8 * j))).toNat < 2 ^ W := updateSerial_lt hW hQlt _ _ hA
  have hmid := updateSerial_injective hW hQ hQlt (updateSerial_lt hW hQlt _ _ hlt) (updateSerial_lt hW hQlt _ _ hlt) heq
  have hbyte := eq_of_updateSerial_eq hW hQ hQlt hlt (by simp; omega) (by simp [hlen]) hmid
  exact h.ne (by rw [hsplit x, hsplit z, hbefore, hafter, hbyte])

/-- An involution of the indices that moves whole bytes moves the byte in which two sequences differ. -/
theorem DifferInByte.gather {g : Nat → Nat} {j' : Nat} (h : DifferInByte j x z)
    (hg : ∀ i < x.length, g i < x.length ∧ g (g i) = i) (hbyte : ∀ i, g i / 8 = j → i / 8 = j') :
    DifferInByte j' (gather x ((List.range x.length).map g)) (gather z ((List.range z.length).map g)) where
  length_eq := by simp [h.length_eq]
  agree i hi := by
    have hagree := h.agree (g i) fun hgi => hi (hbyte i hgi)
    rw [h.length_eq, gather_map_range, gather_map_range, List.getElem?_map, List.getElem?_map]
    simp only [List.getD_eq_getElem?_getD]
    by_cases hlt : i < x.length
    · simp [hlt, hagree]
    · simp [hlt]
  ne heq := h.ne <| List.ext_getElem h.length_eq.symm fun i hx hz => by
    obtain ⟨hlt, hinv⟩ := hg i hx
    rw [h.length_eq, gather_map_range, gather_map_range, List.map_inj_left] at heq
    simpa [hinv, hx, hz] using heq (g i) (List.mem_range.2 hlt)

theorem DifferInByte.reflectInput (h : DifferInByte j x z) (hx : x.length % 8 = 0) :
    DifferInByte j (reflectInput true x) (reflectInput true z) :=
  h.gather (fun i hi => by omega) fun i hi => by omega

@[simp] theorem length_swapBytePairs (x : Bits) : (Machine.swapBytePairs x).length = x.length := by
  simp [Machine.swapBytePairs]

theorem DifferInByte.swapBytePairs (h : DifferInByte j x z) (hx : x.length % 16 = 0) :
    DifferInByte (if j % 2 = 0 then j + 1 else j - 1) (swapBytePairs x) (swapBytePairs z) :=
  h.gather (fun i hi => by omega) fun i hi => by split <;> omega

end

theorem eq_replicate_of_zipWith_xor_eq : ∀ {b e : Bits}, e.length = b.length → List.zipWith xor b e = b →
    e = List.replicate e.length false
  | [], [], _, _ => rfl
  | b :: bs, e :: es, hlen, h => by
    obtain ⟨hhead, htail⟩ := List.cons.inj h
    have he : e = false := by cases b <;> simpa using hhead
    rw [he, List.length_cons, List.replicate_succ, ← eq_replicate_of_zipWith_xor_eq (Nat.succ.inj hlen) htail]

/-- Two sequences that are the same around byte j. -/
theorem differInByte_append {a m m' : Bits} (c : Bits) {j : Nat} (ha : a.length = 8 * j) (hm : m.length = 8)
    (hm' : m'.length = 8) (hne : m ≠ m') : DifferInByte j (a ++ m ++ c) (a ++ m' ++ c) where
  length_eq := by simp [hm, hm']
  agree i hi := by
    rcases lt_or_ge i (8 * j) with hbefore | hafter
    · rw [List.append_assoc, List.append_assoc, List.getElem?_append_left (ha ▸ hbefore),
        List.getElem?_append_left (ha ▸ hbefore)]
    · have hlen : 8 * j + 8 ≤ i := by omega
      rw [List.getElem?_append_right (by simp [ha, hm, hlen]), List.getElem?_append_right (by simp [ha, hm', hlen])]
      simp [hm, hm']
  ne heq := hne (List.append_cancel_left (List.append_cancel_right heq))

/-- XORing a nonzero pattern into byte j changes that byte only. -/
theorem differInByte_xor {x e : Bits} {j : Nat} (hj : 8 * j + 8 ≤ x.length) (he : e.length = 8)
    (hne : e ≠ List.replicate 8 false) :
    DifferInByte j (x.take (8 * j) ++ List.zipWith xor ((x.drop (8 * j)).take 8) e ++ x.drop (8 * j + 8)) x := by
  have hsplit : x.take (8 * j) ++ (x.drop (8 * j)).take 8 ++ x.drop (8 * j + 8) = x := by
    rw [List.append_assoc, ← List.drop_drop, List.take_append_drop, List.take_append_drop]
  have hbyte : ((x.drop (8 * j)).take 8).length = 8 := by simp; omega
  have hbefore : (x.take (8 * j)).length = 8 * j := List.length_take_of_le (by omega)
  have hchanged : List.zipWith xor ((x.drop (8 * j)).take 8) e ≠ (x.drop (8 * j)).take 8 := fun h =>
    hne (he ▸ eq_replicate_of_zipWith_xor_eq (he.trans hbyte.symm) h)
  have hdiffer := differInByte_append (x.drop (8 * j + 8)) hbefore (by simp [hbyte, he]) hbyte hchanged
  rwa [hsplit] at hdiffer

/-! ### The digests of the presets -/

theorem digest_injective {W : Nat} (hW : W ≤ 32) {refout : Bool} {X A B : Word} (hA : A.toNat < 2 ^ W)
    (hB : B.toNat < 2 ^ W) (h : digest W refout X A = digest W refout X B) : A = B := by
  have hout := (BitVec.xor_left_inj _).1 h
  cases refout with
  | false => exact hout
  | true => rw [← revW_revW hW hA, ← revW_revW hW hB]; exact congrArg (revW W) hout

/-- What rule R156 needs of a preset: 8 to 32 bits, and a polynomial with its lowest bit 1. -/
theorem presetParams_odd {p : Preset} (hp : p ≠ .crc7) : 8 ≤ (presetParams p).width ∧
    (presetParams p).poly.getLsbD 0 = true ∧ (presetParams p).poly.toNat < 2 ^ (presetParams p).width ∧
    (presetParams p).init.toNat < 2 ^ (presetParams p).width := by
  cases p with
  | crc7 => exact absurd rfl hp
  | _ => decide

theorem DifferInByte.presetDigest_ne {p : Preset} (hp : p ≠ .crc7) {j : Nat} {x z : Bits} (h : DifferInByte j x z)
    (hx : (presetParams p).refin = true → x.length % 8 = 0) :
    presetDigest (presetParams p) x ≠ presetDigest (presetParams p) z := by
  obtain ⟨h8, hQ, hQlt, hA⟩ := presetParams_odd hp
  have hW := (presetParams_width p).2
  have hfed : DifferInByte j (Machine.reflectInput (presetParams p).refin x)
      (Machine.reflectInput (presetParams p).refin z) := by
    cases hr : (presetParams p).refin with
    | false => exact h
    | true => exact h.reflectInput (hx hr)
  intro heq
  exact hfed.updateSerial_ne h8 hW hQ hQlt hA
    (digest_injective hW (updateSerial_lt hW hQlt _ _ hA) (updateSerial_lt hW hQlt _ _ hA) heq)

/-- Settles O52: the wrapper of a preset adds the same mask to two different digests. -/
theorem singleByteMutationChangesTheChecksum : Obligations.SingleByteMutationChangesTheChecksum := by
  intro p x e j mask hp hx hj he hne
  have h := differInByte_xor hj he hne
  have hdigest (hr : (presetParams p).refin = false) := h.presetDigest_ne hp fun hr' => by simp [hr] at hr'
  cases p with
  | crc7 => exact absurd rfl hp
  | crc8 => exact hdigest rfl
  | crc9 => exact fun heq => hdigest rfl ((BitVec.xor_left_inj _).1 heq)
  | crc16 => exact fun heq => hdigest rfl ((BitVec.xor_left_inj _).1 heq)
  | crc32 =>
    have h16 : x.length % 16 = 0 := hx
    rw [h.length_eq] at h16
    exact (h.swapBytePairs h16).presetDigest_ne hp fun _ => by rw [length_swapBytePairs]; omega

end Sys2Proof.Machine
end

section
/-! PROOFS. The two ways a command ends (rule R157): a completion, or one of the errors LENGTH, UNINIT and CONFIG. -/

namespace Sys2Proof.Machine

/-- o is an ending that rule R157 allows a command on s: a completion of a state u with the STATUS of s (the command
writes STATUS only by completing), or an error other than BAD_COMMAND, the error of a word that is no command (R66). -/
inductive CommandEnding (s : State) (o : Outcome) : Prop where
  | completes (b : Bool) (u : State) (h : o = complete b u) (hu : u.status = s.status)
  | fails (e : ErrorCode) (h : o = raiseError e s) (he : e ≠ .badCommand)

section
variable {s : State}

theorem CommandEnding.ite {p : Prop} [Decidable p] {o o' : Outcome} (h : CommandEnding s o) (h' : CommandEnding s o') :
    CommandEnding s (if p then o else o') := by
  split
  · exact h
  · exact h'

/-! ### The commands that branch on more than a guard -/

theorem execPcEnc_ending (v : Variant) : CommandEnding s (execPcEnc v s) := by
  refine .ite (.fails .length rfl nofun) ?_
  cases encodeProduct (variantDesc v) s.input with
  | none => exact .fails .length rfl nofun
  | some y => exact .completes true _ rfl rfl

theorem execTrDec_ending : CommandEnding s (execTrDec s) := by
  refine .ite (.fails .length rfl nofun) ?_
  cases trellisDecode s.input with
  | error j => exact .completes false _ rfl rfl
  | ok r => exact .completes true _ rfl rfl

/-- CRC.CALC and CRC.VER end as their own part f does, or with LENGTH. -/
theorem withChecksum_ending (p : Preset) {f : Word → Outcome} (hf : ∀ v, CommandEnding s (f v)) :
    CommandEnding s (withChecksum p f s) := by
  refine .ite (.fails .length rfl nofun) ?_
  cases calculate p s.input s.maskOperand with
  | none => exact .fails .length rfl nofun
  | some v => exact hf v

end

/-! ### Every command -/

/-- The case split follows the guards of each command, in the order its rule tests them. -/
theorem exec_ending (i : Instr) (s : State) : CommandEnding s (exec i s) := by
  cases i with
  | bmcSyn | bmcChk | bmcCor | bmcGen | pcDia | pcDid | pcRep | trEnc =>
    exact .ite (.fails .length rfl nofun) (.completes _ _ rfl rfl)
  | pcEnc v => exact execPcEnc_ending v
  | trDec => exact execTrDec_ending
  | crcCfg => exact .completes true _ rfl rfl
  | crcInit => exact .ite (.completes true _ rfl rfl) (.fails .config rfl nofun)
  | crcUpd =>
    exact .ite (.fails .uninit rfl nofun) (.ite (.fails .length rfl nofun)
      (.ite (.fails .length rfl nofun) (.completes true _ rfl rfl)))
  | crcDig | crcRev => exact .ite (.fails .uninit rfl nofun) (.completes true _ rfl rfl)
  | crcCalc p => exact withChecksum_ending p fun _ => .completes true _ rfl rfl
  | crcVer p => exact withChecksum_ending p fun _ => .completes _ _ rfl rfl

/-- The errors other than BAD_COMMAND are the codes 2 to 4 (rule R158). -/
theorem errorNumber_bounds {e : ErrorCode} (he : e ≠ .badCommand) :
    2 ≤ (errorNumber e).toNat ∧ (errorNumber e).toNat ≤ 4 := by
  cases e with
  | badCommand => exact absurd rfl he
  | length | uninit | config => decide

/-- Settles O9: every command ends in one of the two ways, and each of them always has a next state. -/
theorem everyCommandCompletesOrReportsOneError : Obligations.EveryCommandCompletesOrReportsOneError := by
  intro i s
  cases exec_ending i s with
  | completes b u h hu => exact .inl ⟨b, _, h.trans (complete_eq b u), complete_completes hu (complete_eq b u)⟩
  | fails e h he =>
    obtain ⟨hge, hle⟩ := errorNumber_bounds he
    exact .inr ⟨_, hge, hle, h.trans (raiseError_eq e s)⟩

end Sys2Proof.Machine
end

section
/-! PROOFS. Waiting with nothing pending (rule R168), and the life of STATUS.STICKY (rules R15, R157, R160, R167): a
completion passes it on, an error sets it, other host accesses do not touch STATUS, and a reset clears it. -/

namespace Sys2Proof.Machine

/-- Settles O5: an empty queue is the idle case of a step. -/
theorem coreWaitsWhenNothingIsPending : Obligations.CoreWaitsWhenNothingIsPending := step_nil

section
variable {s t : State}

/-- Rule R160: an error sets STICKY. -/
theorem raiseError_sets_sticky {e : ErrorCode} (h : raiseError e s = .next t) : stickyOf t.status = true := by
  cases h
  exact stickyOf_statusWord _ _ _

/-- Rule R157: a completion passes STICKY on, and an error sets it. -/
theorem exec_keeps_sticky {i : Instr} (hs : stickyOf s.status = true) (h : exec i s = .next t) :
    stickyOf t.status = true := by
  cases exec_ending i s with
  | completes b u ho hu =>
    cases ho.symm.trans h
    calc stickyOf (completedStatus b u.status)
      _ = stickyOf u.status := stickyOf_completedStatus b u.status
      _ = stickyOf s.status := by rw [hu]
      _ = true := hs
  | fails e ho => exact raiseError_sets_sticky (ho.symm.trans h)

theorem issueCommand_keeps_sticky {w : Word} (hs : stickyOf s.status = true) (h : issueCommand w s = .next t) :
    stickyOf t.status = true := by
  unfold issueCommand at h
  split at h
  · exact exec_keeps_sticky hs h
  · exact raiseError_sets_sticky h

/-- Only a CMD write can change STATUS; STATUS itself is read-only (rules R42, R48). -/
theorem writeTarget_keeps_sticky {v : Word} {k : Target} (hs : stickyOf s.status = true)
    (h : writeTarget v s k = .next t) : stickyOf t.status = true := by
  cases k with
  | cmd => exact issueCommand_keeps_sticky hs h
  | status | ilen | olen | result | aux0 | aux1 | unitReg | ibuf | obuf | reserved => cases h; exact hs

/-- Rule R167: a reset clears STICKY, and no other event that has a next state does. -/
theorem hostEvent_sticky_iff {e : HostEvent} (hs : stickyOf s.status = true) (h : hostEvent e s = .next t) :
    stickyOf t.status = false ↔ e = .reset := by
  cases e with
  | reset =>
    cases h
    have hreset : stickyOf State.reset.status = false := by decide
    exact iff_of_true hreset rfl
  | read off size =>
    have hp : performed off size = true := (hostEvent_answers_iff _ s).1 ⟨t, h⟩
    cases (if_pos hp).symm.trans h
    exact iff_of_false (by simp [hs]) nofun
  | write off size v =>
    have hp : performed off size = true := (hostEvent_answers_iff _ s).1 ⟨t, h⟩
    have hw : writeTarget v (s.setReply .done) (targetOf off) = .next t := (if_pos hp).symm.trans h
    have hsticky : stickyOf t.status = true := writeTarget_keeps_sticky (s := s.setReply .done) hs hw
    exact iff_of_false (by simp [hsticky]) nofun

end

/-- Settles O10: the step performs the event on a state with the same STATUS. -/
theorem onlyResetClearsSticky : Obligations.OnlyResetClearsSticky := by
  intro s t e rest hp h hs
  exact hostEvent_sticky_iff (s := s.setPending rest) hs (step_cons s e rest hp ▸ h)

end Sys2Proof.Machine
end
